-- ==== Sys2Proof/Word.lean ====
section
/-!
DEFINITION. Word types, the integer readings of a register (00_scope.md R9, R10), and the plain tuples the formulas of
files 41 to 44 speak of. Nothing here has a meaning a test could show wrong: every computation stands under Machine/.
-/

namespace Sys2Proof

/-- A 64-bit register pattern (R31); read as a float it is IEEE 754 binary64 (R14). -/
abbrev Word := BitVec 64

/-- One byte of a stream (R44). -/
abbrev Byte := BitVec 8

/-- A command word: one 32-bit value at the command port (R80). -/
abbrev CmdWord := BitVec 32

/-- The number of a general register, 0..15 (R31). -/
abbrev Reg := Fin 16

/-- `u64(r)` of R10. -/
abbrev u64 (r : Word) : Nat := r.toNat

/-- `s64(r)` of R10. -/
abbrev s64 (r : Word) : Int := r.toInt

/-- `to64(n)` of R10: the pattern of `n mod 2^64`. -/
abbrev to64 (n : Int) : Word := BitVec.ofInt 64 n

/-- Register number `r + k` of a group (R33). Numbers do not wrap in the machine: every command checks that its groups end
at or below `x[15]` before it uses one, so the reduction modulo 16 is never seen. -/
def Reg.plus (r : Reg) (k : Nat) : Reg := Fin.ofNat 16 (r.val + k)

/-- Four values in block raster order: top-left, top-right, bottom-left, bottom-right (R140, R175). -/
structure Quad (α : Type) where
  e1 : α
  e2 : α
  e3 : α
  e4 : α
  deriving DecidableEq, Repr

/-- One function on each of the four values. -/
def Quad.map {α β : Type} (g : α → β) (q : Quad α) : Quad β := ⟨g q.e1, g q.e2, g q.e3, g q.e4⟩

def Quad.toList {α : Type} (q : Quad α) : List α := [q.e1, q.e2, q.e3, q.e4]

/-- The source's Pixel: three 8-bit channels (R34). -/
structure Pixel where
  red : BitVec 8
  green : BitVec 8
  blue : BitVec 8
  deriving DecidableEq, Repr

/-- The source's ChromaSample: luma, chroma-blue, chroma-red, as float patterns (R131). -/
structure Ypp where
  y : Word
  pb : Word
  pr : Word
  deriving DecidableEq, Repr

/-- The source's FloatSample: three channels as float patterns (R133). -/
structure RgbF where
  r : Word
  g : Word
  b : Word
  deriving DecidableEq, Repr

/-- The four coefficients of the block transform, as float patterns (R140). -/
structure Coeffs where
  a : Word
  b : Word
  c : Word
  d : Word
  deriving DecidableEq, Repr

/-- The six quantised values of one codeword (R171, R172): `qa`, `qpb`, `qpr` unsigned, `qb`, `qc`, `qd` signed. -/
structure QVals where
  qa : Nat
  qb : Int
  qc : Int
  qd : Int
  qpb : Nat
  qpr : Nat
  deriving DecidableEq, Repr

end Sys2Proof
end

