-- ==== Sys2Proof/Machine/Flags.lean ====
section
/-!
DEFINITION. The block has no flags (10_state.md R37): its only truth values are the two predicates of the BitPacker, which a command returns as 1
or 0 in a general register, and the field-validity check that decides between a result and a fault (40_bitpacker.md R110 to R112).
-/

namespace Sys2Proof.Machine

/-- `fits_unsigned(v, w)` (R110). -/
def fitsUnsigned (v w : Nat) : Bool := decide (1 ≤ w) && decide (v < 2 ^ w)

/-- `fits_signed(v, w)` (R111). -/
def fitsSigned (v : Int) (w : Nat) : Bool :=
  decide (1 ≤ w) && decide (-(2 : Int) ^ (w - 1) ≤ v) && decide (v ≤ (2 : Int) ^ (w - 1) - 1)

/-- `valid_field(w, l)` (R112); the sum is a sum of integers. -/
def validField (w l : Nat) : Bool := decide (1 ≤ w) && decide (l + w ≤ 64)

/-- A truth value as a register pattern (R37). -/
def truthWord (b : Bool) : Word := if b then 1 else 0

end Sys2Proof.Machine
end

