-- ==== Sys2Proof/Config.lean ====
section
/-!
DEFINITION. The implementation parameters (00_scope.md R7, R8). The fixed ones stand where they are used: the codeword fields in
Machine/Codec.lean (R170), the literals and scales in Machine/Float.lean (R17), the width of words and registers in Word.lean.
The two that the spec leaves OPEN are the functions of the chroma table (R156): opaque constants here, with no body, so that no
proof can know an entry. Reset does not change them (R261). Logs 4 and 5.
-/

namespace Sys2Proof

/-- A float that is not a NaN, by construction: a finite number (sign, biased exponent 0..2046, fraction) or an infinity.
It is the result type of the table's second function, of which R156 says only that it is total, pure and never a NaN. -/
inductive TableFloat where
  | finite (neg : Bool) (expo : Fin 2047) (frac : BitVec 52)
  | inf (neg : Bool)
  deriving DecidableEq, Repr, Inhabited

/-- `chroma_index_of : float (not a NaN) -> 0..255` (R156). Applied to the float's pattern. Free: nothing may be assumed of a
value, not even that it is at most 15. -/
opaque Config.chromaIndexOf : Word → BitVec 8

/-- `chroma_of_index : 0..255 -> float (never a NaN)` (R156). Free: nothing may be assumed of a value but that it is not a NaN. -/
opaque Config.chromaOfIndex : BitVec 8 → TableFloat

end Sys2Proof
end

