-- ==== Sys2Proof/Machine/Float.lean ====
section
/-!
DEFINITION. The floating-point primitives (00_scope.md R14 to R21): IEEE 754 binary64 on 64-bit patterns, round to nearest ties to even, gradual
underflow, no fused operation, no flags.

Every finite float is an integer multiple of the least subnormal, 2^-1074. So a finite float is read as that integer (`units`), an
operation is computed exactly on integers, and the exact quotient of two naturals is rounded once (`roundMag`).
-/

namespace Sys2Proof.Machine

/-! ### Reading a pattern (R14) -/

/-- Bits 62:52, the biased exponent. -/
def expBits (v : Word) : Nat := (v.extractLsb' 52 11).toNat

/-- Bits 51:0, the fraction. -/
def fracBits (v : Word) : Nat := (v.extractLsb' 0 52).toNat

/-- Bit 63, the sign. -/
def isNeg (v : Word) : Bool := v.msb

/-- `isnan(v)`: exponent field all ones, fraction not zero. -/
def isNaN (v : Word) : Bool := expBits v == 2047 && fracBits v != 0

/-- One of the two infinities. -/
def isInf (v : Word) : Bool := expBits v == 2047 && fracBits v == 0

/-- The number 1 in units of 2^-1074. -/
def oneU : Nat := 2 ^ 1074

/-- The magnitude of a finite float in units of 2^-1074: subnormal when the exponent field is 0, else with the leading 1. -/
def magUnits (v : Word) : Nat :=
  if expBits v = 0 then fracBits v else (2 ^ 52 + fracBits v) * 2 ^ (expBits v - 1)

/-- The value of a finite float in units of 2^-1074. -/
def units (v : Word) : Int := if isNeg v then -(magUnits v : Int) else (magUnits v : Int)

/-- A zero of either sign. -/
def isZeroF (v : Word) : Bool := magUnits v == 0

/-! ### Writing a pattern -/

/-- The pattern with the given sign and the given bits 62:0. -/
def mkFloat (neg : Bool) (mag : Nat) : Word := BitVec.ofNat 64 ((if neg then 2 ^ 63 else 0) + mag)

/-- Bits 62:0 of an infinity. -/
def infMag : Nat := 2047 * 2 ^ 52

/-- The NaN an operation gives. R15 says only "a NaN"; which one cannot be seen, since no command writes a NaN it computed (R227; log 3). -/
def fnan : Word := 0x7FF8000000000000

/-- `n / d` rounded to an integer, ties to even. -/
def roundHalfEven (n d : Nat) : Nat :=
  let q := n / d
  let r := n % d
  if 2 * r < d then q else if d < 2 * r then q + 1 else q + q % 2

/-- Bits 62:0 of the float nearest to `n / d` units (R15: rounded once, the even fraction on a tie, overflow to infinity, gradual
underflow). `sh` is how many low bits the 53-bit significand leaves out; a significand rounded up to 2^53 carries into the
exponent field by the addition. -/
def roundMag (n d : Nat) : Nat :=
  let sh := Nat.log2 (n / d) - 52
  min infMag (sh * 2 ^ 52 + roundHalfEven n (d * 2 ^ sh))

/-! ### The operations (R15) -/

/-- `fadd(a,b)`. An exact sum of zero is `+0.0`, unless both operands are negative (both `-0.0`). -/
def fadd (a b : Word) : Word :=
  if isNaN a || isNaN b then fnan
  else if isInf a then (if isInf b && isNeg a != isNeg b then fnan else a)
  else if isInf b then b
  else
    let n := units a + units b
    if n = 0 then mkFloat (isNeg a && isNeg b) 0 else mkFloat (decide (n < 0)) (roundMag n.natAbs 1)

/-- The pattern with the sign bit inverted. -/
def fneg (v : Word) : Word := v ^^^ 0x8000000000000000

/-- `fsub(a,b)`: the sum with the second operand's sign inverted. -/
def fsub (a b : Word) : Word := fadd a (fneg b)

/-- `fmul(a,b)`. -/
def fmul (a b : Word) : Word :=
  let neg := isNeg a != isNeg b
  if isNaN a || isNaN b then fnan
  else if isInf a || isInf b then (if isZeroF a || isZeroF b then fnan else mkFloat neg infMag)
  else mkFloat neg (roundMag (magUnits a * magUnits b) oneU)

/-- `fdiv(a,b)`. -/
def fdiv (a b : Word) : Word :=
  let neg := isNeg a != isNeg b
  if isNaN a || isNaN b then fnan
  else if isInf a then (if isInf b then fnan else mkFloat neg infMag)
  else if isInf b then mkFloat neg 0
  else if isZeroF b then (if isZeroF a then fnan else mkFloat neg infMag)
  else mkFloat neg (roundMag (magUnits a * oneU) (magUnits b))

/-! ### Conversions and comparison (R17 to R21) -/

/-- `i2f(n)` (R18): the float nearest to the integer `n`, ties to even. DESIGN CHOICE (log 16): an infinity beyond the largest float, which no
command reaches. -/
def i2f (n : Int) : Word := mkFloat (decide (n < 0)) (roundMag (n.natAbs * oneU) 1)

/-- `fround(v)` (R19): the nearest float with an integral value, ties away from zero; infinities are unchanged and a zero keeps the
sign. Not applied to a NaN (log 6). -/
def fround (v : Word) : Word :=
  if expBits v = 2047 then v
  else mkFloat (isNeg v) (roundMag ((2 * magUnits v + oneU) / (2 * oneU) * oneU) 1)

/-- The place of a float in the order of R20: its magnitude bits, negated under a minus sign, so that `-0.0` and `+0.0` are level
and the infinities are the two ends. -/
def orderKey (v : Word) : Int :=
  let m : Nat := expBits v * 2 ^ 52 + fracBits v
  if isNeg v then -(m : Int) else (m : Int)

/-- `flt(a,b)` (R20): `a < b`. Not applied to a NaN (log 6). -/
def flt (a b : Word) : Bool := !isNaN a && !isNaN b && decide (orderKey a < orderKey b)

/-- `fclamp(v, lo, hi)` (R20). -/
def fclamp (v lo hi : Word) : Word := if flt v lo then lo else if flt hi v then hi else v

/-- `f2i(v)` (R21): the integer equal to a finite, integral float. Not applied to any other (log 6). -/
def f2i (v : Word) : Int := if isNeg v then -((magUnits v / oneU : Nat) : Int) else ((magUnits v / oneU : Nat) : Int)

/-- `FC(lit)` (R17) of the decimal literal `±num/den`: the nearest float, ties to even. DESIGN CHOICE (log 16), where R17 says only "nearest": a
negative literal that is or rounds to zero gives `-0.0`, and a literal beyond the largest float gives an infinity of its sign, as an
operation of R15 that overflows does. -/
def fcOf (neg : Bool) (num den : Nat) : Word := mkFloat neg (roundMag (num * oneU) den)

/-! ### The literals of the source, by the patterns of R17 -/

def fc_0_299 : Word := 0x3FD322D0E5604189
def fc_0_587 : Word := 0x3FE2C8B439581062
def fc_0_114 : Word := 0x3FBD2F1A9FBE76C9
def fc_neg_0_168736 : Word := 0xBFC5992428D434A0
def fc_0_331264 : Word := 0x3FD5336DEB95E5B0
def fc_0_5 : Word := 0x3FE0000000000000
def fc_0_418688 : Word := 0x3FDACBC8C0CE91C9
def fc_0_081312 : Word := 0x3FB4D0DCFCC5B8DC
def fc_1_402 : Word := 0x3FF66E978D4FDF3B
def fc_0_344136 : Word := 0x3FD6065300581494
def fc_0_714136 : Word := 0x3FE6DA33BD9CAE21
def fc_1_772 : Word := 0x3FFC5A1CAC083127
def fc_4 : Word := 0x4010000000000000
def fc_512 : Word := 0x4080000000000000
def fc_0_3 : Word := 0x3FD3333333333333
def fc_neg_0_3 : Word := 0xBFD3333333333333
def fc_15 : Word := 0x402E000000000000
def fc_neg_15 : Word := 0xC02E000000000000
def fc_0 : Word := 0x0000000000000000

/-! ### The chroma table (R156) -/

/-- The pattern of a table value, which is never a NaN. -/
def tableBits : TableFloat → Word
  | .finite neg expo frac => mkFloat neg (expo.val * 2 ^ 52 + frac.toNat)
  | .inf neg => mkFloat neg infMag

/-- `chroma_index_of(v)`, the table's first function, a parameter (R155, R156). -/
def chromaIndexOf (v : Word) : BitVec 8 := Config.chromaIndexOf v

/-- `chroma_of_index(i)`, the table's second function, a parameter (R156, R157). -/
def chromaOfIndex (i : BitVec 8) : Word := tableBits (Config.chromaOfIndex i)

end Sys2Proof.Machine
end

