-- ==== Sys2Proof/Syntax.lean ====
section
/-!
DEFINITION. The thirty commands of CORE-CMD version 1 (30_encoding.md R90), one constructor per row of spec/opcode_table.json.
`width` and `lsb` are the 7-bit fields of R86 and `imm`, `csr` the 16-bit field of R84 and R85, as they stand in the command word.
-/

namespace Sys2Proof

inductive Instr where
  -- system and data movement (45_system.md)
  | nop
  | clrf
  | li (rd : Reg) (imm : BitVec 16)
  | lih (rd : Reg) (imm : BitVec 16)
  | mv (rd rs1 : Reg)
  | rdc (rd : Reg) (csr : BitVec 16)
  | wrc (csr : BitVec 16) (rs1 : Reg)
  -- BitPacker (40_bitpacker.md)
  | fitsu (rd rs1 : Reg) (width : BitVec 7)
  | fitss (rd rs1 : Reg) (width : BitVec 7)
  | getu (rd rs1 : Reg) (width lsb : BitVec 7)
  | gets (rd rs1 : Reg) (width lsb : BitVec 7)
  | setu (rd rs1 : Reg) (width lsb : BitVec 7)
  | sets (rd rs1 : Reg) (width lsb : BitVec 7)
  -- ColorTransform (41_colortransform.md)
  | rgb2ypp (rd rs1 : Reg)
  | ypp2rgb (rd rs1 : Reg)
  -- BlockTransform (42_blocktransform.md)
  | btf (rd rs1 : Reg)
  | bti (rd rs1 : Reg)
  -- Quantizer (43_quantizer.md)
  | avg4 (rd rs1 : Reg)
  | qa (rd rs1 : Reg)
  | qbcd (rd rs1 : Reg)
  | qch (rd rs1 : Reg)
  | dqa (rd rs1 : Reg)
  | dqbcd (rd rs1 : Reg)
  | dqch (rd rs1 : Reg)
  -- Codec (44_codec.md)
  | packcw (rd rs1 : Reg)
  | unpkcw (rd rs1 : Reg)
  | cblk (rd rs1 : Reg)
  | dblk (rd rs1 : Reg)
  | emit (rs1 : Reg)
  | take (rd : Reg)
  deriving DecidableEq, Repr

end Sys2Proof
end

