-- ==== Sys2Proof/WellFormed.lean ====
section
/-!
DEFINITION. Which instructions exist: the "extra check" column of 30_encoding.md R90, by name. The operand types already bound register
numbers (0..15), widths and offsets (0..127) and immediates (16 bits); what is left is that a register group ends at or below
`x[15]` (R33, R88) and that a CSR number is assigned, and for `WRC` writable (R38, R92).
-/

namespace Sys2Proof

/-- Why a command word is not one of the thirty commands (R91, R92). The first two come from the pattern of the word, the others
from the extra check. All of them raise the one cause `ILL`; the name is for the reader, nothing in the machine holds it. -/
inductive Reject where
  /-- R92 (a): no row has this `op`. -/
  | unassignedOp
  /-- R92 (b): a bit is set in a field the format requires to be zero. -/
  | fieldNotZero
  /-- R92 (c): a register group would pass `x[15]`. -/
  | groupPastX15
  /-- R92 (d), (e): the CSR number is above 3. -/
  | csrUnassigned
  /-- R92 (e): `WRC` to `STATUS`, `CAUSE` or `FCMD`. -/
  | csrReadOnly
  deriving DecidableEq, Repr

/-- A group of `k` registers first named `r` is refused when it would pass `x[15]` (R33, R88). -/
def groupReject (r : Reg) (k : Nat) : Option Reject := if r.val + k ≤ 16 then none else some .groupPastX15

/-- The extra check of R90, row by row: the reason for which the instruction does not exist, if there is one. -/
def Instr.reject : Instr → Option Reject
  | .nop => none
  | .clrf => none
  | .li _ _ => none
  | .lih _ _ => none
  | .mv _ _ => none
  | .rdc _ csr => if csr.toNat ≤ 3 then none else some .csrUnassigned
  | .wrc csr _ => if csr = 0 then none else if csr.toNat ≤ 3 then some .csrReadOnly else some .csrUnassigned
  | .fitsu _ _ _ => none
  | .fitss _ _ _ => none
  | .getu _ _ _ _ => none
  | .gets _ _ _ _ => none
  | .setu _ _ _ _ => none
  | .sets _ _ _ _ => none
  | .rgb2ypp rd _ => groupReject rd 3
  | .ypp2rgb _ rs1 => groupReject rs1 3
  | .btf rd rs1 => groupReject rd 4 <|> groupReject rs1 4
  | .bti rd rs1 => groupReject rd 4 <|> groupReject rs1 4
  | .avg4 _ rs1 => groupReject rs1 4
  | .qa _ _ => none
  | .qbcd _ _ => none
  | .qch _ _ => none
  | .dqa _ _ => none
  | .dqbcd _ _ => none
  | .dqch _ _ => none
  | .packcw _ rs1 => groupReject rs1 6
  | .unpkcw rd _ => groupReject rd 6
  | .cblk _ rs1 => groupReject rs1 4
  | .dblk rd _ => groupReject rd 4
  | .emit _ => none
  | .take _ => none

/-- The instruction is one of the legal ones (R90, R91). -/
abbrev Instr.WellFormed (i : Instr) : Prop := i.reject = none

end Sys2Proof
end

