-- ==== Sys2Proof/Decode.lean ====
section
/-!
DEFINITION. The decoder (30_encoding.md R80 to R93), total on every 32-bit word and rejecting by name, and after it the encoder, written from the
same format tables. A command word arrives at the port as one 32-bit value: there is no fetch and no byte order (R63).
-/

namespace Sys2Proof

/-! ### Fields of a command word (R81, R86) -/

/-- `op`, bits 31:24. -/
def opField (c : CmdWord) : BitVec 8 := c.extractLsb' 24 8
/-- `rd`, bits 23:20, not yet turned into a register number. -/
def rdBits (c : CmdWord) : BitVec 4 := c.extractLsb' 20 4
/-- `rs1`, bits 19:16. -/
def rs1Bits (c : CmdWord) : BitVec 4 := c.extractLsb' 16 4
/-- `imm16` and `csr`, bits 15:0. -/
def immField (c : CmdWord) : BitVec 16 := c.extractLsb' 0 16
/-- `width`, bits 15:9. -/
def widthField (c : CmdWord) : BitVec 7 := c.extractLsb' 9 7
/-- `lsb`, bits 8:2. -/
def lsbField (c : CmdWord) : BitVec 7 := c.extractLsb' 2 7
/-- Bits 1:0, which format B requires to be zero. -/
def lowField (c : CmdWord) : BitVec 2 := c.extractLsb' 0 2

/-- A 4-bit register field names `x[n]` (R88). -/
def regOf (b : BitVec 4) : Reg := ⟨b.toNat, b.isLt⟩

def rdField (c : CmdWord) : Reg := regOf (rdBits c)
def rs1Field (c : CmdWord) : Reg := regOf (rs1Bits c)

/-! ### The formats (R82 to R86): which fields must be zero -/

/-- The instruction when the must-be-zero fields are zero, else the rejection. -/
def ifZero (z : Bool) (i : Instr) : Except Reject Instr := if z then .ok i else .error .fieldNotZero

/-- Format N: no operands (R82). -/
def formatN (c : CmdWord) (i : Instr) : Except Reject Instr :=
  ifZero (rdBits c == 0 && rs1Bits c == 0 && immField c == 0) i

/-- Format R: two registers (R83). -/
def formatR (c : CmdWord) (mk : Reg → Reg → Instr) : Except Reject Instr :=
  ifZero (immField c == 0) (mk (rdField c) (rs1Field c))

/-- Format RS: `rs1` only (R83). -/
def formatRS (c : CmdWord) (mk : Reg → Instr) : Except Reject Instr :=
  ifZero (rdBits c == 0 && immField c == 0) (mk (rs1Field c))

/-- Format RD: `rd` only (R83). -/
def formatRD (c : CmdWord) (mk : Reg → Instr) : Except Reject Instr :=
  ifZero (rs1Bits c == 0 && immField c == 0) (mk (rdField c))

/-- Format I, and format C of `RDC`: `rd` and 16 bits (R84, R85). -/
def formatI (c : CmdWord) (mk : Reg → BitVec 16 → Instr) : Except Reject Instr :=
  ifZero (rs1Bits c == 0) (mk (rdField c) (immField c))

/-- Format C of `WRC`: a CSR number and `rs1` (R84). -/
def formatCW (c : CmdWord) (mk : BitVec 16 → Reg → Instr) : Except Reject Instr :=
  ifZero (rdBits c == 0) (mk (immField c) (rs1Field c))

/-- Format B: two registers, `width` and `lsb` (R86). -/
def formatB (c : CmdWord) (mk : Reg → Reg → BitVec 7 → BitVec 7 → Instr) : Except Reject Instr :=
  ifZero (lowField c == 0) (mk (rdField c) (rs1Field c) (widthField c) (lsbField c))

/-- Format BW: two registers and `width`; the `lsb` field must be zero (R86). -/
def formatBW (c : CmdWord) (mk : Reg → Reg → BitVec 7 → Instr) : Except Reject Instr :=
  ifZero (lsbField c == 0 && lowField c == 0) (mk (rdField c) (rs1Field c) (widthField c))

/-- The pattern part of decoding: the row of R90 that the word has, by its `op`, with the must-be-zero fields checked. -/
def decodePattern (c : CmdWord) : Except Reject Instr :=
  match (opField c).toNat with
  | 0x01 => formatN c .nop
  | 0x02 => formatN c .clrf
  | 0x03 => formatI c .li
  | 0x04 => formatI c .lih
  | 0x05 => formatR c .mv
  | 0x06 => formatI c .rdc
  | 0x07 => formatCW c .wrc
  | 0x10 => formatBW c .fitsu
  | 0x11 => formatBW c .fitss
  | 0x12 => formatB c .getu
  | 0x13 => formatB c .gets
  | 0x14 => formatB c .setu
  | 0x15 => formatB c .sets
  | 0x20 => formatR c .rgb2ypp
  | 0x21 => formatR c .ypp2rgb
  | 0x30 => formatR c .btf
  | 0x31 => formatR c .bti
  | 0x40 => formatR c .avg4
  | 0x41 => formatR c .qa
  | 0x42 => formatR c .qbcd
  | 0x43 => formatR c .qch
  | 0x44 => formatR c .dqa
  | 0x45 => formatR c .dqbcd
  | 0x46 => formatR c .dqch
  | 0x50 => formatR c .packcw
  | 0x51 => formatR c .unpkcw
  | 0x52 => formatR c .cblk
  | 0x53 => formatR c .dblk
  | 0x54 => formatRS c .emit
  | 0x55 => formatRD c .take
  | _ => .error .unassignedOp

/-- The extra check of R91, made after the pattern. -/
def checkExtra (i : Instr) : Except Reject Instr :=
  match i.reject with
  | none => .ok i
  | some r => .error r

/-- `decode(c)` of R91. Every rejection raises `ILL` (R92), decided from the command word alone. -/
def decode (c : CmdWord) : Except Reject Instr :=
  match decodePattern c with
  | .ok i => checkExtra i
  | .error r => .error r

/-! ### The encoder -/

/-- The 4-bit field of a register number. -/
def regBits (r : Reg) : BitVec 4 := BitVec.ofNat 4 r.val

/-- A word from its fields `op`, `rd`, `rs1`, `imm` (R81). -/
def wordOf (op : BitVec 8) (rd rs1 : BitVec 4) (imm : BitVec 16) : CmdWord := op ++ rd ++ rs1 ++ imm

/-- The 16 low bits of format B: `width`, `lsb`, `00` (R86). -/
def fieldImm (width lsb : BitVec 7) : BitVec 16 := width ++ lsb ++ (0 : BitVec 2)

/-- The opcode of each command (R90). -/
def Instr.opcode : Instr → BitVec 8
  | .nop => 0x01
  | .clrf => 0x02
  | .li _ _ => 0x03
  | .lih _ _ => 0x04
  | .mv _ _ => 0x05
  | .rdc _ _ => 0x06
  | .wrc _ _ => 0x07
  | .fitsu _ _ _ => 0x10
  | .fitss _ _ _ => 0x11
  | .getu _ _ _ _ => 0x12
  | .gets _ _ _ _ => 0x13
  | .setu _ _ _ _ => 0x14
  | .sets _ _ _ _ => 0x15
  | .rgb2ypp _ _ => 0x20
  | .ypp2rgb _ _ => 0x21
  | .btf _ _ => 0x30
  | .bti _ _ => 0x31
  | .avg4 _ _ => 0x40
  | .qa _ _ => 0x41
  | .qbcd _ _ => 0x42
  | .qch _ _ => 0x43
  | .dqa _ _ => 0x44
  | .dqbcd _ _ => 0x45
  | .dqch _ _ => 0x46
  | .packcw _ _ => 0x50
  | .unpkcw _ _ => 0x51
  | .cblk _ _ => 0x52
  | .dblk _ _ => 0x53
  | .emit _ => 0x54
  | .take _ => 0x55

/-- The 24 bits below the opcode, by the command's format (R82 to R86). -/
def Instr.operandBits : Instr → BitVec 4 × BitVec 4 × BitVec 16
  | .nop | .clrf => (0, 0, 0)
  | .li rd imm | .lih rd imm | .rdc rd imm => (regBits rd, 0, imm)
  | .wrc csr rs1 => (0, regBits rs1, csr)
  | .fitsu rd rs1 w | .fitss rd rs1 w => (regBits rd, regBits rs1, fieldImm w 0)
  | .getu rd rs1 w l | .gets rd rs1 w l | .setu rd rs1 w l | .sets rd rs1 w l => (regBits rd, regBits rs1, fieldImm w l)
  | .mv rd rs1 | .rgb2ypp rd rs1 | .ypp2rgb rd rs1 | .btf rd rs1 | .bti rd rs1 | .avg4 rd rs1 | .qa rd rs1 | .qbcd rd rs1
  | .qch rd rs1 | .dqa rd rs1 | .dqbcd rd rs1 | .dqch rd rs1 | .packcw rd rs1 | .unpkcw rd rs1 | .cblk rd rs1 | .dblk rd rs1 =>
    (regBits rd, regBits rs1, 0)
  | .emit rs1 => (0, regBits rs1, 0)
  | .take rd => (regBits rd, 0, 0)

/-- The command word of an instruction. Every field is an operand or required to be zero, so a word that decodes has no
other encoding, and the encoder gives the very word back (log 2). -/
def encode (i : Instr) : CmdWord := wordOf i.opcode i.operandBits.1 i.operandBits.2.1 i.operandBits.2.2

/-- The one word a FAULTED block executes (R201, R233). -/
def clrfWord : CmdWord := 0x02000000

/-- The command word of a word numbered as spec/opcode_table.json numbers it; every bit above `nbits` is zero. -/
def tableWord (nbits w : Nat) : CmdWord := BitVec.ofNat 32 (w % 2 ^ nbits)

/-- The instruction the decoder reads from a word numbered as spec/opcode_table.json numbers it. -/
def decodeTableWord (nbits w : Nat) : Option Instr :=
  match decode (tableWord nbits w) with
  | .ok i => some i
  | .error _ => none

/-! ### The opcode map as a table of masks (R90)

The decoder above reads `op` and then the fields its format requires to be zero. The same map as R90 prints it, by `match` and `mask`, stands
here beside it, so that the two can be proved to accept the same words. -/

/-- One row of R90: the pattern, and the extra check on the word's fields. -/
structure OpcodeRow where
  value : CmdWord
  mask : CmdWord
  extra : CmdWord → Bool

/-- No extra check. -/
def noExtra (_ : CmdWord) : Bool := true

/-- `rd <= n`. -/
def rdAtMost (n : Nat) (c : CmdWord) : Bool := decide ((rdBits c).toNat ≤ n)

/-- `rs1 <= n`. -/
def rs1AtMost (n : Nat) (c : CmdWord) : Bool := decide ((rs1Bits c).toNat ≤ n)

/-- `csr <= n`. -/
def csrAtMost (n : Nat) (c : CmdWord) : Bool := decide ((immField c).toNat ≤ n)

def systemRows : List OpcodeRow :=
  [⟨0x01000000, 0xFFFFFFFF, noExtra⟩, ⟨0x02000000, 0xFFFFFFFF, noExtra⟩, ⟨0x03000000, 0xFF0F0000, noExtra⟩,
   ⟨0x04000000, 0xFF0F0000, noExtra⟩, ⟨0x05000000, 0xFF00FFFF, noExtra⟩, ⟨0x06000000, 0xFF0F0000, csrAtMost 3⟩,
   ⟨0x07000000, 0xFFF00000, csrAtMost 0⟩]

def bitPackerRows : List OpcodeRow :=
  [⟨0x10000000, 0xFF0001FF, noExtra⟩, ⟨0x11000000, 0xFF0001FF, noExtra⟩, ⟨0x12000000, 0xFF000003, noExtra⟩,
   ⟨0x13000000, 0xFF000003, noExtra⟩, ⟨0x14000000, 0xFF000003, noExtra⟩, ⟨0x15000000, 0xFF000003, noExtra⟩]

def transformRows : List OpcodeRow :=
  [⟨0x20000000, 0xFF00FFFF, rdAtMost 13⟩, ⟨0x21000000, 0xFF00FFFF, rs1AtMost 13⟩,
   ⟨0x30000000, 0xFF00FFFF, fun c => rdAtMost 12 c && rs1AtMost 12 c⟩,
   ⟨0x31000000, 0xFF00FFFF, fun c => rdAtMost 12 c && rs1AtMost 12 c⟩]

def quantizerRows : List OpcodeRow :=
  [⟨0x40000000, 0xFF00FFFF, rs1AtMost 12⟩, ⟨0x41000000, 0xFF00FFFF, noExtra⟩, ⟨0x42000000, 0xFF00FFFF, noExtra⟩,
   ⟨0x43000000, 0xFF00FFFF, noExtra⟩, ⟨0x44000000, 0xFF00FFFF, noExtra⟩, ⟨0x45000000, 0xFF00FFFF, noExtra⟩,
   ⟨0x46000000, 0xFF00FFFF, noExtra⟩]

def codecRows : List OpcodeRow :=
  [⟨0x50000000, 0xFF00FFFF, rs1AtMost 10⟩, ⟨0x51000000, 0xFF00FFFF, rdAtMost 10⟩, ⟨0x52000000, 0xFF00FFFF, rs1AtMost 12⟩,
   ⟨0x53000000, 0xFF00FFFF, rdAtMost 12⟩, ⟨0x54000000, 0xFFF0FFFF, noExtra⟩, ⟨0x55000000, 0xFF0FFFFF, noExtra⟩]

/-- The complete opcode map of R90. -/
def opcodeRows : List OpcodeRow := systemRows ++ bitPackerRows ++ transformRows ++ quantizerRows ++ codecRows

/-- The word has the row's pattern: `c & mask = match` (R90). -/
def OpcodeRow.hasPattern (row : OpcodeRow) (c : CmdWord) : Bool := c &&& row.mask == row.value

end Sys2Proof
end

