-- ==== Sys2Proof/Machine/State.lean ====
section
/-!
DEFINITION. The architectural state of the block (10_state.md R30), its reset (R46, R260), and the reasons a step could stop with.
-/

namespace Sys2Proof.Machine

/-- What the host can do to the block (20_memory.md R68). -/
inductive HostMove where
  /-- `HostCmd(c)`: hand over one 32-bit command word. -/
  | cmd (c : CmdWord)
  /-- `HostPush(bs)`: append bytes to `SIN`. -/
  | push (bs : List Byte)
  /-- `HostObserve`: read the observation port (R47). -/
  | observe
  /-- `HostReset` (R260). -/
  | reset
  deriving DecidableEq, Repr

/-- The causes of a fault (R221); code 0, "no fault", is no cause. -/
inductive Cause where
  /-- illegal command word (R222) -/
  | ill
  /-- bit-field range (R223) -/
  | bfr
  /-- bit-field overflow (R224) -/
  | ovf
  /-- dimension error: fewer than four bytes in `SIN` (R225) -/
  | dim
  /-- operand outside its view (R226) -/
  | opr
  /-- no numeric value (R227) -/
  | num
  deriving DecidableEq, Repr

/-- The whole state of R30, and `port`, the host's moves not yet applied, oldest first: the model's own field (R266: "a model takes a list
of host moves and applies them in order"; log 1). The fault line is not stored: it is `STATUS.F` (R230). -/
structure State where
  /-- `x[0]` to `x[15]` (R31). -/
  x : Vector Word 16
  /-- CSR 0, `DENOM` (R39). -/
  denom : BitVec 8
  /-- CSR 1, `STATUS`: its one bit `F` (R40). -/
  status : BitVec 1
  /-- CSR 2, `CAUSE` (R41). -/
  cause : BitVec 4
  /-- CSR 3, `FCMD` (R42). -/
  fcmd : CmdWord
  /-- The input stream, head first (R44). -/
  sin : List Byte
  /-- The output log, oldest byte first (R44). -/
  sout : List Byte
  /-- The host moves not yet applied (R68, R266). -/
  port : List HostMove
  deriving DecidableEq, Repr

/-- The state after `HostReset` (R46, R260), with no host move waiting. -/
def State.reset : State where
  x := Vector.replicate 16 0
  denom := 255
  status := 0
  cause := 0
  fcmd := 0
  sin := []
  sout := []
  port := []

/-- Reasons a step could stop the machine with. There is none: the spec's faults (R221) are states the machine goes on from (R232), and
every word has a stated effect in every state, so no constructor is needed and none could be raised. -/
inductive Fault where
  deriving DecidableEq, Repr

/-- Reasons the model could give no meaning. -/
inductive Refusal where
  /-- An instruction without a meaning in this model. Raised by nobody: every arm of `exec` has its meaning. Safe. -/
  | notModelled (mnemonic : String)
  deriving DecidableEq, Repr

/-- What one command, one host move and one step answer. -/
abbrev Result := Host.Outcome State Fault Refusal

end Sys2Proof.Machine
end

