-- ==== Sys2Proof/Machine/Ops.lean ====
section
/-!
DEFINITION. The named operations over the state: registers and register groups (R11, R33), CSRs (R38), the two streams (R12), taking a fault
and returning from one (60_exceptions.md R232, R234), how a command ends (R13), and the host's oldest move.
-/

namespace Sys2Proof.Machine

/-! ### Registers -/

/-- `x[r]` (R11). -/
def State.readReg (s : State) (r : Reg) : Word := s.x[r.val]'r.isLt

/-- `x[r] <- v` (R11). No register is hardwired (R31). -/
def State.writeReg (s : State) (r : Reg) (v : Word) : State := { s with x := s.x.set r.val v r.isLt }

/-- Writes consecutive ascending registers from `r` on (R33). -/
def State.writeGroup (s : State) (r : Reg) : List Word → State
  | [] => s
  | v :: vs => (s.writeReg r v).writeGroup (r.plus 1) vs

/-- The quad `x[r] .. x[r+3]` (R33). -/
def State.readQuad (s : State) (r : Reg) : Quad Word :=
  ⟨s.readReg r, s.readReg (r.plus 1), s.readReg (r.plus 2), s.readReg (r.plus 3)⟩

/-- The triple `x[r] .. x[r+2]` as `(y, pb, pr)` (R33, R88). -/
def State.readTriple (s : State) (r : Reg) : Ypp := ⟨s.readReg r, s.readReg (r.plus 1), s.readReg (r.plus 2)⟩

/-- The hex `x[r] .. x[r+5]` as the six quantised values, each under its view (R173). -/
def State.readHex (s : State) (r : Reg) : QVals :=
  ⟨u64 (s.readReg r), s64 (s.readReg (r.plus 1)), s64 (s.readReg (r.plus 2)), s64 (s.readReg (r.plus 3)),
    u64 (s.readReg (r.plus 4)), u64 (s.readReg (r.plus 5))⟩

/-! ### Control and status registers -/

/-- The CSR with number `n`, zero-extended to 64 bits (R38); unassigned numbers are refused before it is read (R205). -/
def State.readCsr (s : State) (n : BitVec 16) : Word :=
  match n.toNat with
  | 0 => s.denom.setWidth 64
  | 1 => s.status.setWidth 64
  | 2 => s.cause.setWidth 64
  | _ => s.fcmd.setWidth 64

/-- `csr[DENOM] <- v` (R39, R206). -/
def State.writeDenom (s : State) (v : BitVec 8) : State := { s with denom := v }

/-- The denominator as an integer. -/
def State.den (s : State) : Nat := s.denom.toNat

/-! ### Streams -/

/-- `MemWrite(SOUT, 4, bytes of w)`: the codeword's four bytes, most significant first (R12, R63, R179). -/
def codewordBytes (w : BitVec 32) : List Byte :=
  [w.extractLsb' 24 8, w.extractLsb' 16 8, w.extractLsb' 8 8, w.extractLsb' 0 8]

/-- Appends bytes at the tail of `SOUT` (R44). -/
def State.appendSout (s : State) (bs : List Byte) : State := { s with sout := s.sout ++ bs }

/-- Appends bytes at the tail of `SIN` (R44, R68). -/
def State.appendSin (s : State) (bs : List Byte) : State := { s with sin := s.sin ++ bs }

/-- `MemRead(SIN, 4)`: the first four bytes as a codeword, the first of them in bits 31:24, and the state without them; nothing
when fewer than four are present (R12, R63, R180). -/
def State.takeSin (s : State) : Option (BitVec 32 × State) :=
  match s.sin with
  | b0 :: b1 :: b2 :: b3 :: rest => some (b0 ++ b1 ++ b2 ++ b3, { s with sin := rest })
  | _ => none

/-! ### Faults -/

/-- The code written to `CAUSE` (R221). -/
def Cause.code : Cause → BitVec 4
  | .ill => 1
  | .bfr => 2
  | .ovf => 3
  | .dim => 4
  | .opr => 5
  | .num => 6

/-- `fault_entry(k, c)` (R232): `STATUS.F`, `CAUSE` and `FCMD`, and nothing else. -/
def State.faultEntry (s : State) (k : Cause) (c : CmdWord) : State := { s with status := 1, cause := k.code, fcmd := c }

/-- The return from FAULTED, the effect of `CLRF` (R201, R234). -/
def State.clearFault (s : State) : State := { s with status := 0, cause := 0, fcmd := 0 }

/-- The fault line, which is `STATUS.F` at every moment (R230). -/
def State.faultLine (s : State) : Bool := s.status == 1

/-- The end of the command `i` that began in `s` (R13): its result, or the fault entry with its command word in the state it began
in, so that a command that raises leaves nothing else behind (R232). -/
def complete (i : Instr) (s : State) (r : Except Cause State) : Result :=
  .next (match r with
    | .ok t => t
    | .error k => s.faultEntry k (encode i))

/-- `raise k` unless `b` holds. -/
def require (b : Bool) (k : Cause) : Except Cause Unit := if b then .ok () else .error k

/-- `ILL` unless the group of `k` registers from `r` ends at or below `x[15]` (R33, R88). The decoder has made the same check, so
this never fires on a decoded command (log 7). -/
def requireGroup (r : Reg) (k : Nat) : Except Cause Unit := require (decide (r.val + k ≤ 16)) .ill

/-! ### The command port -/

/-- The host's oldest move, and the state without it (R68, R266). -/
def State.takeMove (s : State) : Option (HostMove × State) :=
  match s.port with
  | [] => none
  | m :: rest => some (m, { s with port := rest })

/-- The state in which the host's next move is `HostCmd(c)`. -/
def State.offerCmd (s : State) (c : CmdWord) : State := { s with port := .cmd c :: s.port }

end Sys2Proof.Machine
end

