-- ==== Sys2Proof/Machine/Operands.lean ====
section
/-!
DEFINITION. The operand views of 10_state.md R32: each gives the operand's value or raises the cause of the view. The views `word`, `unsigned` and
`signed` accept every pattern and are `u64`, `s64` and the pattern itself.
-/

namespace Sys2Proof.Machine

/-- The `float` view: a NaN raises `NUM` (R32, R227). -/
def floatView (v : Word) : Except Cause Word := if isNaN v then .error .num else .ok v

/-- Four floats (R142, R143, R161). -/
def floatQuad (q : Quad Word) : Except Cause (Quad Word) := do
  let e1 ← floatView q.e1
  let e2 ← floatView q.e2
  let e3 ← floatView q.e3
  let e4 ← floatView q.e4
  return ⟨e1, e2, e3, e4⟩

/-- Three floats `(y, pb, pr)` (R135). -/
def floatTriple (t : Ypp) : Except Cause Ypp := do
  let y ← floatView t.y
  let pb ← floatView t.pb
  let pr ← floatView t.pr
  return ⟨y, pb, pr⟩

/-- The three channels of a pixel register (R34). -/
def pixelFields (r : Word) : Pixel := ⟨r.extractLsb' 16 8, r.extractLsb' 8 8, r.extractLsb' 0 8⟩

/-- The checks of the `pixel` view: bits 63:24 zero, no channel above the denominator (R34, R130). -/
def pixelLegal (r : Word) (den : Nat) : Bool :=
  r.extractLsb' 24 40 == 0 && decide ((pixelFields r).red.toNat ≤ den) && decide ((pixelFields r).green.toNat ≤ den) &&
    decide ((pixelFields r).blue.toNat ≤ den)

/-- `pixel_of(r, den)` (R130). -/
def pixelOf (r : Word) (den : Nat) : Except Cause Pixel := if pixelLegal r den then .ok (pixelFields r) else .error .opr

/-- Four pixels (R176). -/
def pixelQuad (q : Quad Word) (den : Nat) : Except Cause (Quad Pixel) := do
  let p1 ← pixelOf q.e1 den
  let p2 ← pixelOf q.e2 den
  let p3 ← pixelOf q.e3 den
  let p4 ← pixelOf q.e4 den
  return ⟨p1, p2, p3, p4⟩

/-- The register pattern of a pixel: `zext_64(R ++ G ++ B)` (R34). -/
def pixelWord (p : Pixel) : Word := (p.red ++ p.green ++ p.blue).setWidth 64

/-- The `codeword` view: bits 63:32 zero (R35). -/
def codewordOf (r : Word) : Except Cause (BitVec 32) :=
  if r.extractLsb' 32 32 == 0 then .ok (r.extractLsb' 0 32) else .error .opr

/-- The register pattern of a codeword (R35). -/
def codewordWord (w : BitVec 32) : Word := w.setWidth 64

/-- The `index` view: at most 255 (R32, R167). -/
def indexOf (r : Word) : Except Cause (BitVec 8) := if u64 r ≤ 255 then .ok (r.extractLsb' 0 8) else .error .opr

end Sys2Proof.Machine
end

