-- ==== Sys2Proof/Machine/BitPacker.lean ====
section
/-! DEFINITION. The BitPacker (40_bitpacker.md): the field functions R113 to R116 on mathematical integers, and the six commands R118 to R123. -/

namespace Sys2Proof.Machine

/-- `get_unsigned(word, w, l)` (R113). -/
def getUnsigned (word : Word) (w l : Nat) : Nat := u64 word / 2 ^ l % 2 ^ w

/-- `get_signed(word, w, l)` (R114). -/
def getSigned (word : Word) (w l : Nat) : Int :=
  let u := getUnsigned word w l
  if 2 ^ (w - 1) ≤ u then (u : Int) - (2 : Int) ^ w else (u : Int)

/-- `M` of R115: ones at bits `l+w-1 .. l`. -/
def fieldMask (w l : Nat) : Word := BitVec.ofNat 64 ((2 ^ w - 1) * 2 ^ l)

/-- The word with the field's bits replaced by those of `n` (R115, R116). -/
def putField (word : Word) (w l n : Nat) : Word := (word &&& ~~~fieldMask w l) ||| BitVec.ofNat 64 (n * 2 ^ l)

/-- `set_unsigned(word, w, l, v)` (R115). -/
def setUnsigned (word : Word) (w l v : Nat) : Word := putField word w l v

/-- `set_signed(word, w, l, v)` (R116). -/
def setSigned (word : Word) (w l : Nat) (v : Int) : Word := putField word w l (v % (2 : Int) ^ w).toNat

/-- `FITSU rd, rs1, width` (R118). -/
def execFitsu (rd rs1 : Reg) (width : BitVec 7) (s : State) : Result :=
  .next (s.writeReg rd (truthWord (fitsUnsigned (u64 (s.readReg rs1)) width.toNat)))

/-- `FITSS rd, rs1, width` (R119). -/
def execFitss (rd rs1 : Reg) (width : BitVec 7) (s : State) : Result :=
  .next (s.writeReg rd (truthWord (fitsSigned (s64 (s.readReg rs1)) width.toNat)))

/-- `GETU rd, rs1, width, lsb` (R120). -/
def execGetu (rd rs1 : Reg) (width lsb : BitVec 7) (s : State) : Result :=
  complete (.getu rd rs1 width lsb) s do
    require (validField width.toNat lsb.toNat) .bfr
    return s.writeReg rd (to64 (getUnsigned (s.readReg rs1) width.toNat lsb.toNat))

/-- `GETS rd, rs1, width, lsb` (R121). -/
def execGets (rd rs1 : Reg) (width lsb : BitVec 7) (s : State) : Result :=
  complete (.gets rd rs1 width lsb) s do
    require (validField width.toNat lsb.toNat) .bfr
    return s.writeReg rd (to64 (getSigned (s.readReg rs1) width.toNat lsb.toNat))

/-- `SETU rd, rs1, width, lsb` (R122): `rd` is the word read and the register written. -/
def execSetu (rd rs1 : Reg) (width lsb : BitVec 7) (s : State) : Result :=
  complete (.setu rd rs1 width lsb) s do
    require (validField width.toNat lsb.toNat) .bfr
    let v := u64 (s.readReg rs1)
    require (fitsUnsigned v width.toNat) .ovf
    return s.writeReg rd (setUnsigned (s.readReg rd) width.toNat lsb.toNat v)

/-- `SETS rd, rs1, width, lsb` (R123). -/
def execSets (rd rs1 : Reg) (width lsb : BitVec 7) (s : State) : Result :=
  complete (.sets rd rs1 width lsb) s do
    require (validField width.toNat lsb.toNat) .bfr
    let v := s64 (s.readReg rs1)
    require (fitsSigned v width.toNat) .ovf
    return s.writeReg rd (setSigned (s.readReg rd) width.toNat lsb.toNat v)

end Sys2Proof.Machine
end

