-- ==== Sys2Proof/Machine/BlockTransform.lean ====
section
/-! DEFINITION. The BlockTransform (42_blocktransform.md): the two functions R140, R141 and the commands R142, R143. -/

namespace Sys2Proof.Machine

/-- `block_forward(y1, y2, y3, y4)` (R140), the sums left to right as written. -/
def blockForward (q : Quad Word) : Coeffs where
  a := fdiv (fadd (fadd (fadd q.e1 q.e2) q.e3) q.e4) fc_4
  b := fdiv (fsub (fsub (fadd q.e4 q.e3) q.e2) q.e1) fc_4
  c := fdiv (fsub (fadd (fsub q.e4 q.e3) q.e2) q.e1) fc_4
  d := fdiv (fadd (fsub (fsub q.e4 q.e3) q.e2) q.e1) fc_4

/-- `block_inverse(a, b, c, d)` (R141); not clamped. -/
def blockInverse (k : Coeffs) : Quad Word where
  e1 := fadd (fsub (fsub k.a k.b) k.c) k.d
  e2 := fsub (fadd (fsub k.a k.b) k.c) k.d
  e3 := fsub (fsub (fadd k.a k.b) k.c) k.d
  e4 := fadd (fadd (fadd k.a k.b) k.c) k.d

/-- `BTF rd, rs1` (R142). -/
def execBtf (rd rs1 : Reg) (s : State) : Result :=
  complete (.btf rd rs1) s do
    requireGroup rd 4
    requireGroup rs1 4
    let q ← floatQuad (s.readQuad rs1)
    let k := blockForward q
    let r ← floatQuad ⟨k.a, k.b, k.c, k.d⟩
    return s.writeGroup rd r.toList

/-- `BTI rd, rs1` (R143). -/
def execBti (rd rs1 : Reg) (s : State) : Result :=
  complete (.bti rd rs1) s do
    requireGroup rd 4
    requireGroup rs1 4
    let q ← floatQuad (s.readQuad rs1)
    let r ← floatQuad (blockInverse ⟨q.e1, q.e2, q.e3, q.e4⟩)
    return s.writeGroup rd r.toList

end Sys2Proof.Machine
end

