-- ==== Sys2Proof/Machine/ColorTransform.lean ====
section
/-! DEFINITION. The ColorTransform (41_colortransform.md): the two maps R131, R133, R134 and the commands R132, R135. -/

namespace Sys2Proof.Machine

/-- A channel divided by the denominator (R131). -/
def normalize (ch : BitVec 8) (den : Nat) : Word := fdiv (i2f ch.toNat) (i2f den)

/-- The linear map of R131 on normalised channels, each product rounded before it is added (R16). -/
def chromaOfRgb (c : RgbF) : Ypp where
  y := fadd (fadd (fmul fc_0_299 c.r) (fmul fc_0_587 c.g)) (fmul fc_0_114 c.b)
  pb := fadd (fsub (fmul fc_neg_0_168736 c.r) (fmul fc_0_331264 c.g)) (fmul fc_0_5 c.b)
  pr := fsub (fsub (fmul fc_0_5 c.r) (fmul fc_0_418688 c.g)) (fmul fc_0_081312 c.b)

/-- `rgb_to_chroma((R, G, B), den)` (R131). -/
def rgbToChroma (p : Pixel) (den : Nat) : Ypp :=
  chromaOfRgb ⟨normalize p.red den, normalize p.green den, normalize p.blue den⟩

/-- `chroma_to_rgb_linear(y, pb, pr)` (R133). -/
def chromaToRgbLinear (t : Ypp) : RgbF where
  r := fadd t.y (fmul fc_1_402 t.pr)
  g := fsub (fsub t.y (fmul fc_0_344136 t.pb)) (fmul fc_0_714136 t.pr)
  b := fadd t.y (fmul fc_1_772 t.pb)

/-- `channel_of(v, den)` (R134): multiply, round, clamp. -/
def channelOf (v : Word) (den : Nat) : Int :=
  let d := i2f den
  f2i (fclamp (fround (fmul v d)) fc_0 d)

/-- The linear map with its NaN check, then the three channels (R135, R177). -/
def chromaToRgb (t : Ypp) (den : Nat) : Except Cause Pixel :=
  let c := chromaToRgbLinear t
  if isNaN c.r || isNaN c.g || isNaN c.b then .error .num
  else .ok ⟨BitVec.ofInt 8 (channelOf c.r den), BitVec.ofInt 8 (channelOf c.g den), BitVec.ofInt 8 (channelOf c.b den)⟩

/-- `RGB2YPP rd, rs1` (R132). -/
def execRgb2ypp (rd rs1 : Reg) (s : State) : Result :=
  complete (.rgb2ypp rd rs1) s do
    requireGroup rd 3
    let p ← pixelOf (s.readReg rs1) s.den
    let t := rgbToChroma p s.den
    return s.writeGroup rd [t.y, t.pb, t.pr]

/-- `YPP2RGB rd, rs1` (R135). -/
def execYpp2rgb (rd rs1 : Reg) (s : State) : Result :=
  complete (.ypp2rgb rd rs1) s do
    requireGroup rs1 3
    let t ← floatTriple (s.readTriple rs1)
    let p ← chromaToRgb t s.den
    return s.writeReg rd (pixelWord p)

end Sys2Proof.Machine
end

