-- ==== Sys2Proof/Machine/Quantizer.lean ====
section
/-! DEFINITION. The Quantizer (43_quantizer.md): the functions R151 to R159 and the commands R161 to R167. -/

namespace Sys2Proof.Machine

/-- `mean4(p1, p2, p3, p4)` (R151), the sum left to right. -/
def mean4 (q : Quad Word) : Word := fdiv (fadd (fadd (fadd q.e1 q.e2) q.e3) q.e4) fc_4

/-- `quant_a(a)` (R152): scale by 512, round, no clamp; `OVF` when the result is not an unsigned 64-bit integer. -/
def quantA (a : Word) : Except Cause Nat :=
  let t := fround (fmul a fc_512)
  if isInf t then .error .ovf
  else
    let n := f2i t
    if n < 0 ∨ 2 ^ 64 - 1 < n then .error .ovf else .ok n.toNat

/-- `quant_bcd(v)` (R153): clamp to [-0.3, 0.3], scale, round, clamp to [-15, 15]. -/
def quantBcd (v : Word) : Int :=
  let w := fclamp v fc_neg_0_3 fc_0_3
  let t := fround (fmul (fdiv w fc_0_3) fc_15)
  f2i (fclamp t fc_neg_15 fc_15)

/-- `dequant_bcd(q)` (R154). -/
def dequantBcd (q : Int) : Word := fdiv (fmul (i2f q) fc_0_3) fc_15

/-- `dequant_a(q)` (R159). -/
def dequantA (q : Nat) : Word := fdiv (i2f q) fc_512

/-- `AVG4 rd, rs1` (R161). -/
def execAvg4 (rd rs1 : Reg) (s : State) : Result :=
  complete (.avg4 rd rs1) s do
    requireGroup rs1 4
    let q ← floatQuad (s.readQuad rs1)
    let m ← floatView (mean4 q)
    return s.writeReg rd m

/-- `QA rd, rs1` (R162). -/
def execQa (rd rs1 : Reg) (s : State) : Result :=
  complete (.qa rd rs1) s do
    let a ← floatView (s.readReg rs1)
    let n ← quantA a
    return s.writeReg rd (to64 n)

/-- `QBCD rd, rs1` (R163). -/
def execQbcd (rd rs1 : Reg) (s : State) : Result :=
  complete (.qbcd rd rs1) s do
    let v ← floatView (s.readReg rs1)
    return s.writeReg rd (to64 (quantBcd v))

/-- `QCH rd, rs1` (R164). -/
def execQch (rd rs1 : Reg) (s : State) : Result :=
  complete (.qch rd rs1) s do
    let v ← floatView (s.readReg rs1)
    return s.writeReg rd ((chromaIndexOf v).setWidth 64)

/-- `DQA rd, rs1` (R165). -/
def execDqa (rd rs1 : Reg) (s : State) : Result := .next (s.writeReg rd (dequantA (u64 (s.readReg rs1))))

/-- `DQBCD rd, rs1` (R166). -/
def execDqbcd (rd rs1 : Reg) (s : State) : Result := .next (s.writeReg rd (dequantBcd (s64 (s.readReg rs1))))

/-- `DQCH rd, rs1` (R167). -/
def execDqch (rd rs1 : Reg) (s : State) : Result :=
  complete (.dqch rd rs1) s do
    let i ← indexOf (s.readReg rs1)
    return s.writeReg rd (chromaOfIndex i)

end Sys2Proof.Machine
end

