-- ==== Sys2Proof/Machine/Codec.lean ====
section
/-!
DEFINITION. The per-block Codec (44_codec.md): the codeword R170 to R172, the two block pipelines R175 and R177, and the commands R173, R174, R176,
R178 to R180. The pipelines take the table's functions as arguments (R8, R156), so that they can be run on a table; the commands
give them the two parameters of Config.
-/

namespace Sys2Proof.Machine

/-- The six fits-checks of R171. -/
def fitsCodeword (q : QVals) : Bool :=
  fitsUnsigned q.qa 9 && fitsSigned q.qb 5 && fitsSigned q.qc 5 && fitsSigned q.qd 5 && fitsUnsigned q.qpb 4 && fitsUnsigned q.qpr 4

/-- The six sets of R171 on a word that starts at zero, by the layout of R170. -/
def packFields (q : QVals) : Word :=
  let w : Word := 0
  let w := setUnsigned w 9 23 q.qa
  let w := setSigned w 5 18 q.qb
  let w := setSigned w 5 13 q.qc
  let w := setSigned w 5 8 q.qd
  let w := setUnsigned w 4 4 q.qpb
  setUnsigned w 4 0 q.qpr

/-- `pack_cw` (R171). All six checks raise the one cause. -/
def packCw (q : QVals) : Except Cause (BitVec 32) :=
  if fitsCodeword q then .ok ((packFields q).extractLsb' 0 32) else .error .ovf

/-- `unpack_cw(w)` (R172). -/
def unpackCw (w : BitVec 32) : QVals :=
  let v := w.setWidth 64
  ⟨getUnsigned v 9 23, getSigned v 5 18, getSigned v 5 13, getSigned v 5 8, getUnsigned v 4 4, getUnsigned v 4 0⟩

/-- The first half of `compress_block` (R175): the six quantised values of four pixels. -/
def quantizeBlock (indexOf : Word → BitVec 8) (q : Quad Pixel) (den : Nat) : Except Cause QVals := do
  let t := q.map (rgbToChroma · den)
  let k := blockForward (t.map Ypp.y)
  let mpb := mean4 (t.map Ypp.pb)
  let mpr := mean4 (t.map Ypp.pr)
  let qa ← quantA k.a
  return ⟨qa, quantBcd k.b, quantBcd k.c, quantBcd k.d, (indexOf mpb).toNat, (indexOf mpr).toNat⟩

/-- `compress_block(p1, p2, p3, p4, den)` (R175). -/
def compressBlock (indexOf : Word → BitVec 8) (q : Quad Pixel) (den : Nat) : Except Cause (BitVec 32) := do
  let v ← quantizeBlock indexOf q den
  packCw v

/-- The dequantised lumas of `decompress_block` (R177). -/
def lumasOf (v : QVals) : Quad Word :=
  blockInverse ⟨dequantA v.qa, dequantBcd v.qb, dequantBcd v.qc, dequantBcd v.qd⟩

/-- `decompress_block(w, den)` (R177): the four lumas share one chroma pair. -/
def decompressBlock (ofIndex : BitVec 8 → Word) (w : BitVec 32) (den : Nat) : Except Cause (Quad Pixel) := do
  let v := unpackCw w
  let pb := ofIndex (BitVec.ofNat 8 v.qpb)
  let pr := ofIndex (BitVec.ofNat 8 v.qpr)
  let y := lumasOf v
  let p1 ← chromaToRgb ⟨y.e1, pb, pr⟩ den
  let p2 ← chromaToRgb ⟨y.e2, pb, pr⟩ den
  let p3 ← chromaToRgb ⟨y.e3, pb, pr⟩ den
  let p4 ← chromaToRgb ⟨y.e4, pb, pr⟩ den
  return ⟨p1, p2, p3, p4⟩

/-- `PACKCW rd, rs1` (R173). -/
def execPackcw (rd rs1 : Reg) (s : State) : Result :=
  complete (.packcw rd rs1) s do
    requireGroup rs1 6
    let w ← packCw (s.readHex rs1)
    return s.writeReg rd (codewordWord w)

/-- The six registers `UNPKCW` writes, the signed values sign-extended (R174). -/
def hexWords (v : QVals) : List Word := [to64 v.qa, to64 v.qb, to64 v.qc, to64 v.qd, to64 v.qpb, to64 v.qpr]

/-- `UNPKCW rd, rs1` (R174). -/
def execUnpkcw (rd rs1 : Reg) (s : State) : Result :=
  complete (.unpkcw rd rs1) s do
    requireGroup rd 6
    let w ← codewordOf (s.readReg rs1)
    return s.writeGroup rd (hexWords (unpackCw w))

/-- `CBLK rd, rs1` (R176): all four pixels are checked before anything else. -/
def execCblk (rd rs1 : Reg) (s : State) : Result :=
  complete (.cblk rd rs1) s do
    requireGroup rs1 4
    let q ← pixelQuad (s.readQuad rs1) s.den
    let w ← compressBlock chromaIndexOf q s.den
    return s.writeReg rd (codewordWord w)

/-- `DBLK rd, rs1` (R178). -/
def execDblk (rd rs1 : Reg) (s : State) : Result :=
  complete (.dblk rd rs1) s do
    requireGroup rd 4
    let w ← codewordOf (s.readReg rs1)
    let q ← decompressBlock chromaOfIndex w s.den
    return s.writeGroup rd (q.map pixelWord).toList

/-- `EMIT rs1` (R179). -/
def execEmit (rs1 : Reg) (s : State) : Result :=
  complete (.emit rs1) s do
    let w ← codewordOf (s.readReg rs1)
    return s.appendSout (codewordBytes w)

/-- `TAKE rd` (R180): `DIM` when fewer than four bytes are present, which then stay. -/
def execTake (rd : Reg) (s : State) : Result :=
  complete (.take rd) s
    (match s.takeSin with
      | some (w, t) => .ok (t.writeReg rd (codewordWord w))
      | none => .error .dim)

end Sys2Proof.Machine
end

