-- ==== Sys2Proof/Machine/System.lean ====
section
/-! DEFINITION. The system and data-movement commands (45_system.md R200 to R206). -/

namespace Sys2Proof.Machine

/-- `NOP` (R200): changes no state. -/
def execNop (s : State) : Result := .next s

/-- `CLRF` (R201). -/
def execClrf (s : State) : Result := .next s.clearFault

/-- `LI rd, imm16` (R202): sign-extended (R87). -/
def execLi (rd : Reg) (imm : BitVec 16) (s : State) : Result := .next (s.writeReg rd (imm.signExtend 64))

/-- `x[rd][47:0] ++ imm16` (R203). -/
def shiftIn (old : Word) (imm : BitVec 16) : Word := old.extractLsb' 0 48 ++ imm

/-- `LIH rd, imm16` (R203). -/
def execLih (rd : Reg) (imm : BitVec 16) (s : State) : Result := .next (s.writeReg rd (shiftIn (s.readReg rd) imm))

/-- `MV rd, rs1` (R204): the pattern, under no view. -/
def execMv (rd rs1 : Reg) (s : State) : Result := .next (s.writeReg rd (s.readReg rs1))

/-- `RDC rd, csr` (R205). -/
def execRdc (rd : Reg) (csr : BitVec 16) (s : State) : Result :=
  complete (.rdc rd csr) s do
    require (decide (csr.toNat ≤ 3)) .ill
    return s.writeReg rd (s.readCsr csr)

/-- `WRC csr, rs1` (R206). -/
def execWrc (csr : BitVec 16) (rs1 : Reg) (s : State) : Result :=
  complete (.wrc csr rs1) s do
    require (csr == 0) .ill
    let v := s.readReg rs1
    require (decide (1 ≤ u64 v) && decide (u64 v ≤ 255)) .opr
    return s.writeDenom (v.extractLsb' 0 8)

end Sys2Proof.Machine
end

