-- ==== Sys2Proof/Machine/Dispatch.lean ====
section
/-!
DEFINITION. One arm per command: what executing it does to a block that is not FAULTED. The FAULTED state, in which no command but `CLRF` is
executed (R233), is decided before decoding, in Machine/Port.lean.
-/

namespace Sys2Proof.Machine

def exec (i : Instr) (s : State) : Host.Outcome State Fault Refusal :=
  match i with
  -- system and data movement
  | .nop => Sys2Proof.Machine.execNop s
  | .clrf => Sys2Proof.Machine.execClrf s
  | .li rd imm => Sys2Proof.Machine.execLi rd imm s
  | .lih rd imm => Sys2Proof.Machine.execLih rd imm s
  | .mv rd rs1 => Sys2Proof.Machine.execMv rd rs1 s
  | .rdc rd csr => Sys2Proof.Machine.execRdc rd csr s
  | .wrc csr rs1 => Sys2Proof.Machine.execWrc csr rs1 s
  -- BitPacker
  | .fitsu rd rs1 width => Sys2Proof.Machine.execFitsu rd rs1 width s
  | .fitss rd rs1 width => Sys2Proof.Machine.execFitss rd rs1 width s
  | .getu rd rs1 width lsb => Sys2Proof.Machine.execGetu rd rs1 width lsb s
  | .gets rd rs1 width lsb => Sys2Proof.Machine.execGets rd rs1 width lsb s
  | .setu rd rs1 width lsb => Sys2Proof.Machine.execSetu rd rs1 width lsb s
  | .sets rd rs1 width lsb => Sys2Proof.Machine.execSets rd rs1 width lsb s
  -- ColorTransform
  | .rgb2ypp rd rs1 => Sys2Proof.Machine.execRgb2ypp rd rs1 s
  | .ypp2rgb rd rs1 => Sys2Proof.Machine.execYpp2rgb rd rs1 s
  -- BlockTransform
  | .btf rd rs1 => Sys2Proof.Machine.execBtf rd rs1 s
  | .bti rd rs1 => Sys2Proof.Machine.execBti rd rs1 s
  -- Quantizer
  | .avg4 rd rs1 => Sys2Proof.Machine.execAvg4 rd rs1 s
  | .qa rd rs1 => Sys2Proof.Machine.execQa rd rs1 s
  | .qbcd rd rs1 => Sys2Proof.Machine.execQbcd rd rs1 s
  | .qch rd rs1 => Sys2Proof.Machine.execQch rd rs1 s
  | .dqa rd rs1 => Sys2Proof.Machine.execDqa rd rs1 s
  | .dqbcd rd rs1 => Sys2Proof.Machine.execDqbcd rd rs1 s
  | .dqch rd rs1 => Sys2Proof.Machine.execDqch rd rs1 s
  -- Codec
  | .packcw rd rs1 => Sys2Proof.Machine.execPackcw rd rs1 s
  | .unpkcw rd rs1 => Sys2Proof.Machine.execUnpkcw rd rs1 s
  | .cblk rd rs1 => Sys2Proof.Machine.execCblk rd rs1 s
  | .dblk rd rs1 => Sys2Proof.Machine.execDblk rd rs1 s
  | .emit rs1 => Sys2Proof.Machine.execEmit rs1 s
  | .take rd => Sys2Proof.Machine.execTake rd s

end Sys2Proof.Machine
end

