-- ==== Sys2Proof/Machine/Port.lean ====
section
/-!
DEFINITION. The host's moves (20_memory.md R68): a command word executed completely, or discarded by a FAULTED block (60_exceptions.md R233); bytes
pushed into `SIN`; the observation port (10_state.md R47); reset (70_reset_and_hazards.md R260).
-/

namespace Sys2Proof.Machine

/-- `HostCmd(c)`. FAULTED: only the word of `CLRF` is executed, every other is consumed undecoded (R233). Running: decode (R91), a word that is
not one of the thirty commands takes the fault entry with `ILL` (R92, R222), any other is executed. -/
def runCommand (c : CmdWord) (s : State) : Result :=
  if s.status = 1 then (if c = clrfWord then exec .clrf s else .next s)
  else
    match decode c with
    | .error _ => .next (s.faultEntry .ill c)
    | .ok i => exec i s

/-- `HostReset` (R260): every part of the block at its reset value, the host's later moves still to come (log 1). -/
def hostReset (s : State) : State := { State.reset with port := s.port }

/-- One host move, applied completely (R68, R266). -/
def applyMove (m : HostMove) (s : State) : Result :=
  match m with
  | .cmd c => runCommand c s
  | .push bs => .next (s.appendSin bs)
  | .observe => .next s
  | .reset => .next (hostReset s)

/-- What the observation port shows (R47). -/
structure Observation where
  x : Vector Word 16
  denom : BitVec 8
  status : BitVec 1
  cause : BitVec 4
  fcmd : CmdWord
  sout : List Byte
  faultLine : Bool
  deriving DecidableEq, Repr

/-- What `HostObserve` gives the host (R47, R68); it works in FAULTED as well. -/
def State.observe (s : State) : Observation := ⟨s.x, s.denom, s.status, s.cause, s.fcmd, s.sout, s.faultLine⟩

end Sys2Proof.Machine
end

