-- ==== Sys2Proof/Machine/Step.lean ====
section
/-!
DEFINITION. One step: the host's oldest move, applied completely (70_reset_and_hazards.md R266, R267). A block with no move waiting simply waits, and
waiting changes nothing (60_exceptions.md R243).
-/

namespace Sys2Proof.Machine

def step (s : State) : Host.Outcome State Fault Refusal :=
  match s.takeMove with
  | none => .next s
  | some (m, t) => applyMove m t

/-- `s` with the given command word as the host's next move, `HostCmd` of R68. The bits above `nbits` are zero. -/
def State.withFetchWord (s : State) (nbits w : Nat) : State := s.offerCmd (tableWord nbits w)

end Sys2Proof.Machine
end

