-- ==== Sys2Proof/Machine/Assembler.lean ====
section
/-!
DEFINITION. The assembler text of a command (30_encoding.md R95) and the pseudo-commands (R96). Neither is part of the machine: a command has no
text in it, and a pseudo-command has no encoding of its own.
-/

namespace Sys2Proof.Machine

/-- The mnemonic of R90. -/
def mnemonicOf : Instr → String
  | .nop => "NOP"
  | .clrf => "CLRF"
  | .li _ _ => "LI"
  | .lih _ _ => "LIH"
  | .mv _ _ => "MV"
  | .rdc _ _ => "RDC"
  | .wrc _ _ => "WRC"
  | .fitsu _ _ _ => "FITSU"
  | .fitss _ _ _ => "FITSS"
  | .getu _ _ _ _ => "GETU"
  | .gets _ _ _ _ => "GETS"
  | .setu _ _ _ _ => "SETU"
  | .sets _ _ _ _ => "SETS"
  | .rgb2ypp _ _ => "RGB2YPP"
  | .ypp2rgb _ _ => "YPP2RGB"
  | .btf _ _ => "BTF"
  | .bti _ _ => "BTI"
  | .avg4 _ _ => "AVG4"
  | .qa _ _ => "QA"
  | .qbcd _ _ => "QBCD"
  | .qch _ _ => "QCH"
  | .dqa _ _ => "DQA"
  | .dqbcd _ _ => "DQBCD"
  | .dqch _ _ => "DQCH"
  | .packcw _ _ => "PACKCW"
  | .unpkcw _ _ => "UNPKCW"
  | .cblk _ _ => "CBLK"
  | .dblk _ _ => "DBLK"
  | .emit _ => "EMIT"
  | .take _ => "TAKE"

/-- `x0` to `x15`. -/
def regText (r : Reg) : String := "x" ++ toString r.val

/-- A CSR by name where it has one, else by number. -/
def csrText (n : BitVec 16) : String :=
  match n.toNat with
  | 0 => "DENOM"
  | 1 => "STATUS"
  | 2 => "CAUSE"
  | 3 => "FCMD"
  | k => toString k

/-- The operands in the order of the R90 row, immediates in decimal (`LI` signed). -/
def operandTexts : Instr → List String
  | .nop | .clrf => []
  | .li rd imm => [regText rd, toString imm.toInt]
  | .lih rd imm => [regText rd, toString imm.toNat]
  | .rdc rd csr => [regText rd, csrText csr]
  | .wrc csr rs1 => [csrText csr, regText rs1]
  | .fitsu rd rs1 w | .fitss rd rs1 w => [regText rd, regText rs1, toString w.toNat]
  | .getu rd rs1 w l | .gets rd rs1 w l | .setu rd rs1 w l | .sets rd rs1 w l =>
    [regText rd, regText rs1, toString w.toNat, toString l.toNat]
  | .mv rd rs1 | .rgb2ypp rd rs1 | .ypp2rgb rd rs1 | .btf rd rs1 | .bti rd rs1 | .avg4 rd rs1 | .qa rd rs1 | .qbcd rd rs1
  | .qch rd rs1 | .dqa rd rs1 | .dqbcd rd rs1 | .dqch rd rs1 | .packcw rd rs1 | .unpkcw rd rs1 | .cblk rd rs1 | .dblk rd rs1 =>
    [regText rd, regText rs1]
  | .emit rs1 => [regText rs1]
  | .take rd => [regText rd]

/-- One line of a listing (R95). -/
def asmText (i : Instr) : String :=
  match operandTexts i with
  | [] => mnemonicOf i
  | ts => mnemonicOf i ++ " " ++ String.intercalate ", " ts

/-- The pseudo-commands of R96. `li32` is for values below 2^31; `lfd` names the decimal literal `±num/den`, whose float is
`fcOf` (log 16 for a negative zero and an overflow). -/
inductive Pseudo where
  | li64 (rd : Reg) (v : Word)
  | li32 (rd : Reg) (v : BitVec 32)
  | lpix (rd : Reg) (p : Pixel)
  | clr (rd : Reg)
  | lfd (rd : Reg) (neg : Bool) (num den : Nat)
  deriving DecidableEq, Repr

/-- The expansion of `LI64` (R96). -/
def loadWord (rd : Reg) (v : Word) : List Instr :=
  [.li rd (v.extractLsb' 48 16), .lih rd (v.extractLsb' 32 16), .lih rd (v.extractLsb' 16 16), .lih rd (v.extractLsb' 0 16)]

/-- The expansion of each pseudo-command (R96). -/
def Pseudo.expand : Pseudo → List Instr
  | .li64 rd v => loadWord rd v
  | .li32 rd v => [.li rd (v.extractLsb' 16 16), .lih rd (v.extractLsb' 0 16)]
  | .lpix rd p => [.li rd (p.red.setWidth 16), .lih rd (p.green ++ p.blue)]
  | .clr rd => [.li rd 0]
  | .lfd rd neg num den => loadWord rd (fcOf neg num den)

/-- The commands of a list executed one after the other, as the block executes commands the host sends (R36, R70). -/
def execAll : List Instr → State → Result
  | [], s => .next s
  | i :: is, s =>
    match exec i s with
    | .next t => execAll is t
    | .fault r => .fault r
    | .refused r => .refused r

end Sys2Proof.Machine
end

