-- ==== Sys2Proof/Machine/HostFrame.lean ====
section
/-!
DEFINITION. What the host does around the block so that the source's whole-image `compress` and `decompress` result (44_codec.md R184 to R188). These
are duties of the host, not of the block: the moves it makes, in groups; how it makes them, looking at the fault line after each group; and
what it hands to its caller. No step of the machine uses them. The registers the host picks, the places where it looks and what it does with
a frame that a fault stopped are this model's choice (log 12).
-/

namespace Sys2Proof.Machine

/-- An image buffer: a row-major sequence of pixels (R22, R185). -/
structure Image where
  width : Nat
  height : Nat
  pixels : List Pixel
  deriving DecidableEq, Repr

/-- The host's dimension check: the buffer length is `width * height` (R184). -/
def Image.lengthOk (m : Image) : Bool := m.pixels.length == m.width * m.height

/-- Pixel `(row, col)` is element `row * width + col` (R185). -/
def Image.pixelAt (m : Image) (row col : Nat) : Option Pixel := m.pixels[row * m.width + col]?

/-- `trim_to_even` (R186): an odd last column and an odd last row are dropped. -/
def Image.trim (m : Image) : Image where
  width := m.width - m.width % 2
  height := m.height - m.height % 2
  pixels := (List.range (m.height - m.height % 2)).flatMap fun row =>
    (m.pixels.drop (row * m.width)).take (m.width - m.width % 2)

/-- The number of pixel blocks, which is the number of codewords of the stream (R185, R188). -/
def blockCount (width height : Nat) : Nat := (width / 2) * (height / 2)

/-- The four `(row, col)` positions of block `k`, as `p1, p2, p3, p4` (R185). -/
def blockPositions (width k : Nat) : Quad (Nat × Nat) :=
  let r := k / (width / 2)
  let c := k % (width / 2)
  ⟨(2 * r, 2 * c), (2 * r, 2 * c + 1), (2 * r + 1, 2 * c), (2 * r + 1, 2 * c + 1)⟩

/-- The pixels of block `k` (R185). -/
def Image.block (m : Image) (k : Nat) : Option (Quad Pixel) :=
  match (blockPositions m.width k).map fun p => m.pixelAt p.1 p.2 with
  | ⟨some p1, some p2, some p3, some p4⟩ => some ⟨p1, p2, p3, p4⟩
  | _ => none

/-- Commands as host moves. -/
def cmdsOf (is : List Instr) : List HostMove := is.map fun i => .cmd (encode i)

/-- Writes `DENOM` with `WRC` (R184). -/
def denomCmds (den : BitVec 8) : List Instr := [.li 1 (den.setWidth 16), .wrc 0 1]

/-- One pixel block: its four pixels into a quad, `CBLK`, `EMIT` (R184). -/
def blockCmds (q : Quad Pixel) : List Instr :=
  (Pseudo.lpix 4 q.e1).expand ++ (Pseudo.lpix 5 q.e2).expand ++ (Pseudo.lpix 6 q.e3).expand ++ (Pseudo.lpix 7 q.e4).expand ++
    [.cblk 1 4, .emit 1]

/-- The host's moves that compress an image (R184), in groups: `DENOM`, then one group for each block in block raster order. None when the buffer
length is wrong: the source's dimension error. -/
def compressMoves (m : Image) (den : BitVec 8) : Option (List (List HostMove)) :=
  if m.lengthOk then
    some (cmdsOf (denomCmds den) :: (List.range (blockCount m.trim.width m.trim.height)).filterMap fun k =>
      (m.trim.block k).map fun q => cmdsOf (blockCmds q))
  else none

/-- The count check (R188): the stream holds four bytes for each pixel block. -/
def countOk (bytes : List Byte) (width height : Nat) : Bool := bytes.length == 4 * blockCount width height

/-- The host's moves that decompress a stream (R187), in groups: `DENOM`, the bytes, then `TAKE` and `DBLK` for each block. None when the count
check fails, before any command is issued. -/
def decompressMoves (bytes : List Byte) (width height : Nat) (den : BitVec 8) : Option (List (List HostMove)) :=
  if countOk bytes width height then
    some (cmdsOf (denomCmds den) :: [.push bytes] :: List.replicate (blockCount width height) (cmdsOf [.take 1, .dblk 4 1]))
  else none

/-- The quad of pixels an observation shows in `x[4..7]`. -/
def observedQuad (o : Observation) : Quad Pixel :=
  ⟨pixelFields o.x[4], pixelFields o.x[5], pixelFields o.x[6], pixelFields o.x[7]⟩

/-- The block's pixel at row parity `i` and column parity `j` (R185). -/
def pickPixel (q : Quad Pixel) (i j : Nat) : Pixel :=
  if i = 0 then (if j = 0 then q.e1 else q.e2) else (if j = 0 then q.e3 else q.e4)

/-- The quads of all blocks copied to their four positions (R187), for an even width and height (R67). -/
def assemble (quads : List (Quad Pixel)) (width height : Nat) : Image where
  width := width
  height := height
  pixels := (List.range height).flatMap fun row => (List.range width).filterMap fun col =>
    (quads[row / 2 * (width / 2) + col / 2]?).map fun q => pickPixel q (row % 2) (col % 2)

/-! ### A frame: the host makes its moves and watches the fault line -/

/-- Goes on from a next state. -/
def onNext {α β : Type} (r : Host.Outcome α Fault Refusal) (f : α → Host.Outcome β Fault Refusal) : Host.Outcome β Fault Refusal :=
  match r with
  | .next a => f a
  | .fault e => .fault e
  | .refused e => .refused e

/-- A list of host moves applied in order (R266). -/
def sendMoves : List HostMove → State → Result
  | [], s => .next s
  | m :: ms, s => onNext (applyMove m s) (sendMoves ms)

/-- The host makes its moves group by group and observes after each. "A fault stops the frame" (R184): when the fault line is high no further
group is sent. Answers the block's state at the end and what each observation showed. -/
def sendFrame : List (List HostMove) → State → Host.Outcome (State × List Observation) Fault Refusal
  | [], s => .next (s, [])
  | g :: gs, s => onNext (sendMoves (g ++ [.observe]) s) fun t =>
      if t.observe.faultLine then .next (t, [t.observe])
      else onNext (sendFrame gs t) fun p => .next (p.1, t.observe :: p.2)

/-- Why a whole-image call gives no result. -/
inductive FrameError where
  /-- The buffer length is not `width * height`: the source's dimension error, raised by the host (R184). -/
  | dimension
  /-- The byte count does not fit the header pair (R188). -/
  | count
  /-- The host saw the fault line, with this `CAUSE` and `FCMD` at the observation port (R47, R230). -/
  | blockFault (cause : BitVec 4) (fcmd : CmdWord)
  deriving DecidableEq, Repr

/-- The fault the host saw, if any. -/
def seenFault (os : List Observation) : Option FrameError :=
  os.findSome? fun o => if o.faultLine then some (.blockFault o.cause o.fcmd) else none

/-- What the host hands on after compressing (R184, R67): the codeword stream, and beside it, by the host's own means, the post-trim size. -/
structure CompressedImage where
  bytes : List Byte
  width : Nat
  height : Nat
  deriving DecidableEq, Repr

/-- The result of a frame: an error if the host saw the fault line, else what `ok` makes of the last state and the observations. -/
def frameResult {α : Type} (ok : State → List Observation → α) (p : State × List Observation) : State × Except FrameError α :=
  (p.1, match seenFault p.2 with
    | some e => .error e
    | none => .ok (ok p.1 p.2))

/-- The source's `compress` (R184): the host's length check, trim, moves and watch; on a fault the partial `SOUT` is discarded, which is to say
that no byte of it is handed on; else the bytes this frame added to `SOUT`, with the post-trim width and height. -/
def compressImage (m : Image) (den : BitVec 8) (s : State) : Host.Outcome (State × Except FrameError CompressedImage) Fault Refusal :=
  match compressMoves m den with
  | none => .next (s, .error .dimension)
  | some gs => onNext (sendFrame gs s) fun p =>
      .next (frameResult (fun t _ => ⟨t.observe.sout.drop s.observe.sout.length, m.trim.width, m.trim.height⟩) p)

/-- The source's `decompress` (R187): the count check, the moves and the watch; the quads that the observations after `DBLK` show, copied to
their blocks. The first two observations follow `DENOM` and the push. -/
def decompressImage (bytes : List Byte) (width height : Nat) (den : BitVec 8) (s : State) :
    Host.Outcome (State × Except FrameError Image) Fault Refusal :=
  match decompressMoves bytes width height den with
  | none => .next (s, .error .count)
  | some gs => onNext (sendFrame gs s) fun p =>
      .next (frameResult (fun _ os => assemble ((os.drop 2).map observedQuad) width height) p)

end Sys2Proof.Machine
end

