-- ==== Sys2Proof/Safety.lean ====
section
/-!
DEFINITION. What counts as a safe state and a safe run, in the terms the statements use.
-/

namespace Sys2Proof.Machine

/-- The block is running, not FAULTED (R40, R233). -/
abbrev State.running (s : State) : Prop := s.status = 0

/-- The state is legal: `DENOM` is 1..255 (R39); running, the fault registers are zero; FAULTED, `CAUSE` is 1 to 6 (R42); `SOUT` holds whole
codewords (R64, R66). -/
def State.Legal (s : State) : Prop :=
  1 ≤ s.den ∧ (s.status = 0 → s.cause = 0 ∧ s.fcmd = 0) ∧ (s.status = 1 → 1 ≤ s.cause.toNat ∧ s.cause.toNat ≤ 6) ∧
    s.sout.length % 4 = 0

/-- The causes a decoded command can raise: the last column of R221, by command. -/
def causesOf : Instr → List Cause
  | .nop | .clrf | .li _ _ | .lih _ _ | .mv _ _ | .rdc _ _ => []
  | .wrc _ _ => [.opr]
  | .fitsu _ _ _ | .fitss _ _ _ => []
  | .getu _ _ _ _ | .gets _ _ _ _ => [.bfr]
  | .setu _ _ _ _ | .sets _ _ _ _ => [.bfr, .ovf]
  | .rgb2ypp _ _ => [.opr]
  | .ypp2rgb _ _ => [.num]
  | .btf _ _ | .bti _ _ | .avg4 _ _ => [.num]
  | .qa _ _ => [.num, .ovf]
  | .qbcd _ _ | .qch _ _ => [.num]
  | .dqa _ _ | .dqbcd _ _ => []
  | .dqch _ _ => [.opr]
  | .packcw _ _ => [.ovf]
  | .unpkcw _ _ => [.opr]
  | .cblk _ _ => [.opr, .ovf]
  | .dblk _ _ => [.opr, .num]
  | .emit _ => [.opr]
  | .take _ => [.dim]

/-- The command word `c` can raise the cause `k` (R221): `ILL` if it is no command, else what the table gives its command. -/
def canRaise (c : CmdWord) (k : Cause) : Prop :=
  match decode c with
  | .error _ => k = .ill
  | .ok i => k ∈ causesOf i

/-- FAULTED, `CAUSE` and `FCMD` name a cause and a command word that can raise it (R41, R42, R235). -/
def State.FaultRecorded (s : State) : Prop := s.status = 1 → ∃ k, s.cause = k.code ∧ canRaise s.fcmd k

/-- The destination registers of a command: the group or the register its rule writes (R88). -/
def destRegs : Instr → List Reg
  | .nop | .clrf | .wrc _ _ | .emit _ => []
  | .li rd _ | .lih rd _ | .mv rd _ | .rdc rd _ | .fitsu rd _ _ | .fitss rd _ _ | .getu rd _ _ _ | .gets rd _ _ _
  | .setu rd _ _ _ | .sets rd _ _ _ | .ypp2rgb rd _ | .avg4 rd _ | .qa rd _ | .qbcd rd _ | .qch rd _ | .dqa rd _ | .dqbcd rd _
  | .dqch rd _ | .packcw rd _ | .cblk rd _ | .take rd => [rd]
  | .rgb2ypp rd _ => [rd, rd.plus 1, rd.plus 2]
  | .btf rd _ | .bti rd _ | .dblk rd _ => [rd, rd.plus 1, rd.plus 2, rd.plus 3]
  | .unpkcw rd _ => [rd, rd.plus 1, rd.plus 2, rd.plus 3, rd.plus 4, rd.plus 5]

/-- The source registers of a command: those its rule reads (R88). -/
def sourceRegs : Instr → List Reg
  | .nop | .clrf | .li _ _ | .rdc _ _ | .take _ => []
  | .lih rd _ => [rd]
  | .mv _ rs1 | .wrc _ rs1 | .fitsu _ rs1 _ | .fitss _ rs1 _ | .getu _ rs1 _ _ | .gets _ rs1 _ _ | .rgb2ypp _ rs1 | .qa _ rs1
  | .qbcd _ rs1 | .qch _ rs1 | .dqa _ rs1 | .dqbcd _ rs1 | .dqch _ rs1 | .unpkcw _ rs1 | .dblk _ rs1 | .emit rs1 => [rs1]
  | .setu rd rs1 _ _ | .sets rd rs1 _ _ => [rd, rs1]
  | .ypp2rgb _ rs1 => [rs1, rs1.plus 1, rs1.plus 2]
  | .btf _ rs1 | .bti _ rs1 | .avg4 _ rs1 | .cblk _ rs1 => [rs1, rs1.plus 1, rs1.plus 2, rs1.plus 3]
  | .packcw _ rs1 => [rs1, rs1.plus 1, rs1.plus 2, rs1.plus 3, rs1.plus 4, rs1.plus 5]

/-- `q` is one of the `k` registers from `r` on (R33). -/
def inGroup (r : Reg) (k : Nat) (q : Reg) : Prop := r.val ≤ q.val ∧ q.val < r.val + k

/-- `t` is `s` but for the general registers: DENOM, STATUS, CAUSE, FCMD, SIN, SOUT and the waiting moves are as before. -/
def sameButRegs (s t : State) : Prop := t = { s with x := t.x }

/-- What the words with opcode `op` decode to: the instruction read from the word's fields where the fields the format requires to be zero are
zero and the extra check passes (`legal`), and a rejection, which raises `ILL` (R92), where not. -/
def decodesAs (op : BitVec 8) (legal : CmdWord → Bool) (read : CmdWord → Instr) : Prop :=
  ∀ c : CmdWord, c.extractLsb' 24 8 = op → if legal c then decode c = .ok (read c) else ∃ r, decode c = .error r

/-- A float that is neither a NaN nor an infinity (R14). -/
def isFiniteF (v : Word) : Prop := expBits v ≠ 2047

/-- `r` is the exact value `num / scale` (in units of 2^-1074) rounded once to the nearest float, ties to the even fraction, with
overflow to infinity: what R15 asks of an operation, said without the way the model computes it. The bound is the least magnitude
that rounds to 2^1024: half a unit in the last place above the largest finite float. -/
def roundsTo (r : Word) (num : Int) (scale : Nat) : Prop :=
  if (2 ^ 54 - 1) * 2 ^ 2044 * scale ≤ num.natAbs then isInf r = true ∧ isNeg r = decide (num < 0)
  else isFiniteF r ∧ ∀ c : Word, isFiniteF c →
    (units r * scale - num).natAbs ≤ (units c * scale - num).natAbs ∧
      ((units r * scale - num).natAbs = (units c * scale - num).natAbs → units c ≠ units r → r.toNat % 2 = 0)

/-- A safe run of `n` moves: none of them leaves the block FAULTED. -/
def State.runsSafely : Nat → State → Prop
  | 0, s => s.running
  | n + 1, s => s.running ∧ ∃ t, step s = .next t ∧ t.runsSafely n

end Sys2Proof.Machine
end

