-- ==== Sys2Proof/Certificates/Slice0/Obligations.lean ====
section
/-!
DEFINITION. The statements for the provers: what the numbered rules of spec/ say the block does, about `exec`, `step` and the functions they use.
A statement about a chroma table value holds for every table: the two parameters of Config are free (R156).
-/

open Sys2Proof Sys2Proof.Machine

/-! ### Encoding -/

/-- Words written out in spec/95 and spec/96 decode to the commands they stand for there, and some listed illegal words do not decode. -/
def Obligations.SampleWordsDecode : Prop :=
  decode 0x01000000 = .ok .nop ∧ decode 0x04308080 = .ok (.lih 3 0x8080) ∧ decode 0x06700002 = .ok (.rdc 7 2) ∧
  decode 0x1412125C = .ok (.setu 1 2 9 23) ∧ decode 0x11210A00 = .ok (.fitss 2 1 5) ∧ decode 0x20410000 = .ok (.rgb2ypp 4 1) ∧
  decode 0x31400000 = .ok (.bti 4 0) ∧ decode 0x40FC0000 = .ok (.avg4 15 12) ∧ decode 0x51600000 = .ok (.unpkcw 6 0) ∧
  decode 0x54010000 = .ok (.emit 1) ∧ decode 0x55200000 = .ok (.take 2) ∧ decode 0x00000000 = .error .unassignedOp ∧
  decode 0x54110000 = .error .fieldNotZero ∧ decode 0x20E10000 = .error .groupPastX15 ∧ decode 0x06100004 = .error .csrUnassigned ∧
  decode 0x07010001 = .error .csrReadOnly

/-- Decoding the encoding of any well-formed instruction gives it back, for every operand. -/
def Obligations.DecodeOfEncode : Prop := ∀ i : Instr, i.WellFormed → decode (encode i) = .ok i

/-- A word that decodes is the encoding of what it decodes to, and that is well formed: the word in `FCMD` is the command word. -/
def Obligations.EncodeOfDecode : Prop := ∀ (c : CmdWord) (i : Instr), decode c = .ok i → encode i = c ∧ i.WellFormed

/-- The decoder accepts exactly the words that have the pattern of a row of the R90 table and pass its extra check; no word has two
rows; and the instruction it gives has that row's opcode. -/
def Obligations.DecodeFollowsOpcodeMap : Prop :=
  ∀ c : CmdWord,
    ((∃ i, decode c = .ok i) ↔ ∃ row ∈ opcodeRows, row.hasPattern c = true ∧ row.extra c = true) ∧
    (∀ a ∈ opcodeRows, ∀ b ∈ opcodeRows, a.hasPattern c = true → b.hasPattern c = true → a.value = b.value) ∧
    (∀ i, decode c = .ok i → ∃ row ∈ opcodeRows, row.hasPattern c = true ∧ row.extra c = true ∧ row.value.extractLsb' 24 8 = i.opcode)

/-- R92: a word that no row of the table accepts, handed to a running block, raises `ILL` with that word in `FCMD` and changes nothing else;
the all-zero and the all-one word are such words. -/
def Obligations.IllegalWordTakesIll : Prop :=
  (∀ (s : State) (c : CmdWord) (rest : List HostMove), s.status = 0 → s.port = .cmd c :: rest →
    (∀ row ∈ opcodeRows, row.hasPattern c = true → row.extra c = false) →
    step s = .next { s with port := rest, status := 1, cause := 1, fcmd := c }) ∧
  (∀ row ∈ opcodeRows, row.hasPattern 0x00000000 = false ∧ row.hasPattern 0xFFFFFFFF = false)

/-! ### The step, the host's moves, reset -/

/-- A running block handed a word that decodes executes the decoded command, in the state without the move. -/
def Obligations.StepRunsDecodedCommand : Prop :=
  ∀ (s : State) (c : CmdWord) (rest : List HostMove) (i : Instr), s.status = 0 → s.port = .cmd c :: rest → decode c = .ok i →
    step s = exec i { s with port := rest }

/-- R233: FAULTED, the word 0x02000000 executes `CLRF`, every other word is discarded whole, and the host's other moves still work. -/
def Obligations.FaultedDiscardsAllButClrf : Prop :=
  ∀ (s : State) (rest : List HostMove), s.status = 1 →
    (s.port = .cmd 0x02000000 :: rest → step s = .next { s with port := rest, status := 0, cause := 0, fcmd := 0 }) ∧
    (∀ c : CmdWord, c ≠ 0x02000000 → s.port = .cmd c :: rest → step s = .next { s with port := rest }) ∧
    (∀ bs : List Byte, s.port = .push bs :: rest → step s = .next { s with port := rest, sin := s.sin ++ bs }) ∧
    (s.port = .observe :: rest → step s = .next { s with port := rest }) ∧
    (s.port = .reset :: rest → ∃ t, step s = .next t ∧ (∀ q, t.readReg q = 0) ∧ t.denom = 255 ∧ t.status = 0 ∧ t.cause = 0 ∧
      t.fcmd = 0 ∧ t.sin = [] ∧ t.sout = [])

/-- `HostPush`, `HostObserve` and waiting, in any state (R68, R243); every move takes itself off the list and leaves the later ones, the
host's reset as well: that the moves still to come outlast a reset is the model's own convention (log 1). -/
def Obligations.HostMovesEffect : Prop :=
  ∀ (s : State) (rest : List HostMove),
    (∀ bs : List Byte, s.port = .push bs :: rest → step s = .next { s with port := rest, sin := s.sin ++ bs }) ∧
    (s.port = .observe :: rest → step s = .next { s with port := rest }) ∧
    (s.port = .reset :: rest → ∃ t, step s = .next t ∧ t.port = rest) ∧
    (s.port = [] → step s = .next s)

/-- The state after reset (R46), and `HostReset` from any state, running or FAULTED (R260). That no move waits in `State.reset` is the model's own
choice (log 1) and is not said here. -/
def Obligations.ResetStateAsStated : Prop :=
  ((∀ q, State.reset.readReg q = 0) ∧ State.reset.denom = 255 ∧ State.reset.status = 0 ∧ State.reset.cause = 0 ∧
    State.reset.fcmd = 0 ∧ State.reset.sin = [] ∧ State.reset.sout = []) ∧
  ∀ (s : State) (rest : List HostMove), s.port = .reset :: rest →
    ∃ t, step s = .next t ∧ (∀ q, t.readReg q = 0) ∧ t.denom = 255 ∧ t.status = 0 ∧ t.cause = 0 ∧ t.fcmd = 0 ∧ t.sin = [] ∧ t.sout = []

/-! ### Faults and invariants -/

/-- R232: when a command word leaves a running block FAULTED, it has written STATUS, CAUSE and FCMD and nothing else: the cause is one that R221
lets the word raise (`canRaise`), and `FCMD` is the word. -/
def Obligations.FaultEntryChangesNothingElse : Prop :=
  ∀ (s t : State) (c : CmdWord) (rest : List HostMove), s.status = 0 → s.port = .cmd c :: rest → step s = .next t → t.status = 1 →
    ∃ k, canRaise c k ∧ t = { s with port := rest, status := 1, cause := k.code, fcmd := c }

/-- An instruction whose register group passes `x[15]`, or whose CSR number is not assigned or not writable, raises `ILL` before anything else
(R33, R88, R205, R206); the decoder makes the same check first (log 7). -/
def Obligations.IllFormedTakesIll : Prop :=
  ∀ (i : Instr) (s : State), ¬ i.WellFormed → exec i s = .next { s with status := 1, cause := 1, fcmd := encode i }

/-- Every step keeps the state legal: DENOM in 1..255, the fault registers zero while running, CAUSE 1 to 6 while FAULTED, whole codewords in
SOUT. -/
def Obligations.StepKeepsLegal : Prop := ∀ s t : State, s.Legal → step s = .next t → t.Legal

/-- The reset state meets both invariants. -/
def Obligations.ResetIsLegal : Prop := State.reset.Legal ∧ State.reset.FaultRecorded

/-- Every step keeps `CAUSE` and `FCMD` in agreement: FAULTED, `CAUSE` is the code of a cause that R221 lets the word in `FCMD` raise. (That this
very fault happened is said of the step that takes it, in `FaultEntryChangesNothingElse`.) -/
def Obligations.StepKeepsFaultRecord : Prop := ∀ s t : State, s.FaultRecorded → step s = .next t → t.FaultRecorded

/-- The only ways out of FAULTED are the command `CLRF` and reset (R234), and `CLRF` restores nothing but the three fault registers. -/
def Obligations.FaultedLeftOnlyByClrfOrReset : Prop :=
  ∀ s t : State, s.status = 1 → step s = .next t → t.status = 0 →
    ∃ rest, (s.port = .cmd 0x02000000 :: rest ∧ t = { s with port := rest, status := 0, cause := 0, fcmd := 0 }) ∨
      s.port = .reset :: rest

/-- SOUT changes only by reset and by an `EMIT` that appends its codeword's four bytes; SIN only by reset, by a push at the tail and by a `TAKE`
that removes four bytes from the head (R44, R61). -/
def Obligations.StreamsChangeOnlyByTheirMoves : Prop :=
  ∀ s t : State, step s = .next t →
    (t.sout = s.sout ∨ (∃ rest, s.port = .reset :: rest) ∨
      ∃ (rs1 : Reg) (rest : List HostMove) (w : BitVec 32), s.port = .cmd (encode (.emit rs1)) :: rest ∧
        s.readReg rs1 = w.setWidth 64 ∧ t.sout = s.sout ++ codewordBytes w) ∧
    (t.sin = s.sin ∨ (∃ rest, s.port = .reset :: rest) ∨
      (∃ (bs : List Byte) (rest : List HostMove), s.port = .push bs :: rest ∧ t.sin = s.sin ++ bs) ∨
      ∃ (rd : Reg) (rest : List HostMove), s.port = .cmd (encode (.take rd)) :: rest ∧ 4 ≤ s.sin.length ∧ t.sin = s.sin.drop 4)

/-! ### Frames -/

/-- Every command leaves `x[q]` as it was for every `q` outside its destination register or group (R33, R266); a command that faults leaves all. -/
def Obligations.RegistersOutsideDestination : Prop :=
  ∀ (i : Instr) (s t : State), exec i s = .next t → ∀ q, q ∉ destRegs i ∨ (s.status = 0 ∧ t.status = 1) → t.readReg q = s.readReg q

/-- A command that is none of `CLRF`, `WRC`, `EMIT`, `TAKE` leaves DENOM, both streams and the waiting moves as they were, and STATUS, CAUSE
and FCMD too unless it faults. (None of them stores anything; which registers change is the statement before this one.) -/
def Obligations.RegisterCommandsFrame : Prop :=
  ∀ (i : Instr) (s t : State), i ≠ .clrf → (∀ csr rs1, i ≠ .wrc csr rs1) → (∀ rs1, i ≠ .emit rs1) → (∀ rd, i ≠ .take rd) →
    exec i s = .next t →
    t.denom = s.denom ∧ t.sin = s.sin ∧ t.sout = s.sout ∧ t.port = s.port ∧
      ((t.status = s.status ∧ t.cause = s.cause ∧ t.fcmd = s.fcmd) ∨
        ∃ k : Cause, t = { s with status := 1, cause := k.code, fcmd := encode i })

/-- `WRC` leaves every register and both streams; `EMIT` every register, DENOM and SIN, and the bytes SOUT held; `TAKE` every register but
its destination, DENOM and SOUT; `CLRF` all of these; none of them touches the waiting moves; and STATUS, CAUSE, FCMD change only by
`CLRF` or by the fault entry, which changes nothing else. -/
def Obligations.ControlAndStreamCommandsFrame : Prop :=
  ∀ (s t : State),
    (∀ csr rs1, exec (.wrc csr rs1) s = .next t →
      t.x = s.x ∧ t.sin = s.sin ∧ t.sout = s.sout ∧ t.port = s.port ∧
      ((t.status = s.status ∧ t.cause = s.cause ∧ t.fcmd = s.fcmd) ∨
        ∃ k : Cause, t = { s with status := 1, cause := k.code, fcmd := encode (.wrc csr rs1) })) ∧
    (∀ rs1, exec (.emit rs1) s = .next t →
      t.x = s.x ∧ t.denom = s.denom ∧ t.sin = s.sin ∧ t.port = s.port ∧ t.sout.take s.sout.length = s.sout ∧
      ((t.status = s.status ∧ t.cause = s.cause ∧ t.fcmd = s.fcmd) ∨
        ∃ k : Cause, t = { s with status := 1, cause := k.code, fcmd := encode (.emit rs1) })) ∧
    (∀ rd, exec (.take rd) s = .next t →
      (∀ q, q ≠ rd → t.readReg q = s.readReg q) ∧ t.denom = s.denom ∧ t.sout = s.sout ∧ t.port = s.port ∧
      ((t.status = s.status ∧ t.cause = s.cause ∧ t.fcmd = s.fcmd) ∨
        ∃ k : Cause, t = { s with status := 1, cause := k.code, fcmd := encode (.take rd) })) ∧
    (exec .clrf s = .next t → t.x = s.x ∧ t.denom = s.denom ∧ t.sin = s.sin ∧ t.sout = s.sout ∧ t.port = s.port)

/-- R45: two legal running blocks that agree on the command's source registers, on DENOM and on the head of SIN end the command alike: the same
STATUS, CAUSE, FCMD and DENOM, the same destination registers unless they fault, the same bytes appended to SOUT and the same
number removed from SIN, whatever their other registers and streams hold. -/
def Obligations.CommandsSeeOnlyTheirSources : Prop :=
  ∀ (i : Instr) (s u t v : State), s.Legal → u.Legal → s.status = 0 → u.status = 0 → s.denom = u.denom →
    s.sin.take 4 = u.sin.take 4 → (∀ q ∈ sourceRegs i, s.readReg q = u.readReg q) →
    exec i s = .next t → exec i u = .next v →
    t.status = v.status ∧ t.cause = v.cause ∧ t.fcmd = v.fcmd ∧ t.denom = v.denom ∧
      (t.status = 1 ∨ ∀ q ∈ destRegs i, t.readReg q = v.readReg q) ∧
      (∃ bs, t.sout = s.sout ++ bs ∧ v.sout = u.sout ++ bs) ∧ (∃ n, t.sin = s.sin.drop n ∧ v.sin = u.sin.drop n)

/-! ### System and data movement (45_system.md) -/

/-- R200. -/
def Obligations.NopChangesNothing : Prop :=
  decodesAs 0x01 (fun c => c.extractLsb' 0 24 == 0) (fun _ => .nop) ∧ ∀ s : State, exec .nop s = .next s ∧ encode .nop = 0x01000000

/-- R201. -/
def Obligations.ClrfReturnsToRunning : Prop :=
  decodesAs 0x02 (fun c => c.extractLsb' 0 24 == 0) (fun _ => .clrf) ∧
  encode .clrf = 0x02000000 ∧
  (∀ s : State, exec .clrf s = .next { s with status := 0, cause := 0, fcmd := 0 }) ∧
  (∀ s : State, s.Legal → s.status = 0 → exec .clrf s = .next s) ∧
  (∀ (s : State) (c : CmdWord) (rest : List HostMove), s.status = 1 → s.port = .cmd c :: rest → c ≠ 0x02000000 →
    step s = .next { s with port := rest })

/-- R202: the register holds the immediate as a signed number. -/
def Obligations.LiLoadsSignExtended : Prop :=
  decodesAs 0x03 (fun c => c.extractLsb' 16 4 == 0) (fun c => .li (rdField c) (c.extractLsb' 0 16)) ∧
  ∀ (rd : Reg) (imm : BitVec 16) (s : State),
    encode (.li rd imm) = (0x03 : BitVec 8) ++ BitVec.ofNat 4 rd.val ++ (0 : BitVec 4) ++ imm ∧
    ∃ t, exec (.li rd imm) s = .next t ∧ (t.readReg rd).toInt = imm.toInt ∧ (∀ q, q ≠ rd → t.readReg q = s.readReg q) ∧
      sameButRegs s t

/-- R203: the register moves up by 16 bits, the top 16 are lost, the immediate fills the low 16. -/
def Obligations.LihShiftsIn : Prop :=
  decodesAs 0x04 (fun c => c.extractLsb' 16 4 == 0) (fun c => .lih (rdField c) (c.extractLsb' 0 16)) ∧
  ∀ (rd : Reg) (imm : BitVec 16) (s : State),
    encode (.lih rd imm) = (0x04 : BitVec 8) ++ BitVec.ofNat 4 rd.val ++ (0 : BitVec 4) ++ imm ∧
    ∃ t, exec (.lih rd imm) s = .next t ∧
      (t.readReg rd).toNat = (s.readReg rd).toNat % 2 ^ 48 * 2 ^ 16 + imm.toNat ∧
      (∀ q, q ≠ rd → t.readReg q = s.readReg q) ∧ sameButRegs s t

/-- R204: the pattern is copied, a NaN as well. -/
def Obligations.MvCopiesPattern : Prop :=
  decodesAs 0x05 (fun c => c.extractLsb' 0 16 == 0) (fun c => .mv (rdField c) (rs1Field c)) ∧
  ∀ (rd rs1 : Reg) (s : State),
    encode (.mv rd rs1) = (0x05 : BitVec 8) ++ BitVec.ofNat 4 rd.val ++ BitVec.ofNat 4 rs1.val ++ (0 : BitVec 16) ∧
    ∃ t, exec (.mv rd rs1) s = .next t ∧ t.readReg rd = s.readReg rs1 ∧ (∀ q, q ≠ rd → t.readReg q = s.readReg q) ∧
      sameButRegs s t

/-- R205: the four CSRs by number, zero-extended; any other number is `ILL`. On a legal running block STATUS, CAUSE and FCMD read 0. -/
def Obligations.RdcReadsCsr : Prop :=
  decodesAs 0x06 (fun c => c.extractLsb' 16 4 == 0 && decide ((c.extractLsb' 0 16).toNat ≤ 3)) (fun c => .rdc (rdField c) (c.extractLsb' 0 16)) ∧
  ∀ (rd : Reg) (csr : BitVec 16) (s : State),
    encode (.rdc rd csr) = (0x06 : BitVec 8) ++ BitVec.ofNat 4 rd.val ++ (0 : BitVec 4) ++ csr ∧
    (csr.toNat ≤ 3 → ∃ t, exec (.rdc rd csr) s = .next t ∧
      (csr = 0 → (t.readReg rd).toNat = s.denom.toNat) ∧ (csr = 1 → (t.readReg rd).toNat = s.status.toNat) ∧
      (csr = 2 → (t.readReg rd).toNat = s.cause.toNat) ∧ (csr = 3 → (t.readReg rd).toNat = s.fcmd.toNat) ∧
      (s.Legal → s.status = 0 → csr ≠ 0 → t.readReg rd = 0) ∧
      (∀ q, q ≠ rd → t.readReg q = s.readReg q) ∧ sameButRegs s t) ∧
    (3 < csr.toNat → exec (.rdc rd csr) s = .next { s with status := 1, cause := 1, fcmd := encode (.rdc rd csr) })

/-- R206: `WRC` writes DENOM for a value of 1 to 255, raises `OPR` for 0 or a value above 255, and `ILL` for any CSR but DENOM. -/
def Obligations.WrcWritesDenom : Prop :=
  decodesAs 0x07 (fun c => c.extractLsb' 20 4 == 0 && c.extractLsb' 0 16 == 0) (fun c => .wrc (c.extractLsb' 0 16) (rs1Field c)) ∧
  ∀ (csr : BitVec 16) (rs1 : Reg) (s : State),
    encode (.wrc csr rs1) = (0x07 : BitVec 8) ++ (0 : BitVec 4) ++ BitVec.ofNat 4 rs1.val ++ csr ∧
    (csr = 0 → 1 ≤ (s.readReg rs1).toNat → (s.readReg rs1).toNat ≤ 255 →
      ∃ t, exec (.wrc csr rs1) s = .next t ∧ t.denom.toNat = (s.readReg rs1).toNat ∧ t = { s with denom := t.denom }) ∧
    (csr = 0 → (s.readReg rs1).toNat = 0 ∨ 255 < (s.readReg rs1).toNat →
      exec (.wrc csr rs1) s = .next { s with status := 1, cause := 5, fcmd := encode (.wrc csr rs1) }) ∧
    (csr ≠ 0 → exec (.wrc csr rs1) s = .next { s with status := 1, cause := 1, fcmd := encode (.wrc csr rs1) })

/-! ### BitPacker (40_bitpacker.md) -/

/-- R118, R119: `FITSU` and `FITSS` answer 1 or 0 for every width 0..127 and never fault. -/
def Obligations.FitsCommandsAnswer : Prop :=
  decodesAs 0x10 (fun c => c.extractLsb' 0 9 == 0) (fun c => .fitsu (rdField c) (rs1Field c) (c.extractLsb' 9 7)) ∧
  decodesAs 0x11 (fun c => c.extractLsb' 0 9 == 0) (fun c => .fitss (rdField c) (rs1Field c) (c.extractLsb' 9 7)) ∧
  ∀ (rd rs1 : Reg) (width : BitVec 7) (s : State),
    encode (.fitsu rd rs1 width) =
      (0x10 : BitVec 8) ++ BitVec.ofNat 4 rd.val ++ BitVec.ofNat 4 rs1.val ++ width ++ (0 : BitVec 9) ∧
    encode (.fitss rd rs1 width) =
      (0x11 : BitVec 8) ++ BitVec.ofNat 4 rd.val ++ BitVec.ofNat 4 rs1.val ++ width ++ (0 : BitVec 9) ∧
    (∃ t, exec (.fitsu rd rs1 width) s = .next t ∧
      t.readReg rd = (if 1 ≤ width.toNat ∧ (s.readReg rs1).toNat < 2 ^ width.toNat then 1 else 0) ∧
      (∀ q, q ≠ rd → t.readReg q = s.readReg q) ∧ sameButRegs s t) ∧
    (∃ t, exec (.fitss rd rs1 width) s = .next t ∧
      t.readReg rd = (if 1 ≤ width.toNat ∧ -(2 : Int) ^ (width.toNat - 1) ≤ (s.readReg rs1).toInt ∧
        (s.readReg rs1).toInt < (2 : Int) ^ (width.toNat - 1) then 1 else 0) ∧
      (∀ q, q ≠ rd → t.readReg q = s.readReg q) ∧ sameButRegs s t)

/-- R120, R121: `GETU` gives `word[l+w-1 : l]` zero-extended and `GETS` the same field sign-extended, bit by bit; both raise `BFR` when
`width = 0` or `lsb + width > 64`. -/
def Obligations.GetCommandsReadField : Prop :=
  decodesAs 0x12 (fun c => c.extractLsb' 0 2 == 0) (fun c => .getu (rdField c) (rs1Field c) (c.extractLsb' 9 7) (c.extractLsb' 2 7)) ∧
  decodesAs 0x13 (fun c => c.extractLsb' 0 2 == 0) (fun c => .gets (rdField c) (rs1Field c) (c.extractLsb' 9 7) (c.extractLsb' 2 7)) ∧
  ∀ (rd rs1 : Reg) (width lsb : BitVec 7) (s : State),
    encode (.getu rd rs1 width lsb) =
      (0x12 : BitVec 8) ++ BitVec.ofNat 4 rd.val ++ BitVec.ofNat 4 rs1.val ++ width ++ lsb ++ (0 : BitVec 2) ∧
    encode (.gets rd rs1 width lsb) =
      (0x13 : BitVec 8) ++ BitVec.ofNat 4 rd.val ++ BitVec.ofNat 4 rs1.val ++ width ++ lsb ++ (0 : BitVec 2) ∧
    (1 ≤ width.toNat → lsb.toNat + width.toNat ≤ 64 →
      (∃ t, exec (.getu rd rs1 width lsb) s = .next t ∧
        (∀ j, j < 64 → (t.readReg rd).getLsbD j = (decide (j < width.toNat) && (s.readReg rs1).getLsbD (lsb.toNat + j))) ∧
        (∀ q, q ≠ rd → t.readReg q = s.readReg q) ∧ sameButRegs s t) ∧
      (∃ t, exec (.gets rd rs1 width lsb) s = .next t ∧
        (∀ j, j < 64 → (t.readReg rd).getLsbD j =
          if j < width.toNat then (s.readReg rs1).getLsbD (lsb.toNat + j)
          else (s.readReg rs1).getLsbD (lsb.toNat + width.toNat - 1)) ∧
        (∀ q, q ≠ rd → t.readReg q = s.readReg q) ∧ sameButRegs s t)) ∧
    (width.toNat = 0 ∨ 64 < lsb.toNat + width.toNat →
      exec (.getu rd rs1 width lsb) s = .next { s with status := 1, cause := 2, fcmd := encode (.getu rd rs1 width lsb) } ∧
      exec (.gets rd rs1 width lsb) s = .next { s with status := 1, cause := 2, fcmd := encode (.gets rd rs1 width lsb) })

/-- R122, R123: `SETU` and `SETS` replace the field's bits of `x[rd]` by the low bits of the value and leave every other bit, when the field is
valid and the value fits; an invalid field raises `BFR`, whatever the value, and a value that does not fit a valid field `OVF`. -/
def Obligations.SetCommandsWriteField : Prop :=
  decodesAs 0x14 (fun c => c.extractLsb' 0 2 == 0) (fun c => .setu (rdField c) (rs1Field c) (c.extractLsb' 9 7) (c.extractLsb' 2 7)) ∧
  decodesAs 0x15 (fun c => c.extractLsb' 0 2 == 0) (fun c => .sets (rdField c) (rs1Field c) (c.extractLsb' 9 7) (c.extractLsb' 2 7)) ∧
  ∀ (rd rs1 : Reg) (width lsb : BitVec 7) (s : State),
    encode (.setu rd rs1 width lsb) =
      (0x14 : BitVec 8) ++ BitVec.ofNat 4 rd.val ++ BitVec.ofNat 4 rs1.val ++ width ++ lsb ++ (0 : BitVec 2) ∧
    encode (.sets rd rs1 width lsb) =
      (0x15 : BitVec 8) ++ BitVec.ofNat 4 rd.val ++ BitVec.ofNat 4 rs1.val ++ width ++ lsb ++ (0 : BitVec 2) ∧
    (1 ≤ width.toNat → lsb.toNat + width.toNat ≤ 64 →
      ((s.readReg rs1).toNat < 2 ^ width.toNat →
        ∃ t, exec (.setu rd rs1 width lsb) s = .next t ∧
          (∀ j, j < 64 → (t.readReg rd).getLsbD j =
            if lsb.toNat ≤ j ∧ j < lsb.toNat + width.toNat then (s.readReg rs1).getLsbD (j - lsb.toNat)
            else (s.readReg rd).getLsbD j) ∧
          (∀ q, q ≠ rd → t.readReg q = s.readReg q) ∧ sameButRegs s t) ∧
      (-(2 : Int) ^ (width.toNat - 1) ≤ (s.readReg rs1).toInt → (s.readReg rs1).toInt < (2 : Int) ^ (width.toNat - 1) →
        ∃ t, exec (.sets rd rs1 width lsb) s = .next t ∧
          (∀ j, j < 64 → (t.readReg rd).getLsbD j =
            if lsb.toNat ≤ j ∧ j < lsb.toNat + width.toNat then (s.readReg rs1).getLsbD (j - lsb.toNat)
            else (s.readReg rd).getLsbD j) ∧
          (∀ q, q ≠ rd → t.readReg q = s.readReg q) ∧ sameButRegs s t) ∧
      (2 ^ width.toNat ≤ (s.readReg rs1).toNat →
        exec (.setu rd rs1 width lsb) s = .next { s with status := 1, cause := 3, fcmd := encode (.setu rd rs1 width lsb) }) ∧
      ((s.readReg rs1).toInt < -(2 : Int) ^ (width.toNat - 1) ∨ (2 : Int) ^ (width.toNat - 1) ≤ (s.readReg rs1).toInt →
        exec (.sets rd rs1 width lsb) s = .next { s with status := 1, cause := 3, fcmd := encode (.sets rd rs1 width lsb) })) ∧
    (width.toNat = 0 ∨ 64 < lsb.toNat + width.toNat →
      exec (.setu rd rs1 width lsb) s = .next { s with status := 1, cause := 2, fcmd := encode (.setu rd rs1 width lsb) } ∧
      exec (.sets rd rs1 width lsb) s = .next { s with status := 1, cause := 2, fcmd := encode (.sets rd rs1 width lsb) })

/-- R117: a field that was set reads back as the value set, and every bit outside it is unchanged; width 64 included. -/
def Obligations.FieldRoundTrip : Prop :=
  ∀ (word : Word) (w l : Nat), 1 ≤ w → l + w ≤ 64 →
    (∀ v : Nat, v < 2 ^ w → getUnsigned (setUnsigned word w l v) w l = v ∧
      ∀ j, j < l ∨ l + w ≤ j → (setUnsigned word w l v).getLsbD j = word.getLsbD j) ∧
    (∀ v : Int, -(2 : Int) ^ (w - 1) ≤ v → v < (2 : Int) ^ (w - 1) → getSigned (setSigned word w l v) w l = v ∧
      ∀ j, j < l ∨ l + w ≤ j → (setSigned word w l v).getLsbD j = word.getLsbD j)

/-! ### ColorTransform (41_colortransform.md) -/

/-- R132 with R131: the three floats of a legal pixel, each formula as printed, into the triple; `OPR` for an illegal pixel. -/
def Obligations.Rgb2yppConverts : Prop :=
  decodesAs 0x20 (fun c => c.extractLsb' 0 16 == 0 && decide ((c.extractLsb' 20 4).toNat ≤ 13)) (fun c => .rgb2ypp (rdField c) (rs1Field c)) ∧
  ∀ (rd rs1 : Reg) (s : State), rd.val ≤ 13 →
    encode (.rgb2ypp rd rs1) = (0x20 : BitVec 8) ++ BitVec.ofNat 4 rd.val ++ BitVec.ofNat 4 rs1.val ++ (0 : BitVec 16) ∧
    let p := s.readReg rs1
    let R := p.extractLsb' 16 8
    let G := p.extractLsb' 8 8
    let B := p.extractLsb' 0 8
    let r := fdiv (i2f R.toNat) (i2f s.denom.toNat)
    let g := fdiv (i2f G.toNat) (i2f s.denom.toNat)
    let b := fdiv (i2f B.toNat) (i2f s.denom.toNat)
    (p.toNat < 2 ^ 24 → R.toNat ≤ s.denom.toNat → G.toNat ≤ s.denom.toNat → B.toNat ≤ s.denom.toNat →
      ∃ t, exec (.rgb2ypp rd rs1) s = .next t ∧
        t.readReg rd = fadd (fadd (fmul 0x3FD322D0E5604189 r) (fmul 0x3FE2C8B439581062 g)) (fmul 0x3FBD2F1A9FBE76C9 b) ∧
        t.readReg (rd.plus 1) =
          fadd (fsub (fmul 0xBFC5992428D434A0 r) (fmul 0x3FD5336DEB95E5B0 g)) (fmul 0x3FE0000000000000 b) ∧
        t.readReg (rd.plus 2) =
          fsub (fsub (fmul 0x3FE0000000000000 r) (fmul 0x3FDACBC8C0CE91C9 g)) (fmul 0x3FB4D0DCFCC5B8DC b) ∧
        (∀ q, ¬ inGroup rd 3 q → t.readReg q = s.readReg q) ∧ sameButRegs s t) ∧
    (2 ^ 24 ≤ p.toNat ∨ s.denom.toNat < R.toNat ∨ s.denom.toNat < G.toNat ∨ s.denom.toNat < B.toNat →
      exec (.rgb2ypp rd rs1) s = .next { s with status := 1, cause := 5, fcmd := encode (.rgb2ypp rd rs1) })

/-- R131: for a pixel with no channel above the denominator, no result is a NaN or an infinity, and the luma lies in [0, 1]. -/
def Obligations.ChromaOfLegalPixelInRange : Prop :=
  ∀ (p : Pixel) (den : Nat), 1 ≤ den → den ≤ 255 → p.red.toNat ≤ den → p.green.toNat ≤ den → p.blue.toNat ≤ den →
    let t := rgbToChroma p den
    isFiniteF t.y ∧ isFiniteF t.pb ∧ isFiniteF t.pr ∧ flt t.y 0 = false ∧ flt 0x3FF0000000000000 t.y = false

/-- R135 with R133 and R134: the pixel of a float triple, each formula as printed, each channel multiplied, rounded, clamped; `NUM` when an
operand or one of the three channels is a NaN. -/
def Obligations.Ypp2rgbConverts : Prop :=
  decodesAs 0x21 (fun c => c.extractLsb' 0 16 == 0 && decide ((c.extractLsb' 16 4).toNat ≤ 13)) (fun c => .ypp2rgb (rdField c) (rs1Field c)) ∧
  ∀ (rd rs1 : Reg) (s : State), rs1.val ≤ 13 →
    encode (.ypp2rgb rd rs1) = (0x21 : BitVec 8) ++ BitVec.ofNat 4 rd.val ++ BitVec.ofNat 4 rs1.val ++ (0 : BitVec 16) ∧
    let y := s.readReg rs1
    let pb := s.readReg (rs1.plus 1)
    let pr := s.readReg (rs1.plus 2)
    let r := fadd y (fmul 0x3FF66E978D4FDF3B pr)
    let g := fsub (fsub y (fmul 0x3FD6065300581494 pb)) (fmul 0x3FE6DA33BD9CAE21 pr)
    let b := fadd y (fmul 0x3FFC5A1CAC083127 pb)
    let d := i2f s.denom.toNat
    let channel := fun v => f2i (fclamp (fround (fmul v d)) 0 d)
    (isNaN y = false → isNaN pb = false → isNaN pr = false → isNaN r = false → isNaN g = false → isNaN b = false →
      ∃ t, exec (.ypp2rgb rd rs1) s = .next t ∧
        t.readReg rd =
          (BitVec.ofInt 8 (channel r) ++ BitVec.ofInt 8 (channel g) ++ BitVec.ofInt 8 (channel b)).setWidth 64 ∧
        (∀ q, q ≠ rd → t.readReg q = s.readReg q) ∧ sameButRegs s t) ∧
    (isNaN y = true ∨ isNaN pb = true ∨ isNaN pr = true ∨ isNaN r = true ∨ isNaN g = true ∨ isNaN b = true →
      exec (.ypp2rgb rd rs1) s = .next { s with status := 1, cause := 6, fcmd := encode (.ypp2rgb rd rs1) })

/-- R134, R135: each channel of a float that is not a NaN lies in 0..DENOM, so the pixel `YPP2RGB` writes is a legal pixel for DENOM. -/
def Obligations.Ypp2rgbPixelIsLegal : Prop :=
  (∀ (v : Word) (den : Nat), isNaN v = false → 1 ≤ den → den ≤ 255 → 0 ≤ channelOf v den ∧ channelOf v den ≤ den) ∧
  ∀ (rd rs1 : Reg) (s t : State), 1 ≤ s.den → s.status = 0 → exec (.ypp2rgb rd rs1) s = .next t → t.status = 0 →
    pixelLegal (t.readReg rd) t.den = true

/-! ### BlockTransform (42_blocktransform.md) -/

/-- R142, R143 with R140, R141: both transforms, each formula as printed; `NUM` when an operand or a result is a NaN. All four operands are
read before anything is written, so the quads may overlap in any way. -/
def Obligations.BlockTransformCommands : Prop :=
  decodesAs 0x30 (fun c => c.extractLsb' 0 16 == 0 && decide ((c.extractLsb' 20 4).toNat ≤ 12) && decide ((c.extractLsb' 16 4).toNat ≤ 12)) (fun c => .btf (rdField c) (rs1Field c)) ∧
  decodesAs 0x31 (fun c => c.extractLsb' 0 16 == 0 && decide ((c.extractLsb' 20 4).toNat ≤ 12) && decide ((c.extractLsb' 16 4).toNat ≤ 12)) (fun c => .bti (rdField c) (rs1Field c)) ∧
  ∀ (rd rs1 : Reg) (s : State), rd.val ≤ 12 → rs1.val ≤ 12 →
    encode (.btf rd rs1) = (0x30 : BitVec 8) ++ BitVec.ofNat 4 rd.val ++ BitVec.ofNat 4 rs1.val ++ (0 : BitVec 16) ∧
    encode (.bti rd rs1) = (0x31 : BitVec 8) ++ BitVec.ofNat 4 rd.val ++ BitVec.ofNat 4 rs1.val ++ (0 : BitVec 16) ∧
    let p1 := s.readReg rs1
    let p2 := s.readReg (rs1.plus 1)
    let p3 := s.readReg (rs1.plus 2)
    let p4 := s.readReg (rs1.plus 3)
    let a := fdiv (fadd (fadd (fadd p1 p2) p3) p4) 0x4010000000000000
    let b := fdiv (fsub (fsub (fadd p4 p3) p2) p1) 0x4010000000000000
    let c := fdiv (fsub (fadd (fsub p4 p3) p2) p1) 0x4010000000000000
    let d := fdiv (fadd (fsub (fsub p4 p3) p2) p1) 0x4010000000000000
    let y1 := fadd (fsub (fsub p1 p2) p3) p4
    let y2 := fsub (fadd (fsub p1 p2) p3) p4
    let y3 := fsub (fsub (fadd p1 p2) p3) p4
    let y4 := fadd (fadd (fadd p1 p2) p3) p4
    let operandNaN := isNaN p1 = true ∨ isNaN p2 = true ∨ isNaN p3 = true ∨ isNaN p4 = true
    (¬ operandNaN → isNaN a = false → isNaN b = false → isNaN c = false → isNaN d = false →
      ∃ t, exec (.btf rd rs1) s = .next t ∧ t.readReg rd = a ∧ t.readReg (rd.plus 1) = b ∧ t.readReg (rd.plus 2) = c ∧
        t.readReg (rd.plus 3) = d ∧ (∀ q, ¬ inGroup rd 4 q → t.readReg q = s.readReg q) ∧ sameButRegs s t) ∧
    (operandNaN ∨ isNaN a = true ∨ isNaN b = true ∨ isNaN c = true ∨ isNaN d = true →
      exec (.btf rd rs1) s = .next { s with status := 1, cause := 6, fcmd := encode (.btf rd rs1) }) ∧
    (¬ operandNaN → isNaN y1 = false → isNaN y2 = false → isNaN y3 = false → isNaN y4 = false →
      ∃ t, exec (.bti rd rs1) s = .next t ∧ t.readReg rd = y1 ∧ t.readReg (rd.plus 1) = y2 ∧ t.readReg (rd.plus 2) = y3 ∧
        t.readReg (rd.plus 3) = y4 ∧ (∀ q, ¬ inGroup rd 4 q → t.readReg q = s.readReg q) ∧ sameButRegs s t) ∧
    (operandNaN ∨ isNaN y1 = true ∨ isNaN y2 = true ∨ isNaN y3 = true ∨ isNaN y4 = true →
      exec (.bti rd rs1) s = .next { s with status := 1, cause := 6, fcmd := encode (.bti rd rs1) })

/-- R132, R227: a command that writes computed floats and does not fault writes no NaN, so the NaN an operation gives cannot be seen (log 3).
`RGB2YPP` makes no NaN check: that DENOM is not 0, as in every legal state, is what keeps its quotients from being one. -/
def Obligations.NoComputedNaNIsWritten : Prop :=
  ∀ (rd rs1 : Reg) (s t : State), s.status = 0 → t.status = 0 →
    (exec (.btf rd rs1) s = .next t ∨ exec (.bti rd rs1) s = .next t →
      isNaN (t.readReg rd) = false ∧ isNaN (t.readReg (rd.plus 1)) = false ∧ isNaN (t.readReg (rd.plus 2)) = false ∧
        isNaN (t.readReg (rd.plus 3)) = false) ∧
    (exec (.avg4 rd rs1) s = .next t ∨ exec (.dqa rd rs1) s = .next t ∨ exec (.dqbcd rd rs1) s = .next t ∨
      exec (.dqch rd rs1) s = .next t → isNaN (t.readReg rd) = false) ∧
    (1 ≤ s.den → exec (.rgb2ypp rd rs1) s = .next t →
      isNaN (t.readReg rd) = false ∧ isNaN (t.readReg (rd.plus 1)) = false ∧ isNaN (t.readReg (rd.plus 2)) = false)

/-! ### Quantizer (43_quantizer.md) -/

/-- R161 with R151. -/
def Obligations.Avg4Means : Prop :=
  decodesAs 0x40 (fun c => c.extractLsb' 0 16 == 0 && decide ((c.extractLsb' 16 4).toNat ≤ 12)) (fun c => .avg4 (rdField c) (rs1Field c)) ∧
  ∀ (rd rs1 : Reg) (s : State), rs1.val ≤ 12 →
    encode (.avg4 rd rs1) = (0x40 : BitVec 8) ++ BitVec.ofNat 4 rd.val ++ BitVec.ofNat 4 rs1.val ++ (0 : BitVec 16) ∧
    let p1 := s.readReg rs1
    let p2 := s.readReg (rs1.plus 1)
    let p3 := s.readReg (rs1.plus 2)
    let p4 := s.readReg (rs1.plus 3)
    let m := fdiv (fadd (fadd (fadd p1 p2) p3) p4) 0x4010000000000000
    let someNaN := isNaN p1 = true ∨ isNaN p2 = true ∨ isNaN p3 = true ∨ isNaN p4 = true ∨ isNaN m = true
    (¬ someNaN → ∃ t, exec (.avg4 rd rs1) s = .next t ∧ t.readReg rd = m ∧ (∀ q, q ≠ rd → t.readReg q = s.readReg q) ∧
      sameButRegs s t) ∧
    (someNaN → exec (.avg4 rd rs1) s = .next { s with status := 1, cause := 6, fcmd := encode (.avg4 rd rs1) })

/-- R162 with R152: `QA` writes the rounded product with 512 as an integer, with no clamp and no 9-bit limit; `NUM` for a NaN; `OVF` when the
rounded product is infinite, negative or at least 2^64. -/
def Obligations.QaScales : Prop :=
  decodesAs 0x41 (fun c => c.extractLsb' 0 16 == 0) (fun c => .qa (rdField c) (rs1Field c)) ∧
  ∀ (rd rs1 : Reg) (s : State),
    encode (.qa rd rs1) = (0x41 : BitVec 8) ++ BitVec.ofNat 4 rd.val ++ BitVec.ofNat 4 rs1.val ++ (0 : BitVec 16) ∧
    let a := s.readReg rs1
    let p := fround (fmul a 0x4080000000000000)
    (isNaN a = false → isInf p = false → 0 ≤ f2i p → f2i p < 2 ^ 64 →
      ∃ t, exec (.qa rd rs1) s = .next t ∧ ((t.readReg rd).toNat : Int) = f2i p ∧
        (∀ q, q ≠ rd → t.readReg q = s.readReg q) ∧ sameButRegs s t) ∧
    (isNaN a = false → isInf p = true ∨ f2i p < 0 ∨ 2 ^ 64 ≤ f2i p →
      exec (.qa rd rs1) s = .next { s with status := 1, cause := 3, fcmd := encode (.qa rd rs1) }) ∧
    (isNaN a = true → exec (.qa rd rs1) s = .next { s with status := 1, cause := 6, fcmd := encode (.qa rd rs1) })

/-- R163 with R153, and R164: `QBCD` writes the clamped and scaled integer sign-extended, `QCH` the table's index zero-extended, whatever the
table; both raise `NUM` for a NaN and nothing else. -/
def Obligations.QbcdAndQchQuantize : Prop :=
  decodesAs 0x42 (fun c => c.extractLsb' 0 16 == 0) (fun c => .qbcd (rdField c) (rs1Field c)) ∧
  decodesAs 0x43 (fun c => c.extractLsb' 0 16 == 0) (fun c => .qch (rdField c) (rs1Field c)) ∧
  ∀ (rd rs1 : Reg) (s : State),
    encode (.qbcd rd rs1) = (0x42 : BitVec 8) ++ BitVec.ofNat 4 rd.val ++ BitVec.ofNat 4 rs1.val ++ (0 : BitVec 16) ∧
    encode (.qch rd rs1) = (0x43 : BitVec 8) ++ BitVec.ofNat 4 rd.val ++ BitVec.ofNat 4 rs1.val ++ (0 : BitVec 16) ∧
    let v := s.readReg rs1
    let w := fclamp v 0xBFD3333333333333 0x3FD3333333333333
    let p := fround (fmul (fdiv w 0x3FD3333333333333) 0x402E000000000000)
    (isNaN v = false →
      (∃ t, exec (.qbcd rd rs1) s = .next t ∧ (t.readReg rd).toInt = f2i (fclamp p 0xC02E000000000000 0x402E000000000000) ∧
        (∀ q, q ≠ rd → t.readReg q = s.readReg q) ∧ sameButRegs s t) ∧
      (∃ t, exec (.qch rd rs1) s = .next t ∧ (t.readReg rd).toNat = (Config.chromaIndexOf v).toNat ∧
        (∀ q, q ≠ rd → t.readReg q = s.readReg q) ∧ sameButRegs s t)) ∧
    (isNaN v = true →
      exec (.qbcd rd rs1) s = .next { s with status := 1, cause := 6, fcmd := encode (.qbcd rd rs1) } ∧
      exec (.qch rd rs1) s = .next { s with status := 1, cause := 6, fcmd := encode (.qch rd rs1) })

/-- R165, R166, R167: `DQA` and `DQBCD` answer for every pattern; `DQCH` looks the index up and raises `OPR` above 255. The looked-up float is the
table's, whatever the table. -/
def Obligations.DequantizeCommands : Prop :=
  decodesAs 0x44 (fun c => c.extractLsb' 0 16 == 0) (fun c => .dqa (rdField c) (rs1Field c)) ∧
  decodesAs 0x45 (fun c => c.extractLsb' 0 16 == 0) (fun c => .dqbcd (rdField c) (rs1Field c)) ∧
  decodesAs 0x46 (fun c => c.extractLsb' 0 16 == 0) (fun c => .dqch (rdField c) (rs1Field c)) ∧
  ∀ (rd rs1 : Reg) (s : State),
    encode (.dqa rd rs1) = (0x44 : BitVec 8) ++ BitVec.ofNat 4 rd.val ++ BitVec.ofNat 4 rs1.val ++ (0 : BitVec 16) ∧
    encode (.dqbcd rd rs1) = (0x45 : BitVec 8) ++ BitVec.ofNat 4 rd.val ++ BitVec.ofNat 4 rs1.val ++ (0 : BitVec 16) ∧
    encode (.dqch rd rs1) = (0x46 : BitVec 8) ++ BitVec.ofNat 4 rd.val ++ BitVec.ofNat 4 rs1.val ++ (0 : BitVec 16) ∧
    (∃ t, exec (.dqa rd rs1) s = .next t ∧ t.readReg rd = fdiv (i2f (s.readReg rs1).toNat) 0x4080000000000000 ∧
      (∀ q, q ≠ rd → t.readReg q = s.readReg q) ∧ sameButRegs s t) ∧
    (∃ t, exec (.dqbcd rd rs1) s = .next t ∧
      t.readReg rd = fdiv (fmul (i2f (s.readReg rs1).toInt) 0x3FD3333333333333) 0x402E000000000000 ∧
      (∀ q, q ≠ rd → t.readReg q = s.readReg q) ∧ sameButRegs s t) ∧
    (∀ i : BitVec 8, (s.readReg rs1).toNat = i.toNat →
      ∃ t, exec (.dqch rd rs1) s = .next t ∧ t.readReg rd = tableBits (Config.chromaOfIndex i) ∧
        isNaN (t.readReg rd) = false ∧ (∀ q, q ≠ rd → t.readReg q = s.readReg q) ∧ sameButRegs s t) ∧
    (255 < (s.readReg rs1).toNat →
      exec (.dqch rd rs1) s = .next { s with status := 1, cause := 5, fcmd := encode (.dqch rd rs1) })

/-- R153: the result of `quant_bcd` lies in -15..15, is 15 from FC(0.3) on and -15 up to FC(-0.3), infinities included, and is odd. -/
def Obligations.QuantBcdSaturates : Prop :=
  ∀ v : Word, isNaN v = false →
    -15 ≤ quantBcd v ∧ quantBcd v ≤ 15 ∧ (flt v 0x3FD3333333333333 = false → quantBcd v = 15) ∧
      (flt 0xBFD3333333333333 v = false → quantBcd v = -15) ∧ quantBcd (fneg v) = -quantBcd v

/-- R152: for every float in [0, 1], `quant_a` has a result of at most 512, and it is 512, which no 9-bit field holds, exactly from 511.5/512
on. -/
def Obligations.QuantAOnUnitInterval : Prop :=
  ∀ a : Word, isNaN a = false → flt a 0 = false → flt 0x3FF0000000000000 a = false →
    ∃ n, quantA a = .ok n ∧ n ≤ 512 ∧ (n = 512 ↔ flt a 0x3FEFF80000000000 = false)

/-- R154, R159: quantising a dequantised field value gives it back, for all 512 values of `a` and all 31 of `b`, `c`, `d`. -/
def Obligations.QuantizeOfDequantize : Prop :=
  (∀ q : Nat, q ≤ 511 → quantA (dequantA q) = .ok q) ∧ (∀ q : Int, -15 ≤ q → q ≤ 15 → quantBcd (dequantBcd q) = q)

/-! ### Codec (44_codec.md) -/

/-- R173 with R171: when the six values fit, the codeword is their sum at the places of R170; when one does not, `OVF`. -/
def Obligations.PackcwBuildsCodeword : Prop :=
  decodesAs 0x50 (fun c => c.extractLsb' 0 16 == 0 && decide ((c.extractLsb' 16 4).toNat ≤ 10)) (fun c => .packcw (rdField c) (rs1Field c)) ∧
  ∀ (rd rs1 : Reg) (s : State), rs1.val ≤ 10 →
    encode (.packcw rd rs1) = (0x50 : BitVec 8) ++ BitVec.ofNat 4 rd.val ++ BitVec.ofNat 4 rs1.val ++ (0 : BitVec 16) ∧
    let qa := (s.readReg rs1).toNat
    let qb := (s.readReg (rs1.plus 1)).toInt
    let qc := (s.readReg (rs1.plus 2)).toInt
    let qd := (s.readReg (rs1.plus 3)).toInt
    let qpb := (s.readReg (rs1.plus 4)).toNat
    let qpr := (s.readReg (rs1.plus 5)).toNat
    let fits := qa ≤ 511 ∧ (-16 ≤ qb ∧ qb ≤ 15) ∧ (-16 ≤ qc ∧ qc ≤ 15) ∧ (-16 ≤ qd ∧ qd ≤ 15) ∧ qpb ≤ 15 ∧ qpr ≤ 15
    (fits → ∃ t, exec (.packcw rd rs1) s = .next t ∧
      ((t.readReg rd).toNat : Int) =
        qa * 2 ^ 23 + (qb % 32) * 2 ^ 18 + (qc % 32) * 2 ^ 13 + (qd % 32) * 2 ^ 8 + qpb * 2 ^ 4 + qpr ∧
      (∀ q, q ≠ rd → t.readReg q = s.readReg q) ∧ sameButRegs s t) ∧
    (¬ fits → exec (.packcw rd rs1) s = .next { s with status := 1, cause := 3, fcmd := encode (.packcw rd rs1) })

/-- R174 with R172: the six fields of the codeword, the signed ones sign-extended; `OPR` for a register wider than 32 bits. -/
def Obligations.UnpkcwSplitsCodeword : Prop :=
  decodesAs 0x51 (fun c => c.extractLsb' 0 16 == 0 && decide ((c.extractLsb' 20 4).toNat ≤ 10)) (fun c => .unpkcw (rdField c) (rs1Field c)) ∧
  ∀ (rd rs1 : Reg) (s : State), rd.val ≤ 10 →
    encode (.unpkcw rd rs1) = (0x51 : BitVec 8) ++ BitVec.ofNat 4 rd.val ++ BitVec.ofNat 4 rs1.val ++ (0 : BitVec 16) ∧
    let w := s.readReg rs1
    (w.toNat < 2 ^ 32 → ∃ t, exec (.unpkcw rd rs1) s = .next t ∧
      t.readReg rd = (w.extractLsb' 23 9).setWidth 64 ∧
      t.readReg (rd.plus 1) = (w.extractLsb' 18 5).signExtend 64 ∧
      t.readReg (rd.plus 2) = (w.extractLsb' 13 5).signExtend 64 ∧
      t.readReg (rd.plus 3) = (w.extractLsb' 8 5).signExtend 64 ∧
      t.readReg (rd.plus 4) = (w.extractLsb' 4 4).setWidth 64 ∧
      t.readReg (rd.plus 5) = (w.extractLsb' 0 4).setWidth 64 ∧
      (∀ q, ¬ inGroup rd 6 q → t.readReg q = s.readReg q) ∧ sameButRegs s t) ∧
    (2 ^ 32 ≤ w.toNat → exec (.unpkcw rd rs1) s = .next { s with status := 1, cause := 5, fcmd := encode (.unpkcw rd rs1) })

/-- R172: packing what was unpacked gives every 32-bit codeword back, and unpacking what was packed gives the six values back. -/
def Obligations.PackUnpackInverse : Prop :=
  (∀ w : BitVec 32, packCw (unpackCw w) = .ok w) ∧ (∀ (q : QVals) (w : BitVec 32), packCw q = .ok w → unpackCw w = q)

/-- R176 with R175: for four legal pixels `CBLK` computes the six quantised values by the unit functions and writes their codeword if they fit,
else raises `OVF`; whether the two table indices fit depends on the table. An illegal pixel raises `OPR` before anything else. -/
def Obligations.CblkCompresses : Prop :=
  decodesAs 0x52 (fun c => c.extractLsb' 0 16 == 0 && decide ((c.extractLsb' 16 4).toNat ≤ 12)) (fun c => .cblk (rdField c) (rs1Field c)) ∧
  ∀ (rd rs1 : Reg) (s : State), rs1.val ≤ 12 →
    encode (.cblk rd rs1) = (0x52 : BitVec 8) ++ BitVec.ofNat 4 rd.val ++ BitVec.ofNat 4 rs1.val ++ (0 : BitVec 16) ∧
    let den := s.denom.toNat
    let legal := pixelLegal (s.readReg rs1) den = true ∧ pixelLegal (s.readReg (rs1.plus 1)) den = true ∧
      pixelLegal (s.readReg (rs1.plus 2)) den = true ∧ pixelLegal (s.readReg (rs1.plus 3)) den = true
    let t1 := rgbToChroma (pixelFields (s.readReg rs1)) den
    let t2 := rgbToChroma (pixelFields (s.readReg (rs1.plus 1))) den
    let t3 := rgbToChroma (pixelFields (s.readReg (rs1.plus 2))) den
    let t4 := rgbToChroma (pixelFields (s.readReg (rs1.plus 3))) den
    let k := blockForward ⟨t1.y, t2.y, t3.y, t4.y⟩
    let qpb := (Config.chromaIndexOf (mean4 ⟨t1.pb, t2.pb, t3.pb, t4.pb⟩)).toNat
    let qpr := (Config.chromaIndexOf (mean4 ⟨t1.pr, t2.pr, t3.pr, t4.pr⟩)).toNat
    let ovf : State := { s with status := 1, cause := 3, fcmd := encode (.cblk rd rs1) }
    (¬ legal → exec (.cblk rd rs1) s = .next { s with status := 1, cause := 5, fcmd := encode (.cblk rd rs1) }) ∧
    (legal → ∀ qa : Nat, quantA k.a = .ok qa → qa ≤ 511 →
      ∃ t : State, exec (.cblk rd rs1) s = .next t ∧
        (qpb ≤ 15 ∧ qpr ≤ 15 →
          ((t.readReg rd).toNat : Int) = qa * 2 ^ 23 + (quantBcd k.b % 32) * 2 ^ 18 + (quantBcd k.c % 32) * 2 ^ 13 +
            (quantBcd k.d % 32) * 2 ^ 8 + qpb * 2 ^ 4 + qpr ∧
          (∀ q, q ≠ rd → t.readReg q = s.readReg q) ∧ sameButRegs s t) ∧
        (15 < qpb ∨ 15 < qpr → t = ovf)) ∧
    (legal → (∀ qa : Nat, quantA k.a = .ok qa → 511 < qa) → exec (.cblk rd rs1) s = .next ovf)

/-- With four legal pixels the only fault of `CBLK` is `OVF`, and its only reasons are a luma mean that quantises to 512 or a table index above
15 (R155, R175, R176, R224). -/
def Obligations.CblkFaultsOnlyByOverflow : Prop :=
  ∀ (rd rs1 : Reg) (s t : State), rs1.val ≤ 12 → 1 ≤ s.den → s.status = 0 →
    pixelLegal (s.readReg rs1) s.den = true → pixelLegal (s.readReg (rs1.plus 1)) s.den = true →
    pixelLegal (s.readReg (rs1.plus 2)) s.den = true → pixelLegal (s.readReg (rs1.plus 3)) s.den = true →
    exec (.cblk rd rs1) s = .next t → t.status = 1 →
    t.cause = 3 ∧
      let q := (s.readQuad rs1).map fun r => rgbToChroma (pixelFields r) s.den
      (quantA (blockForward (q.map Ypp.y)).a = .ok 512 ∨ 15 < (Config.chromaIndexOf (mean4 (q.map Ypp.pb))).toNat ∨
        15 < (Config.chromaIndexOf (mean4 (q.map Ypp.pr))).toNat)

/-- R176: four white pixels (R = G = B = DENOM) raise `OVF`, at every denominator and whatever the table. -/
def Obligations.WhiteBlockOverflows : Prop :=
  ∀ (rd rs1 : Reg) (s : State), rs1.val ≤ 12 → 1 ≤ s.den →
    (∀ j, j < 4 → s.readReg (rs1.plus j) = (s.denom ++ s.denom ++ s.denom).setWidth 64) →
    exec (.cblk rd rs1) s = .next { s with status := 1, cause := 3, fcmd := encode (.cblk rd rs1) }

/-- R178 with R177: for a register of at most 32 bits, the four pixels of the codeword by the unit functions, one chroma pair for all four, or
`NUM` when a channel is a NaN, which only the table can cause; `OPR` for a wider register. -/
def Obligations.DblkDecompresses : Prop :=
  decodesAs 0x53 (fun c => c.extractLsb' 0 16 == 0 && decide ((c.extractLsb' 20 4).toNat ≤ 12)) (fun c => .dblk (rdField c) (rs1Field c)) ∧
  ∀ (rd rs1 : Reg) (s : State), rd.val ≤ 12 →
    encode (.dblk rd rs1) = (0x53 : BitVec 8) ++ BitVec.ofNat 4 rd.val ++ BitVec.ofNat 4 rs1.val ++ (0 : BitVec 16) ∧
    let w := s.readReg rs1
    let den := s.denom.toNat
    let v := unpackCw (w.extractLsb' 0 32)
    let pb := tableBits (Config.chromaOfIndex (w.extractLsb' 4 4 |>.setWidth 8))
    let pr := tableBits (Config.chromaOfIndex (w.extractLsb' 0 4 |>.setWidth 8))
    let y := blockInverse ⟨dequantA v.qa, dequantBcd v.qb, dequantBcd v.qc, dequantBcd v.qd⟩
    let c := fun luma => chromaToRgbLinear ⟨luma, pb, pr⟩
    let noNaN := fun luma => isNaN (c luma).r = false ∧ isNaN (c luma).g = false ∧ isNaN (c luma).b = false
    let pixel : Word → Word := fun luma => (BitVec.ofInt 8 (channelOf (c luma).r den) ++ BitVec.ofInt 8 (channelOf (c luma).g den) ++
      BitVec.ofInt 8 (channelOf (c luma).b den)).setWidth 64
    let all := noNaN y.e1 ∧ noNaN y.e2 ∧ noNaN y.e3 ∧ noNaN y.e4
    (w.toNat < 2 ^ 32 → ∃ t : State, exec (.dblk rd rs1) s = .next t ∧
      (all → t.readReg rd = pixel y.e1 ∧ t.readReg (rd.plus 1) = pixel y.e2 ∧ t.readReg (rd.plus 2) = pixel y.e3 ∧
        t.readReg (rd.plus 3) = pixel y.e4 ∧ (∀ q, ¬ inGroup rd 4 q → t.readReg q = s.readReg q) ∧ sameButRegs s t) ∧
      (¬ all → t = { s with status := 1, cause := 6, fcmd := encode (.dblk rd rs1) })) ∧
    (2 ^ 32 ≤ w.toNat → exec (.dblk rd rs1) s = .next { s with status := 1, cause := 5, fcmd := encode (.dblk rd rs1) })

/-- R179 with R63: `EMIT` appends the codeword's four bytes, most significant first; `OPR` for a wider register, and then nothing. -/
def Obligations.EmitAppendsBigEndian : Prop :=
  decodesAs 0x54 (fun c => c.extractLsb' 20 4 == 0 && c.extractLsb' 0 16 == 0) (fun c => .emit (rs1Field c)) ∧
  ∀ (rs1 : Reg) (s : State),
    encode (.emit rs1) = (0x54 : BitVec 8) ++ (0 : BitVec 4) ++ BitVec.ofNat 4 rs1.val ++ (0 : BitVec 16) ∧
    let w := s.readReg rs1
    (w.toNat < 2 ^ 32 → exec (.emit rs1) s = .next { s with
      sout := s.sout ++ [w.extractLsb' 24 8, w.extractLsb' 16 8, w.extractLsb' 8 8, w.extractLsb' 0 8] }) ∧
    (2 ^ 32 ≤ w.toNat → exec (.emit rs1) s = .next { s with status := 1, cause := 5, fcmd := encode (.emit rs1) })

/-- R180 with R63: `TAKE` removes four bytes from the head of SIN, the first becoming the most significant; `DIM` with fewer than four, which then
stay. -/
def Obligations.TakeRemovesFour : Prop :=
  decodesAs 0x55 (fun c => c.extractLsb' 0 20 == 0) (fun c => .take (rdField c)) ∧
  ∀ (rd : Reg) (s : State),
    encode (.take rd) = (0x55 : BitVec 8) ++ BitVec.ofNat 4 rd.val ++ (0 : BitVec 4) ++ (0 : BitVec 16) ∧
    (∀ (b0 b1 b2 b3 : Byte) (rest : List Byte), s.sin = b0 :: b1 :: b2 :: b3 :: rest →
      ∃ t, exec (.take rd) s = .next t ∧
        (t.readReg rd).toNat = b0.toNat * 2 ^ 24 + b1.toNat * 2 ^ 16 + b2.toNat * 2 ^ 8 + b3.toNat ∧
        (∀ q, q ≠ rd → t.readReg q = s.readReg q) ∧ t = { s with x := t.x, sin := rest }) ∧
    (s.sin.length < 4 → exec (.take rd) s = .next { s with status := 1, cause := 4, fcmd := encode (.take rd) })

/-- The four bytes an `EMIT` appended, taken by a block whose SIN they begin, give the codeword back (R63, R179, R180). -/
def Obligations.EmitThenTake : Prop :=
  ∀ (rs1 rd : Reg) (s t u : State) (rest : List Byte), s.status = 0 → exec (.emit rs1) s = .next t → t.status = 0 →
    u.sin = t.sout.drop s.sout.length ++ rest →
    ∃ v, exec (.take rd) u = .next v ∧ v.readReg rd = s.readReg rs1 ∧ v.sin = rest ∧ v.status = u.status

/-! ### The floating-point primitives (00_scope.md) -/

/-- R15: add, subtract, multiply and divide give the exact result rounded once to the nearest float, ties to even, with overflow to infinity and
gradual underflow. The signs of zeros, the infinities and the NaNs are in the next statement. -/
def Obligations.RoundsToNearestEven : Prop :=
  ∀ a b : Word, isFiniteF a → isFiniteF b →
    roundsTo (fadd a b) (units a + units b) 1 ∧ roundsTo (fsub a b) (units a - units b) 1 ∧
    roundsTo (fmul a b) (units a * units b) oneU ∧
    (units b ≠ 0 → roundsTo (fdiv a b) (units a * oneU * (units b).sign) (units b).natAbs)

/-- R15: NaN operands give a NaN; `inf - inf`, `0 * inf`, `0/0` and `inf/inf` give a NaN; other infinities follow IEEE 754; the sign of a product or
quotient is the exclusive or of the signs; an exact sum of zero is `+0.0` unless both terms are negative zeros, and an exact difference of zero is
`+0.0` unless it is `-0.0` less `+0.0`. -/
def Obligations.SpecialValuesFollowIeee : Prop :=
  ∀ a b : Word,
    (isNaN a = true ∨ isNaN b = true →
      isNaN (fadd a b) = true ∧ isNaN (fsub a b) = true ∧ isNaN (fmul a b) = true ∧ isNaN (fdiv a b) = true) ∧
    (isInf a = true → isInf b = true →
      (isNeg a = isNeg b → fadd a b = a ∧ isNaN (fsub a b) = true) ∧ (isNeg a ≠ isNeg b → isNaN (fadd a b) = true ∧ fsub a b = a) ∧
      isInf (fmul a b) = true ∧ isNeg (fmul a b) = (isNeg a != isNeg b) ∧ isNaN (fdiv a b) = true) ∧
    (isInf a = true → isFiniteF b →
      fadd a b = a ∧ fadd b a = a ∧ fsub a b = a ∧ fsub b a = fneg a ∧
      isInf (fdiv a b) = true ∧ isNeg (fdiv a b) = (isNeg a != isNeg b) ∧
      isFiniteF (fdiv b a) ∧ units (fdiv b a) = 0 ∧ isNeg (fdiv b a) = (isNeg a != isNeg b) ∧
      (units b = 0 → isNaN (fmul a b) = true ∧ isNaN (fmul b a) = true) ∧
      (units b ≠ 0 → isInf (fmul a b) = true ∧ isNeg (fmul a b) = (isNeg a != isNeg b) ∧
        isInf (fmul b a) = true ∧ isNeg (fmul b a) = (isNeg a != isNeg b))) ∧
    (isFiniteF a → isFiniteF b →
      isNaN (fmul a b) = false ∧ isNeg (fmul a b) = (isNeg a != isNeg b) ∧
      (units b ≠ 0 → isNaN (fdiv a b) = false ∧ isNeg (fdiv a b) = (isNeg a != isNeg b)) ∧
      (units b = 0 → units a = 0 → isNaN (fdiv a b) = true) ∧
      (units b = 0 → units a ≠ 0 → isInf (fdiv a b) = true ∧ isNeg (fdiv a b) = (isNeg a != isNeg b)) ∧
      (units a + units b = 0 → fadd a b = if isNeg a = true ∧ isNeg b = true then 0x8000000000000000 else 0) ∧
      (units a - units b = 0 → fsub a b = if isNeg a = true ∧ isNeg b = false then 0x8000000000000000 else 0))

/-- R19: `fround` of a finite float is finite, integral, at most one half away, away from zero on a tie, and keeps the sign; it leaves the
infinities. -/
def Obligations.FroundTiesAway : Prop :=
  ∀ v : Word, (isInf v = true → fround v = v) ∧
    (isFiniteF v → isFiniteF (fround v) ∧ isNeg (fround v) = isNeg v ∧ oneU ∣ magUnits (fround v) ∧
      2 * (units (fround v) - units v).natAbs ≤ oneU ∧
      (2 * (units (fround v) - units v).natAbs = oneU → magUnits v < magUnits (fround v)))

/-- R17, R18: a decimal literal's float is the nearest, ties to even, and the nineteen literals have the patterns of R17; `i2f` is the nearest
float, and exact up to 2^53. That a literal or an integer beyond the largest float gives an infinity, which is a part of `roundsTo`, is the
model's choice and no rule's (log 16). -/
def Obligations.LiteralsAndSmallIntegersExact : Prop :=
  (∀ (neg : Bool) (num den : Nat), 0 < den →
    roundsTo (fcOf neg num den) (if neg then -(num : Int) * oneU else (num : Int) * oneU) den) ∧
  (fcOf false 299 1000 = 0x3FD322D0E5604189 ∧ fcOf false 587 1000 = 0x3FE2C8B439581062 ∧ fcOf false 114 1000 = 0x3FBD2F1A9FBE76C9 ∧
    fcOf true 168736 1000000 = 0xBFC5992428D434A0 ∧ fcOf false 331264 1000000 = 0x3FD5336DEB95E5B0 ∧ fcOf false 5 10 = 0x3FE0000000000000 ∧
    fcOf false 418688 1000000 = 0x3FDACBC8C0CE91C9 ∧ fcOf false 81312 1000000 = 0x3FB4D0DCFCC5B8DC ∧ fcOf false 1402 1000 = 0x3FF66E978D4FDF3B ∧
    fcOf false 344136 1000000 = 0x3FD6065300581494 ∧ fcOf false 714136 1000000 = 0x3FE6DA33BD9CAE21 ∧ fcOf false 1772 1000 = 0x3FFC5A1CAC083127 ∧
    fcOf false 4 1 = 0x4010000000000000 ∧ fcOf false 512 1 = 0x4080000000000000 ∧ fcOf false 3 10 = 0x3FD3333333333333 ∧
    fcOf true 3 10 = 0xBFD3333333333333 ∧ fcOf false 15 1 = 0x402E000000000000 ∧ fcOf true 15 1 = 0xC02E000000000000 ∧
    fcOf false 0 1 = 0) ∧
  (∀ n : Int, roundsTo (i2f n) (n * oneU) 1) ∧
  (∀ n : Int, n.natAbs ≤ 2 ^ 53 → isFiniteF (i2f n) ∧ units (i2f n) = n * oneU)

/-! ### Pseudo-commands and the host's frame -/

/-- R96: the effect of each pseudo-command's expansion; `LFD` loads FC of its literal, whichever float that is (log 16). -/
def Obligations.PseudoCommandsLoad : Prop :=
  ∀ (rd : Reg) (s : State),
    (∀ v : Word, execAll (Pseudo.li64 rd v).expand s = .next (s.writeReg rd v)) ∧
    (∀ v : BitVec 32, v.toNat < 2 ^ 31 → execAll (Pseudo.li32 rd v).expand s = .next (s.writeReg rd (v.setWidth 64))) ∧
    (∀ p : Pixel, execAll (Pseudo.lpix rd p).expand s = .next (s.writeReg rd ((p.red ++ p.green ++ p.blue).setWidth 64))) ∧
    execAll (Pseudo.clr rd).expand s = .next (s.writeReg rd 0) ∧
    (∀ neg num den, execAll (Pseudo.lfd rd neg num den).expand s = .next (s.writeReg rd (fcOf neg num den)))

/-- R185: in an image of even width and height every pixel position belongs to exactly one block of the raster. -/
def Obligations.BlockRasterCoversImage : Prop :=
  ∀ width height row col : Nat, width % 2 = 0 → height % 2 = 0 → row < height → col < width →
    (∃ k, k < blockCount width height ∧ (row, col) ∈ (blockPositions width k).toList) ∧
    (∀ j k, j < blockCount width height → k < blockCount width height → (row, col) ∈ (blockPositions width j).toList →
      (row, col) ∈ (blockPositions width k).toList → j = k)
end

