-- ==== Sys2Proof/Laws/BitField.lean ====
section
/-!
SUPPORT. The bit-field functions of the BitPacker, bit by bit: what a get reads, what a set writes and leaves, and the fits predicates as
inequalities.
-/

namespace Sys2Proof.Machine

theorem fitsUnsigned_iff {v w : Nat} : fitsUnsigned v w = true ↔ 1 ≤ w ∧ v < 2 ^ w := by
  simp [fitsUnsigned]

theorem fitsSigned_iff {v : Int} {w : Nat} : fitsSigned v w = true ↔ 1 ≤ w ∧ -(2 : Int) ^ (w - 1) ≤ v ∧ v < (2 : Int) ^ (w - 1) := by
  simp only [fitsSigned, Bool.and_eq_true, decide_eq_true_eq, and_assoc]
  constructor <;> rintro ⟨a, b, c⟩ <;> exact ⟨a, b, by omega⟩

theorem validField_iff {w l : Nat} : validField w l = true ↔ 1 ≤ w ∧ l + w ≤ 64 := by
  simp [validField]

theorem getUnsigned_lt (word : Word) (w l : Nat) : getUnsigned word w l < 2 ^ w := Nat.mod_lt _ (Nat.two_pow_pos w)

/-- Bit `j` of a field is bit `l + j` of the word (R113). -/
theorem getUnsigned_testBit (word : Word) (w l j : Nat) :
    (getUnsigned word w l).testBit j = (decide (j < w) && word.getLsbD (l + j)) := by
  rw [getUnsigned, Nat.testBit_mod_two_pow, Nat.testBit_div_two_pow, ← BitVec.testBit_toNat, Nat.add_comm]

/-- Ones at bits `l+w-1 .. l` (R115). -/
theorem fieldMask_getLsbD {w l j : Nat} (h : l + w ≤ 64) : (fieldMask w l).getLsbD j = decide (l ≤ j ∧ j < l + w) := by
  rw [fieldMask, BitVec.getLsbD_ofNat, Nat.testBit_mul_two_pow, Nat.testBit_two_pow_sub_one]
  by_cases h1 : l ≤ j <;> by_cases h2 : j < l + w
  · have : j < 64 := by omega
    have : j - l < w := by omega
    simp [*]
  · have : ¬ j - l < w := by omega
    simp [*]
  · simp [*]
  · simp [*]

/-- A set writes the field's bits and leaves every other bit (R115, R116). -/
theorem putField_getLsbD {word : Word} {w l n j : Nat} (h : l + w ≤ 64) (hn : n < 2 ^ w) :
    (putField word w l n).getLsbD j = if l ≤ j ∧ j < l + w then n.testBit (j - l) else word.getLsbD j := by
  rw [putField, BitVec.getLsbD_or, BitVec.getLsbD_and, BitVec.getLsbD_not, fieldMask_getLsbD h, BitVec.getLsbD_ofNat,
    Nat.testBit_mul_two_pow]
  by_cases h1 : l ≤ j <;> by_cases h2 : j < l + w
  · have : j < 64 := by omega
    simp [*]
  · have h3 : n.testBit (j - l) = false := by
      apply Nat.testBit_lt_two_pow
      exact Nat.lt_of_lt_of_le hn (Nat.pow_le_pow_right (by omega) (by omega))
    by_cases h4 : j < 64
    · simp [*]
    · have := word.getLsbD_of_ge j (by omega)
      simp [*]
  · by_cases h4 : j < 64
    · simp [*]
    · omega
  · by_cases h4 : j < 64
    · simp [*]
    · omega

/-- Reading back the field that was set (R117). -/
theorem getUnsigned_putField {word : Word} {w l n : Nat} (h : l + w ≤ 64) (hn : n < 2 ^ w) :
    getUnsigned (putField word w l n) w l = n := by
  apply Nat.eq_of_testBit_eq
  intro j
  rw [getUnsigned_testBit, putField_getLsbD h hn]
  by_cases hj : j < w
  · have h1 : l ≤ l + j ∧ l + j < l + w := by omega
    simp [hj]
  · have : n.testBit j = false := by
      apply Nat.testBit_lt_two_pow
      exact Nat.lt_of_lt_of_le hn (Nat.pow_le_pow_right (by omega) (by omega))
    simp [hj, this]

end Sys2Proof.Machine
end

