-- ==== Sys2Proof/Laws/Decode.lean ====
section
/-!
SUPPORT. The fields of a command word: reading a field of a word made from fields gives that field, and a word is made of its fields.
-/

namespace Sys2Proof

@[simp] theorem opField_wordOf (op : BitVec 8) (rd rs1 : BitVec 4) (imm : BitVec 16) : opField (wordOf op rd rs1 imm) = op := by
  apply BitVec.eq_of_getLsbD_eq
  intro i hi
  simp only [opField, wordOf, BitVec.getLsbD_extractLsb', BitVec.getLsbD_append]
  have h1 : ¬ 24 + i < 16 := by omega
  have h2 : ¬ 24 + i - 16 < 4 := by omega
  have h3 : ¬ 24 + i - 16 - 4 < 4 := by omega
  have h4 : 24 + i - 16 - 4 - 4 = i := by omega
  simp [h1, h2, h3, h4, hi]

@[simp] theorem rdBits_wordOf (op : BitVec 8) (rd rs1 : BitVec 4) (imm : BitVec 16) : rdBits (wordOf op rd rs1 imm) = rd := by
  apply BitVec.eq_of_getLsbD_eq
  intro i hi
  simp only [rdBits, wordOf, BitVec.getLsbD_extractLsb', BitVec.getLsbD_append]
  have h1 : ¬ 20 + i < 16 := by omega
  have h2 : ¬ 20 + i - 16 < 4 := by omega
  have h3 : 20 + i - 16 - 4 < 4 := by omega
  have h4 : 20 + i - 16 - 4 = i := by omega
  simp [h1, h2, h4, hi]

@[simp] theorem rs1Bits_wordOf (op : BitVec 8) (rd rs1 : BitVec 4) (imm : BitVec 16) : rs1Bits (wordOf op rd rs1 imm) = rs1 := by
  apply BitVec.eq_of_getLsbD_eq
  intro i hi
  simp only [rs1Bits, wordOf, BitVec.getLsbD_extractLsb', BitVec.getLsbD_append]
  simp [hi]

@[simp] theorem immField_wordOf (op : BitVec 8) (rd rs1 : BitVec 4) (imm : BitVec 16) : immField (wordOf op rd rs1 imm) = imm := by
  apply BitVec.eq_of_getLsbD_eq
  intro i hi
  simp only [immField, wordOf, BitVec.getLsbD_extractLsb', BitVec.getLsbD_append]
  simp [hi]

/-- The low 16 bits of a word, read as the fields of format B (R86). -/
theorem widthField_eq (c : CmdWord) : widthField c = (immField c).extractLsb' 9 7 := by
  apply BitVec.eq_of_getLsbD_eq
  intro i hi
  have : 9 + i < 16 := by omega
  simp [widthField, immField, hi]

theorem lsbField_eq (c : CmdWord) : lsbField c = (immField c).extractLsb' 2 7 := by
  apply BitVec.eq_of_getLsbD_eq
  intro i hi
  have : 2 + i < 16 := by omega
  simp [lsbField, immField, hi]

theorem lowField_eq (c : CmdWord) : lowField c = (immField c).extractLsb' 0 2 := by
  apply BitVec.eq_of_getLsbD_eq
  intro i hi
  have : i < 16 := by omega
  simp [lowField, immField, hi]

@[simp] theorem fieldImm_width (w l : BitVec 7) : (fieldImm w l).extractLsb' 9 7 = w := by
  apply BitVec.eq_of_getLsbD_eq
  intro i hi
  simp only [fieldImm, BitVec.getLsbD_extractLsb', BitVec.getLsbD_append]
  have h1 : ¬ 9 + i < 2 := by omega
  have h2 : ¬ 9 + i - 2 < 7 := by omega
  have h4 : 9 + i - 2 - 7 = i := by omega
  simp [h1, h2, h4, hi]

@[simp] theorem fieldImm_lsb (w l : BitVec 7) : (fieldImm w l).extractLsb' 2 7 = l := by
  apply BitVec.eq_of_getLsbD_eq
  intro i hi
  simp only [fieldImm, BitVec.getLsbD_extractLsb', BitVec.getLsbD_append]
  have h1 : ¬ 2 + i < 2 := by omega
  simp [h1, hi]

@[simp] theorem fieldImm_low (w l : BitVec 7) : (fieldImm w l).extractLsb' 0 2 = 0 := by
  apply BitVec.eq_of_getLsbD_eq
  intro i hi
  simp only [fieldImm, BitVec.getLsbD_extractLsb', BitVec.getLsbD_append]
  simp [hi]

@[simp] theorem regOf_regBits (r : Reg) : regOf (regBits r) = r := by
  ext; simp only [regOf, regBits, BitVec.toNat_ofNat]; omega

@[simp] theorem regBits_regOf (b : BitVec 4) : regBits (regOf b) = b := by
  simp [regBits, regOf]

/-- A word is made of its four fields. -/
theorem wordOf_fields (c : CmdWord) : wordOf (opField c) (rdBits c) (rs1Bits c) (immField c) = c := by
  apply BitVec.eq_of_getLsbD_eq
  intro i hi
  simp only [wordOf, opField, rdBits, rs1Bits, immField, BitVec.getLsbD_extractLsb', BitVec.getLsbD_append]
  by_cases h1 : i < 16
  · simp [h1]
  · by_cases h2 : i - 16 < 4
    · have : 16 + (i - 16) = i := by omega
      simp [h1, h2, this]
    · by_cases h3 : i - 16 - 4 < 4
      · have : 20 + (i - 16 - 4) = i := by omega
        simp [h1, h2, h3, this]
      · have h4 : i - 16 - 4 - 4 < 8 := by omega
        have : 24 + (i - 16 - 4 - 4) = i := by omega
        simp [h1, h2, h3, h4, this]

/-- The 16 low bits are made of the fields of format B. -/
theorem fieldImm_fields (m : BitVec 16) (h : m.extractLsb' 0 2 = 0) : fieldImm (m.extractLsb' 9 7) (m.extractLsb' 2 7) = m := by
  apply BitVec.eq_of_getLsbD_eq
  intro i hi
  simp only [fieldImm, BitVec.getLsbD_extractLsb', BitVec.getLsbD_append]
  by_cases h1 : i < 2
  · have := congrArg (fun v : BitVec 2 => v.getLsbD i) h
    simp [h1] at this
    simp [h1, this]
  · by_cases h2 : i - 2 < 7
    · have : 2 + (i - 2) = i := by omega
      simp [h1, h2, this]
    · have h4 : i - 2 - 7 < 7 := by omega
      have : 9 + (i - 2 - 7) = i := by omega
      simp [h1, h2, h4, this]

/-- A format answers exactly when its must-be-zero fields are zero. -/
theorem ifZero_eq_ok {z : Bool} {i j : Instr} : ifZero z i = .ok j ↔ z = true ∧ j = i := by
  cases z <;> simp [ifZero, eq_comm]

/-- Decoding answers exactly when the pattern does and the extra check passes. -/
theorem decode_eq_ok {c : CmdWord} {i : Instr} : decode c = .ok i ↔ decodePattern c = .ok i ∧ i.WellFormed := by
  unfold decode Instr.WellFormed
  cases decodePattern c with
  | error r => simp
  | ok j =>
    simp only [checkExtra, Except.ok.injEq]
    split
    next h => simp only [Except.ok.injEq]; exact ⟨fun e => ⟨e, e ▸ h⟩, fun e => e.1⟩
    next r h => simp only [reduceCtorEq, false_iff]; rintro ⟨rfl, h'⟩; simp [h] at h'

end Sys2Proof
end

