-- ==== Sys2Proof/Laws/State.lean ====
section
/-!
SUPPORT. One lemma per field per update of the state, each true by unfolding once, and reading a register after each update.
-/

namespace Sys2Proof.Machine

/-! ### writeReg -/

@[simp] theorem writeReg_denom (s : State) (r : Reg) (v : Word) : (s.writeReg r v).denom = s.denom := rfl
@[simp] theorem writeReg_status (s : State) (r : Reg) (v : Word) : (s.writeReg r v).status = s.status := rfl
@[simp] theorem writeReg_cause (s : State) (r : Reg) (v : Word) : (s.writeReg r v).cause = s.cause := rfl
@[simp] theorem writeReg_fcmd (s : State) (r : Reg) (v : Word) : (s.writeReg r v).fcmd = s.fcmd := rfl
@[simp] theorem writeReg_sin (s : State) (r : Reg) (v : Word) : (s.writeReg r v).sin = s.sin := rfl
@[simp] theorem writeReg_sout (s : State) (r : Reg) (v : Word) : (s.writeReg r v).sout = s.sout := rfl
@[simp] theorem writeReg_port (s : State) (r : Reg) (v : Word) : (s.writeReg r v).port = s.port := rfl

/-! ### writeDenom -/

@[simp] theorem writeDenom_x (s : State) (v : BitVec 8) : (s.writeDenom v).x = s.x := rfl
@[simp] theorem writeDenom_denom (s : State) (v : BitVec 8) : (s.writeDenom v).denom = v := rfl
@[simp] theorem writeDenom_status (s : State) (v : BitVec 8) : (s.writeDenom v).status = s.status := rfl
@[simp] theorem writeDenom_cause (s : State) (v : BitVec 8) : (s.writeDenom v).cause = s.cause := rfl
@[simp] theorem writeDenom_fcmd (s : State) (v : BitVec 8) : (s.writeDenom v).fcmd = s.fcmd := rfl
@[simp] theorem writeDenom_sin (s : State) (v : BitVec 8) : (s.writeDenom v).sin = s.sin := rfl
@[simp] theorem writeDenom_sout (s : State) (v : BitVec 8) : (s.writeDenom v).sout = s.sout := rfl
@[simp] theorem writeDenom_port (s : State) (v : BitVec 8) : (s.writeDenom v).port = s.port := rfl
@[simp] theorem readReg_writeDenom (s : State) (v : BitVec 8) (q : Reg) : (s.writeDenom v).readReg q = s.readReg q := rfl

/-! ### appendSout -/

@[simp] theorem appendSout_x (s : State) (bs : List Byte) : (s.appendSout bs).x = s.x := rfl
@[simp] theorem appendSout_denom (s : State) (bs : List Byte) : (s.appendSout bs).denom = s.denom := rfl
@[simp] theorem appendSout_status (s : State) (bs : List Byte) : (s.appendSout bs).status = s.status := rfl
@[simp] theorem appendSout_cause (s : State) (bs : List Byte) : (s.appendSout bs).cause = s.cause := rfl
@[simp] theorem appendSout_fcmd (s : State) (bs : List Byte) : (s.appendSout bs).fcmd = s.fcmd := rfl
@[simp] theorem appendSout_sin (s : State) (bs : List Byte) : (s.appendSout bs).sin = s.sin := rfl
@[simp] theorem appendSout_sout (s : State) (bs : List Byte) : (s.appendSout bs).sout = s.sout ++ bs := rfl
@[simp] theorem appendSout_port (s : State) (bs : List Byte) : (s.appendSout bs).port = s.port := rfl
@[simp] theorem readReg_appendSout (s : State) (bs : List Byte) (q : Reg) : (s.appendSout bs).readReg q = s.readReg q := rfl

/-! ### appendSin -/

@[simp] theorem appendSin_x (s : State) (bs : List Byte) : (s.appendSin bs).x = s.x := rfl
@[simp] theorem appendSin_denom (s : State) (bs : List Byte) : (s.appendSin bs).denom = s.denom := rfl
@[simp] theorem appendSin_status (s : State) (bs : List Byte) : (s.appendSin bs).status = s.status := rfl
@[simp] theorem appendSin_cause (s : State) (bs : List Byte) : (s.appendSin bs).cause = s.cause := rfl
@[simp] theorem appendSin_fcmd (s : State) (bs : List Byte) : (s.appendSin bs).fcmd = s.fcmd := rfl
@[simp] theorem appendSin_sin (s : State) (bs : List Byte) : (s.appendSin bs).sin = s.sin ++ bs := rfl
@[simp] theorem appendSin_sout (s : State) (bs : List Byte) : (s.appendSin bs).sout = s.sout := rfl
@[simp] theorem appendSin_port (s : State) (bs : List Byte) : (s.appendSin bs).port = s.port := rfl
@[simp] theorem readReg_appendSin (s : State) (bs : List Byte) (q : Reg) : (s.appendSin bs).readReg q = s.readReg q := rfl

/-! ### faultEntry -/

@[simp] theorem faultEntry_x (s : State) (k : Cause) (c : CmdWord) : (s.faultEntry k c).x = s.x := rfl
@[simp] theorem faultEntry_denom (s : State) (k : Cause) (c : CmdWord) : (s.faultEntry k c).denom = s.denom := rfl
@[simp] theorem faultEntry_status (s : State) (k : Cause) (c : CmdWord) : (s.faultEntry k c).status = 1 := rfl
@[simp] theorem faultEntry_cause (s : State) (k : Cause) (c : CmdWord) : (s.faultEntry k c).cause = k.code := rfl
@[simp] theorem faultEntry_fcmd (s : State) (k : Cause) (c : CmdWord) : (s.faultEntry k c).fcmd = c := rfl
@[simp] theorem faultEntry_sin (s : State) (k : Cause) (c : CmdWord) : (s.faultEntry k c).sin = s.sin := rfl
@[simp] theorem faultEntry_sout (s : State) (k : Cause) (c : CmdWord) : (s.faultEntry k c).sout = s.sout := rfl
@[simp] theorem faultEntry_port (s : State) (k : Cause) (c : CmdWord) : (s.faultEntry k c).port = s.port := rfl
@[simp] theorem readReg_faultEntry (s : State) (k : Cause) (c : CmdWord) (q : Reg) : (s.faultEntry k c).readReg q = s.readReg q := rfl

/-! ### clearFault -/

@[simp] theorem clearFault_x (s : State) : s.clearFault.x = s.x := rfl
@[simp] theorem clearFault_denom (s : State) : s.clearFault.denom = s.denom := rfl
@[simp] theorem clearFault_status (s : State) : s.clearFault.status = 0 := rfl
@[simp] theorem clearFault_cause (s : State) : s.clearFault.cause = 0 := rfl
@[simp] theorem clearFault_fcmd (s : State) : s.clearFault.fcmd = 0 := rfl
@[simp] theorem clearFault_sin (s : State) : s.clearFault.sin = s.sin := rfl
@[simp] theorem clearFault_sout (s : State) : s.clearFault.sout = s.sout := rfl
@[simp] theorem clearFault_port (s : State) : s.clearFault.port = s.port := rfl
@[simp] theorem readReg_clearFault (s : State) (q : Reg) : s.clearFault.readReg q = s.readReg q := rfl

/-! ### offerCmd -/

@[simp] theorem offerCmd_x (s : State) (c : CmdWord) : (s.offerCmd c).x = s.x := rfl
@[simp] theorem offerCmd_denom (s : State) (c : CmdWord) : (s.offerCmd c).denom = s.denom := rfl
@[simp] theorem offerCmd_status (s : State) (c : CmdWord) : (s.offerCmd c).status = s.status := rfl
@[simp] theorem offerCmd_cause (s : State) (c : CmdWord) : (s.offerCmd c).cause = s.cause := rfl
@[simp] theorem offerCmd_fcmd (s : State) (c : CmdWord) : (s.offerCmd c).fcmd = s.fcmd := rfl
@[simp] theorem offerCmd_sin (s : State) (c : CmdWord) : (s.offerCmd c).sin = s.sin := rfl
@[simp] theorem offerCmd_sout (s : State) (c : CmdWord) : (s.offerCmd c).sout = s.sout := rfl
@[simp] theorem offerCmd_port (s : State) (c : CmdWord) : (s.offerCmd c).port = .cmd c :: s.port := rfl
@[simp] theorem readReg_offerCmd (s : State) (c : CmdWord) (q : Reg) : (s.offerCmd c).readReg q = s.readReg q := rfl

/-! ### Reading a register after writing one -/

/-- R11: a write to `x[r]` is read back from `x[r]` and from no other register. -/
theorem readReg_writeReg (s : State) (r q : Reg) (v : Word) :
    (s.writeReg r v).readReg q = if r = q then v else s.readReg q := by
  simp only [State.readReg, State.writeReg, Vector.getElem_set, Fin.ext_iff]

@[simp] theorem readReg_writeReg_same (s : State) (r : Reg) (v : Word) : (s.writeReg r v).readReg r = v := by
  simp [readReg_writeReg]

theorem readReg_writeReg_other {r q : Reg} (h : r ≠ q) (s : State) (v : Word) :
    (s.writeReg r v).readReg q = s.readReg q := by
  simp [readReg_writeReg, h]

/-- A register write changes only the register file. -/
theorem writeReg_eq (s : State) (r : Reg) (v : Word) : s.writeReg r v = { s with x := (s.writeReg r v).x } := rfl

/-- Two states with the same registers and the same other fields are one state. -/
theorem State.ext_regs {s t : State} (hx : ∀ q, s.readReg q = t.readReg q) (h : s = { t with x := s.x }) : s = t := by
  have hx' : s.x = t.x := by
    apply Vector.ext
    intro i hi
    exact hx ⟨i, hi⟩
  rw [h, hx']

/-- Every register is zero after reset (R46). -/
@[simp] theorem readReg_reset (q : Reg) : State.reset.readReg q = 0 := by
  simp [State.readReg, State.reset]

end Sys2Proof.Machine
end

