-- ==== Sys2Proof/Laws/Ops.lean ====
section
/-!
SUPPORT. What each shared operation can do, said once: register groups, the streams, how a command ends, the operand views.
-/

namespace Sys2Proof.Machine

/-! ### Register groups -/

theorem plus_val {r : Reg} {k : Nat} (h : r.val + k < 16) : (r.plus k).val = r.val + k := by
  simp [Reg.plus, Fin.ofNat, Nat.mod_eq_of_lt h]

@[simp] theorem plus_zero (r : Reg) : r.plus 0 = r := by
  ext; simp [Reg.plus, Fin.ofNat, Nat.mod_eq_of_lt r.isLt]

/-- Inside a legal group the members are different registers. -/
theorem plus_inj {r : Reg} {j k : Nat} (hj : r.val + j < 16) (hk : r.val + k < 16) : r.plus j = r.plus k ↔ j = k := by
  rw [Fin.ext_iff, plus_val hj, plus_val hk]; omega

theorem plus_plus {r : Reg} {j k : Nat} : (r.plus j).plus k = r.plus (j + k) := by
  ext; simp [Reg.plus, Fin.ofNat]; omega

@[simp] theorem writeGroup_nil (s : State) (r : Reg) : s.writeGroup r [] = s := rfl

@[simp] theorem writeGroup_cons (s : State) (r : Reg) (v : Word) (vs : List Word) :
    s.writeGroup r (v :: vs) = (s.writeReg r v).writeGroup (r.plus 1) vs := rfl

/-- A group write changes only the register file. -/
theorem writeGroup_eq (s : State) (r : Reg) (vs : List Word) : s.writeGroup r vs = { s with x := (s.writeGroup r vs).x } := by
  induction vs generalizing s r with
  | nil => rfl
  | cons v vs ih => rw [writeGroup_cons, ih]; rfl

@[simp] theorem writeGroup_denom (s : State) (r : Reg) (vs : List Word) : (s.writeGroup r vs).denom = s.denom := by
  rw [writeGroup_eq]
@[simp] theorem writeGroup_status (s : State) (r : Reg) (vs : List Word) : (s.writeGroup r vs).status = s.status := by
  rw [writeGroup_eq]
@[simp] theorem writeGroup_cause (s : State) (r : Reg) (vs : List Word) : (s.writeGroup r vs).cause = s.cause := by
  rw [writeGroup_eq]
@[simp] theorem writeGroup_fcmd (s : State) (r : Reg) (vs : List Word) : (s.writeGroup r vs).fcmd = s.fcmd := by
  rw [writeGroup_eq]
@[simp] theorem writeGroup_sin (s : State) (r : Reg) (vs : List Word) : (s.writeGroup r vs).sin = s.sin := by
  rw [writeGroup_eq]
@[simp] theorem writeGroup_sout (s : State) (r : Reg) (vs : List Word) : (s.writeGroup r vs).sout = s.sout := by
  rw [writeGroup_eq]
@[simp] theorem writeGroup_port (s : State) (r : Reg) (vs : List Word) : (s.writeGroup r vs).port = s.port := by
  rw [writeGroup_eq]

/-- Reading after a group write (R33): the members of the group hold the written values, every other register is as before. -/
theorem readReg_writeGroup {s : State} {r : Reg} {vs : List Word} (h : r.val + vs.length ≤ 16) (q : Reg) :
    (s.writeGroup r vs).readReg q =
      if r.val ≤ q.val then (vs[q.val - r.val]?).getD (s.readReg q) else s.readReg q := by
  induction vs generalizing s r with
  | nil => simp
  | cons v vs ih =>
    rw [writeGroup_cons]
    rcases vs with _ | ⟨w, ws⟩
    · simp only [writeGroup_nil, readReg_writeReg, Fin.ext_iff]
      by_cases h1 : r.val = q.val
      · simp [h1]
      · by_cases h2 : r.val ≤ q.val
        · have : q.val - r.val ≠ 0 := by omega
          simp [h1, h2, this]
        · simp [h1, h2]
    · simp only [List.length_cons] at h
      have hp : (r.plus 1).val = r.val + 1 := plus_val (by omega)
      rw [ih (by simp only [List.length_cons]; omega), hp]
      simp only [readReg_writeReg, Fin.ext_iff]
      by_cases h1 : r.val = q.val
      · have : ¬ (r.val + 1 ≤ q.val) := by omega
        simp [h1]
      · by_cases h2 : r.val + 1 ≤ q.val
        · have h3 : r.val ≤ q.val := by omega
          have h4 : q.val - r.val = (q.val - (r.val + 1)) + 1 := by omega
          simp [h1, h2, h3, h4]
        · have h3 : ¬ r.val ≤ q.val := by omega
          simp [h1, h2, h3]

/-- The member `k` of a group just written. -/
theorem readReg_writeGroup_member {s : State} {r : Reg} {vs : List Word} (h : r.val + vs.length ≤ 16) {k : Nat}
    (hk : k < vs.length) : (s.writeGroup r vs).readReg (r.plus k) = vs[k] := by
  have hp : (r.plus k).val = r.val + k := plus_val (by omega)
  rw [readReg_writeGroup h, hp]
  simp [List.getElem?_eq_getElem hk]

/-- A register outside the group just written. -/
theorem readReg_writeGroup_outside {s : State} {r : Reg} {vs : List Word} (h : r.val + vs.length ≤ 16) {q : Reg}
    (hq : q.val < r.val ∨ r.val + vs.length ≤ q.val) : (s.writeGroup r vs).readReg q = s.readReg q := by
  rw [readReg_writeGroup h]
  rcases hq with hq | hq
  · simp [Nat.not_le.mpr hq]
  · have : vs[q.val - r.val]? = none := List.getElem?_eq_none (by omega)
    simp [this]

/-! ### How a command ends -/

@[simp] theorem complete_ok (i : Instr) (s t : State) : complete i s (.ok t) = .next t := rfl

@[simp] theorem complete_error (i : Instr) (s : State) (k : Cause) :
    complete i s (.error k) = .next (s.faultEntry k (encode i)) := rfl

/-- A command ends with its result, or with the fault entry in the state it began in (R13, R232). -/
theorem complete_cases {i : Instr} {s t : State} {r : Except Cause State} (h : complete i s r = .next t) :
    r = .ok t ∨ ∃ k, r = .error k ∧ t = s.faultEntry k (encode i) := by
  cases r with
  | ok u => simp only [complete_ok, Host.Outcome.next.injEq] at h; exact .inl (h ▸ rfl)
  | error k => simp only [complete_error, Host.Outcome.next.injEq] at h; exact .inr ⟨k, rfl, h.symm⟩

@[simp] theorem bind_ok {α β : Type} (a : α) (f : α → Except Cause β) : (Except.ok a >>= f) = f a := rfl

@[simp] theorem bind_error {α β : Type} (k : Cause) (f : α → Except Cause β) : (Except.error k >>= f) = .error k := rfl

/-- A sequence answers only if its first part does. -/
theorem bind_eq_ok {α β : Type} {x : Except Cause α} {f : α → Except Cause β} {b : β} :
    (x >>= f) = .ok b ↔ ∃ a, x = .ok a ∧ f a = .ok b := by
  cases x <;> simp

/-- A sequence raises in its first part or in the rest. -/
theorem bind_eq_error {α β : Type} {x : Except Cause α} {f : α → Except Cause β} {k : Cause} :
    (x >>= f) = .error k ↔ x = .error k ∨ ∃ a, x = .ok a ∧ f a = .error k := by
  cases x <;> simp

@[simp] theorem require_true (k : Cause) : require true k = .ok () := rfl

@[simp] theorem require_false (k : Cause) : require false k = .error k := rfl

theorem require_eq_ok {b : Bool} {k : Cause} {u : Unit} : require b k = .ok u ↔ b = true := by
  cases b <;> simp

theorem require_eq_error {b : Bool} {k k' : Cause} : require b k = .error k' ↔ b = false ∧ k' = k := by
  cases b <;> simp [eq_comm]

theorem requireGroup_fits {r : Reg} {k : Nat} (h : r.val + k ≤ 16) : requireGroup r k = .ok () := by
  simp [requireGroup, h]

theorem requireGroup_past {r : Reg} {k : Nat} (h : ¬ r.val + k ≤ 16) : requireGroup r k = .error .ill := by
  simp [requireGroup, h]

theorem requireGroup_eq_error {r : Reg} {k : Nat} {c : Cause} : requireGroup r k = .error c ↔ ¬ r.val + k ≤ 16 ∧ c = .ill := by
  simp [requireGroup, require_eq_error]

/-! ### The streams -/

/-- `MemRead(SIN, 4)` answers exactly when four bytes are present (R180). -/
theorem takeSin_eq_some {s t : State} {w : BitVec 32} :
    s.takeSin = some (w, t) ↔
      ∃ b0 b1 b2 b3 rest, s.sin = b0 :: b1 :: b2 :: b3 :: rest ∧ w = b0 ++ b1 ++ b2 ++ b3 ∧ t = { s with sin := rest } := by
  unfold State.takeSin
  rcases h : s.sin with _ | ⟨b0, _ | ⟨b1, _ | ⟨b2, _ | ⟨b3, rest⟩⟩⟩⟩ <;>
    simp [eq_comm]

theorem takeSin_eq_none {s : State} : s.takeSin = none ↔ s.sin.length < 4 := by
  unfold State.takeSin
  rcases h : s.sin with _ | ⟨b0, _ | ⟨b1, _ | ⟨b2, _ | ⟨b3, rest⟩⟩⟩⟩ <;> simp

@[simp] theorem codewordBytes_length (w : BitVec 32) : (codewordBytes w).length = 4 := rfl

/-! ### The command port -/

theorem takeMove_eq_none {s : State} : s.takeMove = none ↔ s.port = [] := by
  unfold State.takeMove
  cases h : s.port <;> simp

theorem takeMove_cons {s : State} {m : HostMove} {rest : List HostMove} (h : s.port = m :: rest) :
    s.takeMove = some (m, { s with port := rest }) := by
  simp [State.takeMove, h]

/-! ### Operand views -/

theorem floatView_ok {v : Word} (h : isNaN v = false) : floatView v = .ok v := by simp [floatView, h]

theorem floatView_nan {v : Word} (h : isNaN v = true) : floatView v = .error .num := by simp [floatView, h]

theorem floatView_eq_ok {v w : Word} : floatView v = .ok w ↔ isNaN v = false ∧ w = v := by
  cases h : isNaN v <;> simp [floatView, h, eq_comm]

theorem floatView_eq_error {v : Word} {k : Cause} : floatView v = .error k ↔ isNaN v = true ∧ k = .num := by
  cases h : isNaN v <;> simp [floatView, h, eq_comm]

/-- Four floats pass the view exactly when none is a NaN. -/
theorem floatQuad_eq_ok {q r : Quad Word} :
    floatQuad q = .ok r ↔ (isNaN q.e1 = false ∧ isNaN q.e2 = false ∧ isNaN q.e3 = false ∧ isNaN q.e4 = false) ∧ r = q := by
  rcases q with ⟨a, b, c, d⟩
  cases ha : isNaN a <;> cases hb : isNaN b <;> cases hc : isNaN c <;> cases hd : isNaN d <;>
    simp [floatQuad, floatView, ha, hb, hc, hd, eq_comm, pure, Except.pure]

theorem floatQuad_eq_error {q : Quad Word} {k : Cause} :
    floatQuad q = .error k ↔ (isNaN q.e1 = true ∨ isNaN q.e2 = true ∨ isNaN q.e3 = true ∨ isNaN q.e4 = true) ∧ k = .num := by
  rcases q with ⟨a, b, c, d⟩
  cases ha : isNaN a <;> cases hb : isNaN b <;> cases hc : isNaN c <;> cases hd : isNaN d <;>
    simp [floatQuad, floatView, ha, hb, hc, hd, eq_comm, pure, Except.pure]

theorem floatTriple_eq_ok {t u : Ypp} :
    floatTriple t = .ok u ↔ (isNaN t.y = false ∧ isNaN t.pb = false ∧ isNaN t.pr = false) ∧ u = t := by
  rcases t with ⟨a, b, c⟩
  cases ha : isNaN a <;> cases hb : isNaN b <;> cases hc : isNaN c <;>
    simp [floatTriple, floatView, ha, hb, hc, eq_comm, pure, Except.pure]

theorem floatTriple_eq_error {t : Ypp} {k : Cause} :
    floatTriple t = .error k ↔ (isNaN t.y = true ∨ isNaN t.pb = true ∨ isNaN t.pr = true) ∧ k = .num := by
  rcases t with ⟨a, b, c⟩
  cases ha : isNaN a <;> cases hb : isNaN b <;> cases hc : isNaN c <;>
    simp [floatTriple, floatView, ha, hb, hc, eq_comm, pure, Except.pure]

theorem pixelOf_legal {r : Word} {den : Nat} (h : pixelLegal r den = true) : pixelOf r den = .ok (pixelFields r) := by
  simp [pixelOf, h]

theorem pixelOf_illegal {r : Word} {den : Nat} (h : pixelLegal r den = false) : pixelOf r den = .error .opr := by
  simp [pixelOf, h]

theorem pixelOf_eq_ok {r : Word} {den : Nat} {p : Pixel} : pixelOf r den = .ok p ↔ pixelLegal r den = true ∧ p = pixelFields r := by
  cases h : pixelLegal r den <;> simp [pixelOf, h, eq_comm]

theorem pixelOf_eq_error {r : Word} {den : Nat} {k : Cause} : pixelOf r den = .error k ↔ pixelLegal r den = false ∧ k = .opr := by
  cases h : pixelLegal r den <;> simp [pixelOf, h, eq_comm]

/-- Four pixels pass the view exactly when each is legal. -/
theorem pixelQuad_eq_ok {q : Quad Word} {den : Nat} {p : Quad Pixel} :
    pixelQuad q den = .ok p ↔
      (pixelLegal q.e1 den = true ∧ pixelLegal q.e2 den = true ∧ pixelLegal q.e3 den = true ∧ pixelLegal q.e4 den = true) ∧
        p = q.map pixelFields := by
  rcases q with ⟨a, b, c, d⟩
  cases ha : pixelLegal a den <;> cases hb : pixelLegal b den <;> cases hc : pixelLegal c den <;> cases hd : pixelLegal d den <;>
    simp [pixelQuad, pixelOf, ha, hb, hc, hd, eq_comm, pure, Except.pure, Quad.map]

theorem pixelQuad_eq_error {q : Quad Word} {den : Nat} {k : Cause} :
    pixelQuad q den = .error k ↔
      (pixelLegal q.e1 den = false ∨ pixelLegal q.e2 den = false ∨ pixelLegal q.e3 den = false ∨ pixelLegal q.e4 den = false) ∧
        k = .opr := by
  rcases q with ⟨a, b, c, d⟩
  cases ha : pixelLegal a den <;> cases hb : pixelLegal b den <;> cases hc : pixelLegal c den <;> cases hd : pixelLegal d den <;>
    simp [pixelQuad, pixelOf, ha, hb, hc, hd, eq_comm, pure, Except.pure]

theorem codewordOf_eq_ok {r : Word} {w : BitVec 32} :
    codewordOf r = .ok w ↔ r.extractLsb' 32 32 = 0 ∧ w = r.extractLsb' 0 32 := by
  unfold codewordOf
  cases h : (r.extractLsb' 32 32 == 0) with
  | true => rw [beq_iff_eq] at h; simp [h, eq_comm (a := w)]
  | false => rw [beq_eq_false_iff_ne] at h; simp; exact fun h0 => absurd h0 h

theorem codewordOf_eq_error {r : Word} {k : Cause} : codewordOf r = .error k ↔ r.extractLsb' 32 32 ≠ 0 ∧ k = .opr := by
  unfold codewordOf
  cases h : (r.extractLsb' 32 32 == 0) with
  | true => rw [beq_iff_eq] at h; simp [h]
  | false => rw [beq_eq_false_iff_ne] at h; simp [eq_comm (a := k)]; exact fun _ => h

theorem indexOf_eq_ok {r : Word} {i : BitVec 8} : indexOf r = .ok i ↔ r.toNat ≤ 255 ∧ i = r.extractLsb' 0 8 := by
  by_cases h : r.toNat ≤ 255 <;> simp [indexOf, h, eq_comm]

theorem indexOf_eq_error {r : Word} {k : Cause} : indexOf r = .error k ↔ 255 < r.toNat ∧ k = .opr := by
  by_cases h : r.toNat ≤ 255
  · simp [indexOf, h]
  · simp [indexOf, h, eq_comm (a := k), Nat.not_le.mp h]

end Sys2Proof.Machine
end

