-- ==== Sys2Proof/Laws/Exec.lean ====
section
/-!
SUPPORT. What one command can do, said once (`exec_cases`): it takes the fault entry with a cause of its own, or it has its effect, and then it is
well formed and writes nothing but its destination. Before it, the causes the unit functions raise, and one lemma per command.
-/

namespace Sys2Proof.Machine

/-! ### The causes of the unit functions -/

theorem quantA_eq_error {a : Word} {k : Cause} (h : quantA a = .error k) : k = .ovf := by
  unfold quantA at h
  simp only at h
  split at h
  · exact (Except.error.inj h).symm
  · split at h
    · exact (Except.error.inj h).symm
    · cases h

theorem packCw_eq_error {q : QVals} {k : Cause} (h : packCw q = .error k) : fitsCodeword q = false ∧ k = .ovf := by
  unfold packCw at h
  split at h
  · cases h
  · rename_i hf
    exact ⟨by simpa using hf, (Except.error.inj h).symm⟩

theorem packCw_eq_ok {q : QVals} {w : BitVec 32} : packCw q = .ok w ↔ fitsCodeword q = true ∧ w = (packFields q).extractLsb' 0 32 := by
  unfold packCw
  cases fitsCodeword q <;> simp [eq_comm]

theorem compressBlock_eq_error {f : Word → BitVec 8} {q : Quad Pixel} {d : Nat} {k : Cause} (h : compressBlock f q d = .error k) :
    k = .ovf := by
  unfold compressBlock quantizeBlock at h
  simp only [bind_eq_error, bind_eq_ok] at h
  rcases h with (h | ⟨_, _, h⟩) | ⟨_, _, h⟩
  · exact quantA_eq_error h
  · cases h
  · exact (packCw_eq_error h).2

/-- The linear map raises exactly when one of its channels is a NaN (R135). -/
theorem chromaToRgb_eq_error {t : Ypp} {d : Nat} {k : Cause} (h : chromaToRgb t d = .error k) :
    (isNaN (chromaToRgbLinear t).r || isNaN (chromaToRgbLinear t).g || isNaN (chromaToRgbLinear t).b) = true ∧ k = .num := by
  unfold chromaToRgb at h
  dsimp only at h
  split at h
  · exact ⟨‹_›, (Except.error.inj h).symm⟩
  · cases h

theorem decompressBlock_eq_error {f : BitVec 8 → Word} {w : BitVec 32} {d : Nat} {k : Cause} (h : decompressBlock f w d = .error k) :
    k = .num := by
  unfold decompressBlock at h
  simp only [bind_eq_error] at h
  rcases h with h | ⟨_, _, h | ⟨_, _, h | ⟨_, _, h | ⟨_, _, h⟩⟩⟩⟩
  iterate 4 exact (chromaToRgb_eq_error h).2
  cases h

/-- A register that passes the codeword view is its own low 32 bits. -/
theorem codewordOf_ok {r : Word} {w : BitVec 32} (h : codewordOf r = .ok w) : r = w.setWidth 64 := by
  rw [codewordOf_eq_ok] at h
  obtain ⟨h, rfl⟩ := h
  have h' := congrArg BitVec.toNat h
  simp [BitVec.extractLsb'_toNat, Nat.shiftRight_eq_div_pow] at h'
  apply BitVec.eq_of_toNat_eq
  simp [BitVec.extractLsb'_toNat]
  omega

/-! ### Effects -/

/-- `t` is `s` but for registers of the list. -/
def OnlyRegs (rs : List Reg) (s t : State) : Prop := t = { s with x := t.x } ∧ ∀ q, q ∉ rs → t.readReg q = s.readReg q

theorem onlyRegs_writeReg (rd : Reg) (s : State) (v : Word) : OnlyRegs [rd] s (s.writeReg rd v) :=
  ⟨rfl, fun q hq => readReg_writeReg_other (by simpa [eq_comm] using hq) _ _⟩

theorem onlyRegs_writeGroup {rs : List Reg} {s : State} {r : Reg} {vs : List Word} (h : r.val + vs.length ≤ 16)
    (hrs : ∀ k, k < vs.length → r.plus k ∈ rs) : OnlyRegs rs s (s.writeGroup r vs) := by
  refine ⟨writeGroup_eq _ _ _, fun q hq => readReg_writeGroup_outside h ?_⟩
  by_contra hc
  apply hq
  have hk : q.val - r.val < vs.length := by omega
  have he : r.plus (q.val - r.val) = q := by ext; rw [plus_val (by omega)]; omega
  exact he ▸ hrs _ hk

/-- What a command that raises nothing has done, as far as it does not depend on its operands' values. -/
def Effect (i : Instr) (s t : State) : Prop :=
  match i with
  | .clrf => t = s.clearFault
  | .wrc _ _ => ∃ v : BitVec 8, 1 ≤ v.toNat ∧ t = s.writeDenom v
  | .emit rs1 => ∃ w : BitVec 32, s.readReg rs1 = w.setWidth 64 ∧ t = s.appendSout (codewordBytes w)
  | .take rd => ∃ (b0 b1 b2 b3 : Byte) (rest : List Byte), s.sin = b0 :: b1 :: b2 :: b3 :: rest ∧
      t = ({ s with sin := rest } : State).writeReg rd (codewordWord (b0 ++ b1 ++ b2 ++ b3))
  | i => OnlyRegs (destRegs i) s t

/-- The causes a command may raise: those of its row of R221, and `ILL` where the instruction is not well formed. -/
def MayRaise (i : Instr) (k : Cause) : Prop := k ∈ causesOf i ∨ (k = .ill ∧ ¬ i.WellFormed)

/-- The two ends of a command's computation are of those kinds. -/
def Ends (i : Instr) (s : State) (r : Except Cause State) : Prop :=
  (∀ k, r = .error k → MayRaise i k) ∧ (∀ t, r = .ok t → i.WellFormed ∧ Effect i s t)

theorem Ends.cases {i : Instr} {s : State} {r : Except Cause State} (h : Ends i s r) :
    (∃ k, complete i s r = .next (s.faultEntry k (encode i)) ∧ MayRaise i k) ∨
      (∃ t, complete i s r = .next t ∧ i.WellFormed ∧ Effect i s t) := by
  cases r with
  | error k => exact .inl ⟨k, rfl, h.1 k rfl⟩
  | ok t => exact .inr ⟨t, rfl, h.2 t rfl⟩

theorem ends_ok {i : Instr} {s t : State} (hw : i.WellFormed) (he : Effect i s t) : Ends i s (.ok t) := by
  refine ⟨fun k h => (by cases h), fun u h => ?_⟩
  cases h
  exact ⟨hw, he⟩

theorem ends_error {i : Instr} {s : State} {k : Cause} (h : MayRaise i k) : Ends i s (.error k) := by
  refine ⟨fun k' h' => ?_, fun u h' => (by cases h')⟩
  cases h'
  exact h

/-- A step of a command's computation: it raises a cause of the command, or the rest goes on. -/
theorem ends_bind {α : Type} {i : Instr} {s : State} {x : Except Cause α} {f : α → Except Cause State}
    (he : ∀ k, x = .error k → MayRaise i k) (ho : ∀ a, x = .ok a → Ends i s (f a)) : Ends i s (x >>= f) := by
  cases x with
  | error k => exact ends_error (he k rfl)
  | ok a => exact ho a rfl

/-- The group check: past `x[15]` the instruction is not well formed. -/
theorem ends_group {i : Instr} {s : State} {r : Reg} {n : Nat} {f : Unit → Except Cause State}
    (hw : ¬ r.val + n ≤ 16 → ¬ i.WellFormed) (ho : r.val + n ≤ 16 → Ends i s (f ())) : Ends i s (requireGroup r n >>= f) := by
  by_cases h : r.val + n ≤ 16
  · rw [requireGroup_fits h]; exact ho h
  · rw [requireGroup_past h]; exact ends_error (.inr ⟨rfl, hw h⟩)

/-- Any other check. -/
theorem ends_require {i : Instr} {s : State} {b : Bool} {k : Cause} {f : Unit → Except Cause State}
    (hk : b = false → MayRaise i k) (ho : b = true → Ends i s (f ())) : Ends i s (require b k >>= f) := by
  cases b with
  | false => exact ends_error (hk rfl)
  | true => exact ho rfl

/-! ### One lemma per command that can raise -/

theorem ends_rdc (rd : Reg) (csr : BitVec 16) (s : State) : ∃ r, exec (.rdc rd csr) s = complete (.rdc rd csr) s r ∧ Ends (.rdc rd csr) s r := by
  refine ⟨_, rfl, ?_⟩
  refine ends_require (fun h => .inr ⟨rfl, by simpa [Instr.WellFormed, Instr.reject] using h⟩) fun h => ?_
  exact ends_ok (by simpa [Instr.WellFormed, Instr.reject] using h) (onlyRegs_writeReg _ _ _)

theorem ends_wrc (csr : BitVec 16) (rs1 : Reg) (s : State) : ∃ r, exec (.wrc csr rs1) s = complete (.wrc csr rs1) s r ∧ Ends (.wrc csr rs1) s r := by
  refine ⟨_, rfl, ?_⟩
  refine ends_require (fun h => .inr ⟨rfl, ?_⟩) fun h => ?_
  · simp only [beq_eq_false_iff_ne] at h
    simp only [Instr.WellFormed, Instr.reject, h, if_false]
    split <;> simp
  · refine ends_require (fun _ => .inl (by simp [causesOf])) fun h2 => ends_ok ?_ ⟨_, ?_, rfl⟩
    · simp only [beq_iff_eq] at h
      simp [Instr.WellFormed, Instr.reject, h]
    · simp [u64] at h2
      simp [BitVec.extractLsb'_toNat]
      omega

theorem ends_getu (rd rs1 : Reg) (width lsb : BitVec 7) (s : State) : ∃ r, exec (.getu rd rs1 width lsb) s = complete (.getu rd rs1 width lsb) s r ∧ Ends (.getu rd rs1 width lsb) s r := by
  refine ⟨_, rfl, ?_⟩
  exact ends_require (fun _ => .inl (by simp [causesOf])) fun _ => ends_ok rfl (onlyRegs_writeReg _ _ _)

theorem ends_gets (rd rs1 : Reg) (width lsb : BitVec 7) (s : State) : ∃ r, exec (.gets rd rs1 width lsb) s = complete (.gets rd rs1 width lsb) s r ∧ Ends (.gets rd rs1 width lsb) s r := by
  refine ⟨_, rfl, ?_⟩
  exact ends_require (fun _ => .inl (by simp [causesOf])) fun _ => ends_ok rfl (onlyRegs_writeReg _ _ _)

theorem ends_setu (rd rs1 : Reg) (width lsb : BitVec 7) (s : State) : ∃ r, exec (.setu rd rs1 width lsb) s = complete (.setu rd rs1 width lsb) s r ∧ Ends (.setu rd rs1 width lsb) s r := by
  refine ⟨_, rfl, ?_⟩
  exact ends_require (fun _ => .inl (by simp [causesOf])) fun _ =>
    ends_require (fun _ => .inl (by simp [causesOf])) fun _ => ends_ok rfl (onlyRegs_writeReg _ _ _)

theorem ends_sets (rd rs1 : Reg) (width lsb : BitVec 7) (s : State) : ∃ r, exec (.sets rd rs1 width lsb) s = complete (.sets rd rs1 width lsb) s r ∧ Ends (.sets rd rs1 width lsb) s r := by
  refine ⟨_, rfl, ?_⟩
  exact ends_require (fun _ => .inl (by simp [causesOf])) fun _ =>
    ends_require (fun _ => .inl (by simp [causesOf])) fun _ => ends_ok rfl (onlyRegs_writeReg _ _ _)

theorem ends_rgb2ypp (rd rs1 : Reg) (s : State) : ∃ r, exec (.rgb2ypp rd rs1) s = complete (.rgb2ypp rd rs1) s r ∧ Ends (.rgb2ypp rd rs1) s r := by
  refine ⟨_, rfl, ?_⟩
  refine ends_group (fun h => by simp [Instr.WellFormed, Instr.reject, groupReject, h]) fun h => ends_bind ?_ fun p _ => ends_ok (by simp [Instr.WellFormed, Instr.reject, groupReject, h]) (onlyRegs_writeGroup h ?_)
  · intro k hk
    rw [pixelOf_eq_error] at hk
    exact .inl (by simp [causesOf, hk])
  · intro k hk
    match k, hk with
    | 0, _ => simp [destRegs]
    | 1, _ => simp [destRegs]
    | 2, _ => simp [destRegs]

theorem ends_ypp2rgb (rd rs1 : Reg) (s : State) : ∃ r, exec (.ypp2rgb rd rs1) s = complete (.ypp2rgb rd rs1) s r ∧ Ends (.ypp2rgb rd rs1) s r := by
  refine ⟨_, rfl, ?_⟩
  refine ends_group (fun h => by simp [Instr.WellFormed, Instr.reject, groupReject, h]) fun h => ends_bind ?_ fun t _ => ends_bind ?_ fun p _ => ends_ok (by simp [Instr.WellFormed, Instr.reject, groupReject, h]) (onlyRegs_writeReg _ _ _)
  · intro k hk
    rw [floatTriple_eq_error] at hk
    exact .inl (by simp [causesOf, hk])
  · intro k hk
    exact .inl (by simp [causesOf, (chromaToRgb_eq_error hk).2])

theorem ends_btf (rd rs1 : Reg) (s : State) : ∃ r, exec (.btf rd rs1) s = complete (.btf rd rs1) s r ∧ Ends (.btf rd rs1) s r := by
  refine ⟨_, rfl, ?_⟩
  refine ends_group (fun h => by simp [Instr.WellFormed, Instr.reject, groupReject, h]) fun h => ends_group (fun h => by simp [Instr.WellFormed, Instr.reject, groupReject, h]) fun h' => ends_bind ?_ fun q _ => ends_bind ?_ fun r _ =>
    ends_ok (by simp [Instr.WellFormed, Instr.reject, groupReject, h, h']) (onlyRegs_writeGroup h ?_)
  · intro k hk
    rw [floatQuad_eq_error] at hk
    exact .inl (by simp [causesOf, hk])
  · intro k hk
    rw [floatQuad_eq_error] at hk
    exact .inl (by simp [causesOf, hk])
  · intro k hk
    match k, hk with
    | 0, _ => simp [destRegs]
    | 1, _ => simp [destRegs]
    | 2, _ => simp [destRegs]
    | 3, _ => simp [destRegs]

theorem ends_bti (rd rs1 : Reg) (s : State) : ∃ r, exec (.bti rd rs1) s = complete (.bti rd rs1) s r ∧ Ends (.bti rd rs1) s r := by
  refine ⟨_, rfl, ?_⟩
  refine ends_group (fun h => by simp [Instr.WellFormed, Instr.reject, groupReject, h]) fun h => ends_group (fun h => by simp [Instr.WellFormed, Instr.reject, groupReject, h]) fun h' => ends_bind ?_ fun q _ => ends_bind ?_ fun r _ =>
    ends_ok (by simp [Instr.WellFormed, Instr.reject, groupReject, h, h']) (onlyRegs_writeGroup h ?_)
  · intro k hk
    rw [floatQuad_eq_error] at hk
    exact .inl (by simp [causesOf, hk])
  · intro k hk
    rw [floatQuad_eq_error] at hk
    exact .inl (by simp [causesOf, hk])
  · intro k hk
    match k, hk with
    | 0, _ => simp [destRegs]
    | 1, _ => simp [destRegs]
    | 2, _ => simp [destRegs]
    | 3, _ => simp [destRegs]

theorem ends_avg4 (rd rs1 : Reg) (s : State) : ∃ r, exec (.avg4 rd rs1) s = complete (.avg4 rd rs1) s r ∧ Ends (.avg4 rd rs1) s r := by
  refine ⟨_, rfl, ?_⟩
  refine ends_group (fun h => by simp [Instr.WellFormed, Instr.reject, groupReject, h]) fun h => ends_bind ?_ fun t _ => ends_bind ?_ fun p _ => ends_ok (by simp [Instr.WellFormed, Instr.reject, groupReject, h]) (onlyRegs_writeReg _ _ _)
  · intro k hk
    rw [floatQuad_eq_error] at hk
    exact .inl (by simp [causesOf, hk])
  · intro k hk
    rw [floatView_eq_error] at hk
    exact .inl (by simp [causesOf, hk])

theorem ends_qa (rd rs1 : Reg) (s : State) : ∃ r, exec (.qa rd rs1) s = complete (.qa rd rs1) s r ∧ Ends (.qa rd rs1) s r := by
  refine ⟨_, rfl, ?_⟩
  refine ends_bind ?_ fun t _ => ends_bind ?_ fun p _ => ends_ok rfl (onlyRegs_writeReg _ _ _)
  · intro k hk
    rw [floatView_eq_error] at hk
    exact .inl (by simp [causesOf, hk])
  · intro k hk
    exact .inl (by simp [causesOf, quantA_eq_error hk])

theorem ends_qbcd (rd rs1 : Reg) (s : State) : ∃ r, exec (.qbcd rd rs1) s = complete (.qbcd rd rs1) s r ∧ Ends (.qbcd rd rs1) s r := by
  refine ⟨_, rfl, ?_⟩
  refine ends_bind ?_ fun t _ => ends_ok rfl (onlyRegs_writeReg _ _ _)
  intro k hk
  rw [floatView_eq_error] at hk
  exact .inl (by simp [causesOf, hk])

theorem ends_qch (rd rs1 : Reg) (s : State) : ∃ r, exec (.qch rd rs1) s = complete (.qch rd rs1) s r ∧ Ends (.qch rd rs1) s r := by
  refine ⟨_, rfl, ?_⟩
  refine ends_bind ?_ fun t _ => ends_ok rfl (onlyRegs_writeReg _ _ _)
  intro k hk
  rw [floatView_eq_error] at hk
  exact .inl (by simp [causesOf, hk])

theorem ends_dqch (rd rs1 : Reg) (s : State) : ∃ r, exec (.dqch rd rs1) s = complete (.dqch rd rs1) s r ∧ Ends (.dqch rd rs1) s r := by
  refine ⟨_, rfl, ?_⟩
  refine ends_bind ?_ fun t _ => ends_ok rfl (onlyRegs_writeReg _ _ _)
  intro k hk
  rw [indexOf_eq_error] at hk
  exact .inl (by simp [causesOf, hk])

theorem ends_packcw (rd rs1 : Reg) (s : State) : ∃ r, exec (.packcw rd rs1) s = complete (.packcw rd rs1) s r ∧ Ends (.packcw rd rs1) s r := by
  refine ⟨_, rfl, ?_⟩
  refine ends_group (fun h => by simp [Instr.WellFormed, Instr.reject, groupReject, h]) fun h => ends_bind ?_ fun t _ => ends_ok (by simp [Instr.WellFormed, Instr.reject, groupReject, h]) (onlyRegs_writeReg _ _ _)
  intro k hk
  exact .inl (by simp [causesOf, (packCw_eq_error hk).2])

theorem ends_unpkcw (rd rs1 : Reg) (s : State) : ∃ r, exec (.unpkcw rd rs1) s = complete (.unpkcw rd rs1) s r ∧ Ends (.unpkcw rd rs1) s r := by
  refine ⟨_, rfl, ?_⟩
  refine ends_group (fun h => by simp [Instr.WellFormed, Instr.reject, groupReject, h]) fun h => ends_bind ?_ fun w _ => ends_ok (by simp [Instr.WellFormed, Instr.reject, groupReject, h]) (onlyRegs_writeGroup h ?_)
  · intro k hk
    rw [codewordOf_eq_error] at hk
    exact .inl (by simp [causesOf, hk])
  · intro k hk
    match k, hk with
    | 0, _ => simp [destRegs]
    | 1, _ => simp [destRegs]
    | 2, _ => simp [destRegs]
    | 3, _ => simp [destRegs]
    | 4, _ => simp [destRegs]
    | 5, _ => simp [destRegs]

theorem ends_cblk (rd rs1 : Reg) (s : State) : ∃ r, exec (.cblk rd rs1) s = complete (.cblk rd rs1) s r ∧ Ends (.cblk rd rs1) s r := by
  refine ⟨_, rfl, ?_⟩
  refine ends_group (fun h => by simp [Instr.WellFormed, Instr.reject, groupReject, h]) fun h => ends_bind ?_ fun t _ => ends_bind ?_ fun p _ => ends_ok (by simp [Instr.WellFormed, Instr.reject, groupReject, h]) (onlyRegs_writeReg _ _ _)
  · intro k hk
    rw [pixelQuad_eq_error] at hk
    exact .inl (by simp [causesOf, hk])
  · intro k hk
    exact .inl (by simp [causesOf, compressBlock_eq_error hk])

theorem ends_dblk (rd rs1 : Reg) (s : State) : ∃ r, exec (.dblk rd rs1) s = complete (.dblk rd rs1) s r ∧ Ends (.dblk rd rs1) s r := by
  refine ⟨_, rfl, ?_⟩
  refine ends_group (fun h => by simp [Instr.WellFormed, Instr.reject, groupReject, h]) fun h => ends_bind ?_ fun w _ => ends_bind ?_ fun p _ => ends_ok (by simp [Instr.WellFormed, Instr.reject, groupReject, h]) (onlyRegs_writeGroup h ?_)
  · intro k hk
    rw [codewordOf_eq_error] at hk
    exact .inl (by simp [causesOf, hk])
  · intro k hk
    exact .inl (by simp [causesOf, decompressBlock_eq_error hk])
  · intro k hk
    match k, hk with
    | 0, _ => simp [destRegs]
    | 1, _ => simp [destRegs]
    | 2, _ => simp [destRegs]
    | 3, _ => simp [destRegs]

theorem ends_emit (rs1 : Reg) (s : State) : ∃ r, exec (.emit rs1) s = complete (.emit rs1) s r ∧ Ends (.emit rs1) s r := by
  refine ⟨_, rfl, ?_⟩
  refine ends_bind ?_ fun w hw => ends_ok rfl ⟨w, codewordOf_ok hw, rfl⟩
  intro k hk
  rw [codewordOf_eq_error] at hk
  exact .inl (by simp [causesOf, hk])

theorem ends_take (rd : Reg) (s : State) : ∃ r, exec (.take rd) s = complete (.take rd) s r ∧ Ends (.take rd) s r := by
  refine ⟨_, rfl, ?_⟩
  cases h : s.takeSin with
  | none => exact ends_error (.inl (by simp [causesOf]))
  | some p =>
    obtain ⟨w, t⟩ := p
    obtain ⟨b0, b1, b2, b3, rest, hs, rfl, rfl⟩ := takeSin_eq_some.mp h
    exact ends_ok rfl ⟨b0, b1, b2, b3, rest, hs, rfl⟩

/-- Every command takes the fault entry with a cause of its own and its word, or is well formed and has its effect. -/
theorem exec_cases (i : Instr) (s : State) :
    (∃ k, exec i s = .next (s.faultEntry k (encode i)) ∧ MayRaise i k) ∨ (∃ t, exec i s = .next t ∧ i.WellFormed ∧ Effect i s t) := by
  have key : (∃ r, exec i s = complete i s r ∧ Ends i s r) → (∃ k, exec i s = .next (s.faultEntry k (encode i)) ∧ MayRaise i k) ∨
      (∃ t, exec i s = .next t ∧ i.WellFormed ∧ Effect i s t) := by
    rintro ⟨r, he, hr⟩
    rw [he]
    exact hr.cases
  cases i with
  | nop => exact .inr ⟨s, rfl, rfl, rfl, fun _ _ => rfl⟩
  | clrf => exact .inr ⟨_, rfl, rfl, rfl⟩
  | li rd imm => exact .inr ⟨_, rfl, rfl, onlyRegs_writeReg _ _ _⟩
  | lih rd imm => exact .inr ⟨_, rfl, rfl, onlyRegs_writeReg _ _ _⟩
  | mv rd rs1 => exact .inr ⟨_, rfl, rfl, onlyRegs_writeReg _ _ _⟩
  | rdc rd csr => exact key (ends_rdc rd csr s)
  | wrc csr rs1 => exact key (ends_wrc csr rs1 s)
  | fitsu rd rs1 w => exact .inr ⟨_, rfl, rfl, onlyRegs_writeReg _ _ _⟩
  | fitss rd rs1 w => exact .inr ⟨_, rfl, rfl, onlyRegs_writeReg _ _ _⟩
  | getu rd rs1 w l => exact key (ends_getu rd rs1 w l s)
  | gets rd rs1 w l => exact key (ends_gets rd rs1 w l s)
  | setu rd rs1 w l => exact key (ends_setu rd rs1 w l s)
  | sets rd rs1 w l => exact key (ends_sets rd rs1 w l s)
  | dqa rd rs1 => exact .inr ⟨_, rfl, rfl, onlyRegs_writeReg _ _ _⟩
  | dqbcd rd rs1 => exact .inr ⟨_, rfl, rfl, onlyRegs_writeReg _ _ _⟩
  | rgb2ypp rd rs1 => exact key (ends_rgb2ypp rd rs1 s)
  | ypp2rgb rd rs1 => exact key (ends_ypp2rgb rd rs1 s)
  | btf rd rs1 => exact key (ends_btf rd rs1 s)
  | bti rd rs1 => exact key (ends_bti rd rs1 s)
  | avg4 rd rs1 => exact key (ends_avg4 rd rs1 s)
  | qa rd rs1 => exact key (ends_qa rd rs1 s)
  | qbcd rd rs1 => exact key (ends_qbcd rd rs1 s)
  | qch rd rs1 => exact key (ends_qch rd rs1 s)
  | dqch rd rs1 => exact key (ends_dqch rd rs1 s)
  | packcw rd rs1 => exact key (ends_packcw rd rs1 s)
  | unpkcw rd rs1 => exact key (ends_unpkcw rd rs1 s)
  | cblk rd rs1 => exact key (ends_cblk rd rs1 s)
  | dblk rd rs1 => exact key (ends_dblk rd rs1 s)
  | emit rs1 => exact key (ends_emit rs1 s)
  | take rd => exact key (ends_take rd s)

/-- Every command answers a next state: the machine has no stop. -/
theorem exec_next (i : Instr) (s : State) : ∃ t, exec i s = .next t := by
  rcases exec_cases i s with ⟨k, h, _⟩ | ⟨t, h, _⟩
  · exact ⟨_, h⟩
  · exact ⟨t, h⟩

/-- The step of a block whose oldest move is a command word. -/
theorem step_cmd {s : State} {c : CmdWord} {rest : List HostMove} (h : s.port = .cmd c :: rest) :
    step s = runCommand c { s with port := rest } := by
  simp [step, takeMove_cons h, applyMove]

/-- Every step answers a next state. -/
theorem step_next (s : State) : ∃ t, step s = .next t := by
  unfold step
  cases s.takeMove with
  | none => exact ⟨s, rfl⟩
  | some p =>
    obtain ⟨m, t⟩ := p
    cases m with
    | cmd c =>
      simp only [applyMove, runCommand]
      split
      · split
        · exact exec_next _ _
        · exact ⟨_, rfl⟩
      · split
        · exact ⟨_, rfl⟩
        · exact exec_next _ _
    | push bs => exact ⟨_, rfl⟩
    | observe => exact ⟨_, rfl⟩
    | reset => exact ⟨_, rfl⟩

end Sys2Proof.Machine
end

