-- ==== Sys2Proof/Laws/Float.lean ====
section
/-!
SUPPORT. The floating-point primitives: the fields of a pattern just made, which results are not NaNs, and the rounding function `roundMag`: exact
on what a float can hold, monotone, and the same for equal quotients.
-/

namespace Sys2Proof.Machine

/-! ### The fields of a pattern -/

theorem expBits_eq (v : Word) : expBits v = v.toNat / 2 ^ 52 % 2 ^ 11 := by
  simp [expBits, BitVec.extractLsb'_toNat, Nat.shiftRight_eq_div_pow]

theorem fracBits_eq (v : Word) : fracBits v = v.toNat % 2 ^ 52 := by
  simp [fracBits, BitVec.extractLsb'_toNat]

theorem isNeg_eq (v : Word) : isNeg v = decide (2 ^ 63 ≤ v.toNat) := by
  simp [isNeg, BitVec.msb_eq_decide]

theorem mkFloat_toNat {neg : Bool} {m : Nat} (h : m < 2 ^ 63) : (mkFloat neg m).toNat = (if neg then 2 ^ 63 else 0) + m := by
  rw [mkFloat, BitVec.toNat_ofNat]
  apply Nat.mod_eq_of_lt
  split <;> omega

theorem isNeg_mkFloat {neg : Bool} {m : Nat} (h : m < 2 ^ 63) : isNeg (mkFloat neg m) = neg := by
  rw [isNeg_eq, mkFloat_toNat h]
  cases neg
  · simp; omega
  · simp

theorem expBits_mkFloat {neg : Bool} {m : Nat} (h : m < 2 ^ 63) : expBits (mkFloat neg m) = m / 2 ^ 52 := by
  rw [expBits_eq, mkFloat_toNat h]
  cases neg
  · simp; omega
  · simp; omega

theorem fracBits_mkFloat {neg : Bool} {m : Nat} (h : m < 2 ^ 63) : fracBits (mkFloat neg m) = m % 2 ^ 52 := by
  rw [fracBits_eq, mkFloat_toNat h]
  cases neg
  · simp
  · simp; omega

/-- Sign, exponent and fraction make the pattern. -/
theorem mkFloat_fields (v : Word) : mkFloat (isNeg v) (expBits v * 2 ^ 52 + fracBits v) = v := by
  have hv := v.isLt
  have he : expBits v * 2 ^ 52 + fracBits v < 2 ^ 63 := by rw [expBits_eq, fracBits_eq]; omega
  apply BitVec.eq_of_toNat_eq
  rw [mkFloat_toNat he, isNeg_eq, expBits_eq, fracBits_eq]
  by_cases h : 2 ^ 63 ≤ v.toNat
  · simp only [h, decide_true, if_true]; omega
  · simp only [h, decide_false, Bool.false_eq_true, if_false]; omega

/-! ### Which results are not NaNs -/

theorem infMag_lt : infMag < 2 ^ 63 := by decide

theorem isNaN_mkFloat {neg : Bool} {m : Nat} (h : m ≤ infMag) : isNaN (mkFloat neg m) = false := by
  have hm : m < 2 ^ 63 := Nat.lt_of_le_of_lt h infMag_lt
  rw [isNaN, expBits_mkFloat hm, fracBits_mkFloat hm]
  rcases Nat.lt_or_eq_of_le h with h | h
  · have : m / 2 ^ 52 ≠ 2047 := by unfold infMag at h; omega
    rw [beq_eq_false_iff_ne.mpr this, Bool.false_and]
  · subst h; decide

theorem isInf_mkFloat {neg : Bool} {m : Nat} (h : m ≤ infMag) : isInf (mkFloat neg m) = decide (m = infMag) := by
  have hm : m < 2 ^ 63 := Nat.lt_of_le_of_lt h infMag_lt
  rw [isInf, expBits_mkFloat hm, fracBits_mkFloat hm]
  rcases Nat.lt_or_eq_of_le h with h | h
  · have : m / 2 ^ 52 ≠ 2047 := by unfold infMag at h; omega
    have h2 : m ≠ infMag := Nat.ne_of_lt h
    simp only [beq_eq_false_iff_ne.mpr this, Bool.false_and, h2, decide_false]
  · subst h; decide

theorem roundMag_le (n d : Nat) : roundMag n d ≤ infMag := Nat.min_le_left _ _

/-- A float of the table is not a NaN (R156). -/
theorem isNaN_tableBits (t : TableFloat) : isNaN (tableBits t) = false := by
  cases t with
  | finite neg expo frac =>
    apply isNaN_mkFloat
    have h1 := expo.isLt
    have h2 := frac.isLt
    unfold infMag
    omega
  | inf neg => exact isNaN_mkFloat (Nat.le_refl _)

theorem isNaN_i2f (n : Int) : isNaN (i2f n) = false := isNaN_mkFloat (roundMag_le _ _)

/-! ### Rounding -/

/-- The magnitude, in units of 2^-1074, of the float whose bits 62:0 are `m`. -/
def magOfBits (m : Nat) : Nat := if m / 2 ^ 52 = 0 then m % 2 ^ 52 else (2 ^ 52 + m % 2 ^ 52) * 2 ^ (m / 2 ^ 52 - 1)

theorem magUnits_mkFloat {neg : Bool} {m : Nat} (h : m < 2 ^ 63) : magUnits (mkFloat neg m) = magOfBits m := by
  rw [magUnits, magOfBits, expBits_mkFloat h, fracBits_mkFloat h]

/-- Rounding a quotient to an integer depends on the quotient only. -/
theorem roundHalfEven_scale (n d : Nat) {k : Nat} (hk : 0 < k) : roundHalfEven (n * k) (d * k) = roundHalfEven n d := by
  have h1 : n * k / (d * k) = n / d := Nat.mul_div_mul_right n d hk
  have h2 : n * k % (d * k) = n % d * k := Nat.mul_mod_mul_right k n d
  have h3 : 2 * (n % d * k) < d * k ↔ 2 * (n % d) < d := by
    rw [← Nat.mul_assoc]; exact Nat.mul_lt_mul_right hk
  have h4 : d * k < 2 * (n % d * k) ↔ d < 2 * (n % d) := by
    rw [← Nat.mul_assoc]; exact Nat.mul_lt_mul_right hk
  simp only [roundHalfEven, h1, h2, h3, h4]

theorem roundHalfEven_exact (q : Nat) {d : Nat} (h : 0 < d) : roundHalfEven (q * d) d = q := by
  simp [roundHalfEven, Nat.mul_div_cancel q h, h]

/-- The rounded quotient is the floor or the floor plus one. -/
theorem roundHalfEven_bounds (n d : Nat) : n / d ≤ roundHalfEven n d ∧ roundHalfEven n d ≤ n / d + 1 := by
  simp only [roundHalfEven]
  split
  · omega
  · split <;> omega

theorem roundHalfEven_mono {n n' d : Nat} (h : n ≤ n') : roundHalfEven n d ≤ roundHalfEven n' d := by
  have hq : n / d ≤ n' / d := Nat.div_le_div_right h
  rcases Nat.lt_or_eq_of_le hq with hq | hq
  · exact Nat.le_trans (roundHalfEven_bounds n d).2 (Nat.le_trans hq (roundHalfEven_bounds n' d).1)
  · have h1 := Nat.div_add_mod n d
    have h2 := Nat.div_add_mod n' d
    rw [← hq] at h2
    have hr : n % d ≤ n' % d := by omega
    simp only [roundHalfEven, ← hq]
    split
    · split
      · omega
      · split <;> omega
    · split
      · split
        · omega
        · split <;> omega
      · split
        · omega
        · split <;> omega

/-- Rounding depends on the quotient only. -/
theorem roundMag_scale (n d : Nat) {k : Nat} (hk : 0 < k) : roundMag (n * k) (d * k) = roundMag n d := by
  have h1 : n * k / (d * k) = n / d := Nat.mul_div_mul_right n d hk
  have h2 : d * k * 2 ^ (Nat.log2 (n / d) - 52) = d * 2 ^ (Nat.log2 (n / d) - 52) * k := by ring
  simp only [roundMag, h1, h2, roundHalfEven_scale _ _ hk]

theorem lt_of_shift (q : Nat) : q < 2 ^ (53 + (Nat.log2 q - 52)) := by
  refine Nat.lt_of_lt_of_le Nat.lt_log2_self (Nat.pow_le_pow_right (by omega) (by omega))

theorem le_of_shift {q : Nat} (h : 0 < Nat.log2 q - 52) : 2 ^ (52 + (Nat.log2 q - 52)) ≤ q := by
  have h0 : q ≠ 0 := by rintro rfl; simp at h
  have : 52 + (Nat.log2 q - 52) = Nat.log2 q := by omega
  rw [this]
  exact Nat.log2_self_le h0

/-- A significand rounds to at most 2^53, and above the subnormals to at least 2^52. -/
theorem significand_bounds (n d : Nat) :
    let sh := Nat.log2 (n / d) - 52
    roundHalfEven n (d * 2 ^ sh) ≤ 2 ^ 53 ∧ (0 < sh → 2 ^ 52 ≤ roundHalfEven n (d * 2 ^ sh)) := by
  intro sh
  have hdiv : n / (d * 2 ^ sh) = n / d / 2 ^ sh := (Nat.div_div_eq_div_mul n d (2 ^ sh)).symm
  have hlt : n / d / 2 ^ sh < 2 ^ 53 := by
    rw [Nat.div_lt_iff_lt_mul (Nat.two_pow_pos sh), ← Nat.pow_add]
    exact lt_of_shift (n / d)
  constructor
  · exact Nat.le_trans (roundHalfEven_bounds n (d * 2 ^ sh)).2 (by rw [hdiv]; exact hlt)
  · intro hs
    refine Nat.le_trans ?_ (roundHalfEven_bounds n (d * 2 ^ sh)).1
    rw [hdiv, Nat.le_div_iff_mul_le (Nat.two_pow_pos sh), ← Nat.pow_add]
    exact le_of_shift hs

theorem roundMag_mono_same {n n' d : Nat} (h : n ≤ n') : roundMag n d ≤ roundMag n' d := by
  have hq : n / d ≤ n' / d := Nat.div_le_div_right h
  have hs : Nat.log2 (n / d) - 52 ≤ Nat.log2 (n' / d) - 52 := by
    have : Nat.log2 (n / d) ≤ Nat.log2 (n' / d) := by
      rw [Nat.log2_eq_log_two, Nat.log2_eq_log_two]
      exact Nat.log_mono_right hq
    omega
  have hb := significand_bounds n d
  have hb' := significand_bounds n' d
  unfold roundMag
  refine Nat.le_min.mpr ⟨Nat.min_le_left _ _, Nat.le_trans (Nat.min_le_right _ _) ?_⟩
  dsimp only at hb hb' ⊢
  generalize Nat.log2 (n / d) - 52 = a at *
  generalize Nat.log2 (n' / d) - 52 = b at *
  rcases Nat.lt_or_eq_of_le hs with hs | hs
  · have h1 := hb.1
    have h2 := hb'.2 (by omega)
    omega
  · subst hs
    exact Nat.add_le_add_left (roundHalfEven_mono h) _

/-- Rounding is monotone in the quotient. -/
theorem roundMag_mono {n d n' d' : Nat} (hd : 0 < d) (hd' : 0 < d') (h : n * d' ≤ n' * d) : roundMag n d ≤ roundMag n' d' := by
  rw [← roundMag_scale n d hd', ← roundMag_scale n' d' hd, Nat.mul_comm d' d]
  exact roundMag_mono_same h

/-- A quotient that a finite float holds is not changed by rounding. -/
theorem roundMag_exact {m d : Nat} (hm : m < infMag) (hd : 0 < d) : roundMag (magOfBits m * d) d = m := by
  unfold roundMag
  rw [Nat.mul_div_cancel _ hd]
  by_cases h : m / 2 ^ 52 = 0
  · have hm2 : m < 2 ^ 52 := by omega
    have hv : magOfBits m = m := by simp only [magOfBits, h, if_true]; omega
    rw [hv]
    have hs : Nat.log2 m - 52 = 0 := by
      rcases Nat.eq_zero_or_pos m with h0 | h0
      · subst h0; simp
      · have := (Nat.log2_lt (by omega)).mpr hm2
        omega
    simp only [hs, Nat.pow_zero, Nat.mul_one, Nat.zero_mul, Nat.zero_add, roundHalfEven_exact m hd]
    exact Nat.min_eq_right (Nat.le_of_lt hm)
  · have hv : magOfBits m = (2 ^ 52 + m % 2 ^ 52) * 2 ^ (m / 2 ^ 52 - 1) := by simp only [magOfBits, h, if_false]
    have hs : Nat.log2 (magOfBits m) - 52 = m / 2 ^ 52 - 1 := by
      have h0 : magOfBits m ≠ 0 := by
        rw [hv]; exact Nat.mul_ne_zero (by omega) (Nat.ne_of_gt (Nat.two_pow_pos _))
      have h1 : Nat.log2 (magOfBits m) < 53 + (m / 2 ^ 52 - 1) := by
        rw [Nat.log2_lt h0, hv, Nat.pow_add]
        exact Nat.mul_lt_mul_of_pos_right (by omega) (Nat.two_pow_pos _)
      have h2 : 52 + (m / 2 ^ 52 - 1) ≤ Nat.log2 (magOfBits m) := by
        rw [Nat.le_log2 h0, hv, Nat.pow_add]
        exact Nat.mul_le_mul_right _ (by omega)
      omega
    rw [hs, hv]
    have he : (2 ^ 52 + m % 2 ^ 52) * 2 ^ (m / 2 ^ 52 - 1) * d = (2 ^ 52 + m % 2 ^ 52) * (d * 2 ^ (m / 2 ^ 52 - 1)) := by ring
    dsimp only
    rw [he, roundHalfEven_exact _ (Nat.mul_pos hd (Nat.two_pow_pos _))]
    have : (m / 2 ^ 52 - 1) * 2 ^ 52 + (2 ^ 52 + m % 2 ^ 52) = m := by omega
    rw [this]
    exact Nat.min_eq_right (Nat.le_of_lt hm)

end Sys2Proof.Machine
end

