-- ==== Sys2Proof/Laws/HostFrame.lean ====
section
/-!
SUPPORT. What the host's procedures can do: each move is a step of the machine, none of them stops it, a frame that a fault stopped hands nothing on,
and a frame that hands something on has left the block running.
-/

namespace Sys2Proof.Machine

@[simp] theorem onNext_next {α β : Type} (a : α) (f : α → Host.Outcome β Fault Refusal) : onNext (.next a) f = f a := rfl

@[simp] theorem observe_faultLine (s : State) : s.observe.faultLine = s.faultLine := rfl

/-- A move of the host's list is the step of the machine offered that move. -/
theorem step_eq_applyMove (m : HostMove) (s : State) : step { s with port := m :: s.port } = applyMove m s := by
  simp [step, takeMove_cons (s := { s with port := m :: s.port }) rfl]

/-- No host move stops the machine. -/
theorem applyMove_next (m : HostMove) (s : State) : ∃ t, applyMove m s = .next t :=
  step_eq_applyMove m s ▸ step_next _

theorem sendMoves_next (ms : List HostMove) (s : State) : ∃ t, sendMoves ms s = .next t := by
  induction ms generalizing s with
  | nil => exact ⟨s, rfl⟩
  | cons m ms ih =>
    obtain ⟨t, ht⟩ := applyMove_next m s
    simpa [sendMoves, ht] using ih t

/-- A frame always ends, and either its last observation is the only one to show the fault line, at the block's final state, or none shows it
and the block ends running (if a group was sent at all). -/
theorem sendFrame_next (gs : List (List HostMove)) (s : State) :
    ∃ t os, sendFrame gs s = .next (t, os) ∧
      ((t.faultLine = true ∧ seenFault os = some (.blockFault t.cause t.fcmd)) ∨
        (seenFault os = none ∧ os.length = gs.length ∧ (gs ≠ [] → t.faultLine = false))) := by
  induction gs generalizing s with
  | nil => exact ⟨s, [], rfl, .inr ⟨rfl, rfl, by simp⟩⟩
  | cons g gs ih =>
    obtain ⟨t, ht⟩ := sendMoves_next (g ++ [.observe]) s
    cases hf : t.faultLine with
    | true => exact ⟨t, [t.observe], by simp [sendFrame, ht, hf], .inl ⟨hf, by simp [seenFault, hf, State.observe]⟩⟩
    | false =>
      obtain ⟨u, os, hu, hc⟩ := ih t
      refine ⟨u, t.observe :: os, by simp [sendFrame, ht, hf, hu], ?_⟩
      have hs : seenFault (t.observe :: os) = seenFault os := by simp [seenFault, hf]
      rw [hs]
      rcases hc with h | ⟨h1, h2, h3⟩
      · exact .inl h
      · refine .inr ⟨h1, by simp [h2], fun _ => ?_⟩
        cases gs with
        | nil => cases hu; exact hf
        | cons g' gs' => exact h3 (by simp)

/-- A trimmed image of a good buffer has a good buffer (R186). -/
theorem trim_lengthOk {m : Image} (h : m.lengthOk = true) : m.trim.lengthOk = true := by
  simp only [Image.lengthOk, beq_iff_eq] at h ⊢
  have hrow : ∀ row ∈ List.range (m.height - m.height % 2),
      ((m.pixels.drop (row * m.width)).take (m.width - m.width % 2)).length = m.width - m.width % 2 := by
    intro row hr
    rw [List.mem_range] at hr
    have : row * m.width + m.width ≤ m.height * m.width := by
      rw [← Nat.succ_mul]; exact Nat.mul_le_mul_right _ (by omega)
    rw [List.length_take, List.length_drop, h, Nat.mul_comm m.width]
    omega
  simp only [Image.trim, List.length_flatMap]
  rw [List.map_congr_left hrow, List.map_const', List.sum_replicate, List.length_range, smul_eq_mul, Nat.mul_comm]

/-- Every block of an image with even sides and a good buffer has its four pixels (R185). -/
theorem block_isSome {m : Image} (h : m.lengthOk = true) (hw : m.width % 2 = 0) (hh : m.height % 2 = 0) {k : Nat}
    (hk : k < blockCount m.width m.height) : (m.block k).isSome = true := by
  simp only [Image.lengthOk, beq_iff_eq] at h
  have hpos : 0 < m.width / 2 := Nat.pos_of_ne_zero fun h0 => by simp [blockCount, h0] at hk
  have hr : k / (m.width / 2) < m.height / 2 := Nat.div_lt_of_lt_mul hk
  have hc : k % (m.width / 2) < m.width / 2 := Nat.mod_lt _ hpos
  have hp : ∀ row col, row < m.height → col < m.width → m.pixelAt row col = m.pixels[row * m.width + col]? ∧
      row * m.width + col < m.pixels.length := by
    intro row col h1 h2
    refine ⟨rfl, ?_⟩
    have : row * m.width + m.width ≤ m.height * m.width := by
      rw [← Nat.succ_mul]; exact Nat.mul_le_mul_right _ (by omega)
    rw [h, Nat.mul_comm m.width]
    omega
  have hs : ∀ row col, row < m.height → col < m.width → ∃ p, m.pixelAt row col = some p := fun row col h1 h2 =>
    ⟨_, (hp row col h1 h2).1.trans (List.getElem?_eq_getElem (hp row col h1 h2).2)⟩
  obtain ⟨p1, h1⟩ := hs (2 * (k / (m.width / 2))) (2 * (k % (m.width / 2))) (by omega) (by omega)
  obtain ⟨p2, h2⟩ := hs (2 * (k / (m.width / 2))) (2 * (k % (m.width / 2)) + 1) (by omega) (by omega)
  obtain ⟨p3, h3⟩ := hs (2 * (k / (m.width / 2)) + 1) (2 * (k % (m.width / 2))) (by omega) (by omega)
  obtain ⟨p4, h4⟩ := hs (2 * (k / (m.width / 2)) + 1) (2 * (k % (m.width / 2)) + 1) (by omega) (by omega)
  simp [Image.block, blockPositions, Quad.map, h1, h2, h3, h4]

/-- The host sends one group for each block of the trimmed image, and one for `DENOM` (R184). -/
theorem compressMoves_length {m : Image} {den : BitVec 8} {gs : List (List HostMove)} (h : compressMoves m den = some gs) :
    gs.length = blockCount m.trim.width m.trim.height + 1 := by
  simp only [compressMoves] at h
  split at h
  · rename_i hl
    cases h
    have key : ∀ k ∈ List.range (blockCount m.trim.width m.trim.height),
        ((m.trim.block k).map fun q => cmdsOf (blockCmds q)) = some (((m.trim.block k).map fun q => cmdsOf (blockCmds q)).getD []) := by
      intro k hk
      have := block_isSome (trim_lengthOk hl) (by simp only [Image.trim]; omega) (by simp only [Image.trim]; omega) (List.mem_range.mp hk)
      obtain ⟨q, hq⟩ := Option.isSome_iff_exists.mp this
      simp [hq]
    rw [List.length_cons, List.filterMap_congr key]
    simp
  · cases h

/-- `compress` (R184): a wrong length is the dimension error and sends nothing; a fault hands on its cause and word, and no byte; else the block is
running and the caller gets the bytes added to `SOUT` with the post-trim size. -/
theorem compressImage_cases (m : Image) (den : BitVec 8) (s : State) :
    (m.lengthOk = false ∧ compressImage m den s = .next (s, .error .dimension)) ∨
      (∃ t, m.lengthOk = true ∧ t.faultLine = true ∧ compressImage m den s = .next (t, .error (.blockFault t.cause t.fcmd))) ∨
      (∃ t, m.lengthOk = true ∧ t.faultLine = false ∧
        compressImage m den s = .next (t, .ok ⟨t.sout.drop s.sout.length, m.trim.width, m.trim.height⟩)) := by
  cases hl : m.lengthOk with
  | false => exact .inl ⟨rfl, by simp [compressImage, compressMoves, hl]⟩
  | true =>
    refine .inr ?_
    simp only [compressImage, compressMoves, hl, if_true]
    obtain ⟨t, os, h, hc⟩ := sendFrame_next _ s
    rw [h]
    rcases hc with ⟨hf, he⟩ | ⟨he, _, hr⟩
    · exact .inl ⟨t, trivial, hf, by simp [frameResult, he]⟩
    · exact .inr ⟨t, trivial, hr (by simp), by simp [frameResult, he, State.observe]⟩

/-- `decompress` (R187, R188): a wrong count sends nothing; a fault hands on its cause and word, and no pixel; else the block is running and the
image is assembled from one quad for each block. -/
theorem decompressImage_cases (bytes : List Byte) (width height : Nat) (den : BitVec 8) (s : State) :
    (countOk bytes width height = false ∧ decompressImage bytes width height den s = .next (s, .error .count)) ∨
      (∃ t, countOk bytes width height = true ∧ t.faultLine = true ∧
        decompressImage bytes width height den s = .next (t, .error (.blockFault t.cause t.fcmd))) ∨
      (∃ t quads, countOk bytes width height = true ∧ t.faultLine = false ∧ quads.length = blockCount width height ∧
        decompressImage bytes width height den s = .next (t, .ok (assemble quads width height))) := by
  cases hl : countOk bytes width height with
  | false => exact .inl ⟨rfl, by simp [decompressImage, decompressMoves, hl]⟩
  | true =>
    refine .inr ?_
    simp only [decompressImage, decompressMoves, hl, if_true]
    obtain ⟨t, os, h, hc⟩ := sendFrame_next _ s
    rw [h]
    rcases hc with ⟨hf, he⟩ | ⟨he, hlen, hr⟩
    · exact .inl ⟨t, trivial, hf, by simp [frameResult, he]⟩
    · exact .inr ⟨t, (os.drop 2).map observedQuad, trivial, hr (by simp), by simp [hlen], by simp [frameResult, he]⟩

end Sys2Proof.Machine
end

