-- ==== Sys2Proof/Laws/PerInstr.lean ====
section
/-!
SUPPORT. The per-instruction family `OpField`: the opcode field of an instruction's word is the opcode of its row (R81, R90), and the opcode's
high four bits are one of the six units' (R89).
-/

namespace Sys2Proof.Laws.OpField

/-- The word's bits 31:24 are the instruction's opcode, and the opcode's unit number is at most 5. -/
def Statement (i : Instr) : Prop := opField (encode i) = i.opcode ∧ (i.opcode.extractLsb' 4 4).toNat ≤ 5

theorem nop : Statement .nop := ⟨opField_wordOf _ _ _ _, by simp [Instr.opcode]⟩
theorem clrf : Statement .clrf := ⟨opField_wordOf _ _ _ _, by simp [Instr.opcode]⟩
theorem li (rd : Reg) (imm : BitVec 16) : Statement (.li rd imm) := ⟨opField_wordOf _ _ _ _, by simp [Instr.opcode]⟩
theorem lih (rd : Reg) (imm : BitVec 16) : Statement (.lih rd imm) := ⟨opField_wordOf _ _ _ _, by simp [Instr.opcode]⟩
theorem mv (rd : Reg) (rs1 : Reg) : Statement (.mv rd rs1) := ⟨opField_wordOf _ _ _ _, by simp [Instr.opcode]⟩
theorem rdc (rd : Reg) (csr : BitVec 16) : Statement (.rdc rd csr) := ⟨opField_wordOf _ _ _ _, by simp [Instr.opcode]⟩
theorem wrc (csr : BitVec 16) (rs1 : Reg) : Statement (.wrc csr rs1) := ⟨opField_wordOf _ _ _ _, by simp [Instr.opcode]⟩
theorem fitsu (rd : Reg) (rs1 : Reg) (width : BitVec 7) : Statement (.fitsu rd rs1 width) := ⟨opField_wordOf _ _ _ _, by simp [Instr.opcode]⟩
theorem fitss (rd : Reg) (rs1 : Reg) (width : BitVec 7) : Statement (.fitss rd rs1 width) := ⟨opField_wordOf _ _ _ _, by simp [Instr.opcode]⟩
theorem getu (rd : Reg) (rs1 : Reg) (width : BitVec 7) (lsb : BitVec 7) : Statement (.getu rd rs1 width lsb) := ⟨opField_wordOf _ _ _ _, by simp [Instr.opcode]⟩
theorem gets (rd : Reg) (rs1 : Reg) (width : BitVec 7) (lsb : BitVec 7) : Statement (.gets rd rs1 width lsb) := ⟨opField_wordOf _ _ _ _, by simp [Instr.opcode]⟩
theorem setu (rd : Reg) (rs1 : Reg) (width : BitVec 7) (lsb : BitVec 7) : Statement (.setu rd rs1 width lsb) := ⟨opField_wordOf _ _ _ _, by simp [Instr.opcode]⟩
theorem sets (rd : Reg) (rs1 : Reg) (width : BitVec 7) (lsb : BitVec 7) : Statement (.sets rd rs1 width lsb) := ⟨opField_wordOf _ _ _ _, by simp [Instr.opcode]⟩
theorem rgb2ypp (rd : Reg) (rs1 : Reg) : Statement (.rgb2ypp rd rs1) := ⟨opField_wordOf _ _ _ _, by simp [Instr.opcode]⟩
theorem ypp2rgb (rd : Reg) (rs1 : Reg) : Statement (.ypp2rgb rd rs1) := ⟨opField_wordOf _ _ _ _, by simp [Instr.opcode]⟩
theorem btf (rd : Reg) (rs1 : Reg) : Statement (.btf rd rs1) := ⟨opField_wordOf _ _ _ _, by simp [Instr.opcode]⟩
theorem bti (rd : Reg) (rs1 : Reg) : Statement (.bti rd rs1) := ⟨opField_wordOf _ _ _ _, by simp [Instr.opcode]⟩
theorem avg4 (rd : Reg) (rs1 : Reg) : Statement (.avg4 rd rs1) := ⟨opField_wordOf _ _ _ _, by simp [Instr.opcode]⟩
theorem qa (rd : Reg) (rs1 : Reg) : Statement (.qa rd rs1) := ⟨opField_wordOf _ _ _ _, by simp [Instr.opcode]⟩
theorem qbcd (rd : Reg) (rs1 : Reg) : Statement (.qbcd rd rs1) := ⟨opField_wordOf _ _ _ _, by simp [Instr.opcode]⟩
theorem qch (rd : Reg) (rs1 : Reg) : Statement (.qch rd rs1) := ⟨opField_wordOf _ _ _ _, by simp [Instr.opcode]⟩
theorem dqa (rd : Reg) (rs1 : Reg) : Statement (.dqa rd rs1) := ⟨opField_wordOf _ _ _ _, by simp [Instr.opcode]⟩
theorem dqbcd (rd : Reg) (rs1 : Reg) : Statement (.dqbcd rd rs1) := ⟨opField_wordOf _ _ _ _, by simp [Instr.opcode]⟩
theorem dqch (rd : Reg) (rs1 : Reg) : Statement (.dqch rd rs1) := ⟨opField_wordOf _ _ _ _, by simp [Instr.opcode]⟩
theorem packcw (rd : Reg) (rs1 : Reg) : Statement (.packcw rd rs1) := ⟨opField_wordOf _ _ _ _, by simp [Instr.opcode]⟩
theorem unpkcw (rd : Reg) (rs1 : Reg) : Statement (.unpkcw rd rs1) := ⟨opField_wordOf _ _ _ _, by simp [Instr.opcode]⟩
theorem cblk (rd : Reg) (rs1 : Reg) : Statement (.cblk rd rs1) := ⟨opField_wordOf _ _ _ _, by simp [Instr.opcode]⟩
theorem dblk (rd : Reg) (rs1 : Reg) : Statement (.dblk rd rs1) := ⟨opField_wordOf _ _ _ _, by simp [Instr.opcode]⟩
theorem emit (rs1 : Reg) : Statement (.emit rs1) := ⟨opField_wordOf _ _ _ _, by simp [Instr.opcode]⟩
theorem take (rd : Reg) : Statement (.take rd) := ⟨opField_wordOf _ _ _ _, by simp [Instr.opcode]⟩

end Sys2Proof.Laws.OpField
end

