-- ==== Sys2Proof/Tests/Slice0.lean ====
section
/-!
SUPPORT. The model's own tests. Every expected value is taken from a vector of spec/95_test_vectors.md or spec/96_test_programs.md, or worked out by
hand from the formats of 30_encoding.md; the section is named at each group. Then, for every obligation with hypotheses, a state and operands that
meet them. The kernel evaluates each one (floats are computed on integers of about a thousand bits, which only the kernel does fast).
-/

/- One theorem at a time: evaluated side by side, the tests ask for more threads than the memory limit of the check allows. -/
set_option Elab.async false

namespace Sys2Proof.Tests

open Sys2Proof Sys2Proof.Machine

/-! ### Helpers -/

/-- The reset state with the listed registers and the given `DENOM`. -/
def startWith (den : BitVec 8) (regs : List (Reg × Word)) : State :=
  regs.foldl (fun s p => s.writeReg p.1 p.2) { State.reset with denom := den }

/-- The result is a next state with the property. -/
def nextHas (r : Result) (p : State → Bool) : Bool :=
  match r with
  | .next t => p t
  | _ => false

/-- One command word, handed over and executed, leaves the block running with exactly these registers changed. -/
def gives (s : State) (c : CmdWord) (regs : List (Reg × Word)) : Bool :=
  nextHas (step (s.offerCmd c)) fun t => decide (t = regs.foldl (fun u p => u.writeReg p.1 p.2) s)

/-- One command word leaves the block FAULTED with this cause code, and nothing else changed. -/
def faults (s : State) (c : CmdWord) (code : BitVec 4) : Bool :=
  nextHas (step (s.offerCmd c)) fun t => decide (t = { s with status := 1, cause := code, fcmd := c })

/-- The fixture `TAB_FIX` of 95 section 1, the index function. -/
def tabIndexOf (v : Word) : BitVec 8 :=
  let t := fadd (fround (fmul v 0x4030000000000000)) 0x4020000000000000
  let t := if flt t 0 then 0 else t
  let t := if flt 0x402E000000000000 t then 0x402E000000000000 else t
  BitVec.ofInt 8 (f2i t)

/-- The fixture `TAB_FIX`, the value function. -/
def tabOfIndex (i : BitVec 8) : Word := fdiv (fsub (i2f i.toNat) 0x4020000000000000) 0x4030000000000000

/-- The word `W` of 95 section 3. -/
def W : Word := 0xFEDCBA9876543210

/-! ### WellFormed: one ill-formed term for each check -/

theorem test_triple_past_x15 : (Instr.rgb2ypp 14 1).reject = some .groupPastX15 ∧ (Instr.ypp2rgb 1 14).reject = some .groupPastX15 := by decide
theorem test_quad_past_x15 : (Instr.btf 13 0).reject = some .groupPastX15 ∧ (Instr.btf 0 13).reject = some .groupPastX15 ∧
    (Instr.bti 13 0).reject = some .groupPastX15 ∧ (Instr.bti 0 13).reject = some .groupPastX15 ∧ (Instr.avg4 0 13).reject = some .groupPastX15 ∧
    (Instr.cblk 0 13).reject = some .groupPastX15 ∧ (Instr.dblk 13 0).reject = some .groupPastX15 := by decide
theorem test_hex_past_x15 : (Instr.packcw 0 11).reject = some .groupPastX15 ∧ (Instr.unpkcw 11 0).reject = some .groupPastX15 := by decide
theorem test_csr_unassigned : (Instr.rdc 1 4).reject = some .csrUnassigned ∧ (Instr.wrc 4 1).reject = some .csrUnassigned := by decide
theorem test_csr_read_only : (Instr.wrc 1 1).reject = some .csrReadOnly ∧ (Instr.wrc 2 1).reject = some .csrReadOnly ∧
    (Instr.wrc 3 1).reject = some .csrReadOnly := by decide
theorem test_groups_up_to_x15 : (Instr.rgb2ypp 13 1).WellFormed ∧ (Instr.btf 12 12).WellFormed ∧ (Instr.unpkcw 10 0).WellFormed ∧
    (Instr.avg4 15 12).WellFormed ∧ (Instr.rdc 15 3).WellFormed := by decide

/-! ### Decoding: a word of every constructor (95, 96 and, for the format fields, 30 R81 to R86) -/

theorem test_decode_system : decode 0x01000000 = .ok .nop ∧ decode 0x02000000 = .ok .clrf ∧ decode 0x03308000 = .ok (.li 3 0x8000) ∧
    decode 0x0430ABCD = .ok (.lih 3 0xABCD) ∧ decode 0x05210000 = .ok (.mv 2 1) ∧ decode 0x06F00003 = .ok (.rdc 15 3) ∧
    decode 0x07010000 = .ok (.wrc 0 1) := by decide
theorem test_decode_bitpacker : decode 0x10210800 = .ok (.fitsu 2 1 4) ∧ decode 0x1121C800 = .ok (.fitss 2 1 100) ∧
    decode 0x1221FFFC = .ok (.getu 2 1 127 127) ∧ decode 0x13211850 = .ok (.gets 2 1 12 20) ∧ decode 0x1412125C = .ok (.setu 1 2 9 23) ∧
    decode 0x15120A34 = .ok (.sets 1 2 5 13) := by decide
theorem test_decode_transforms : decode 0x20D10000 = .ok (.rgb2ypp 13 1) ∧ decode 0x211D0000 = .ok (.ypp2rgb 1 13) ∧
    decode 0x30CC0000 = .ok (.btf 12 12) ∧ decode 0x31400000 = .ok (.bti 4 0) := by decide
theorem test_decode_quantizer : decode 0x40FC0000 = .ok (.avg4 15 12) ∧ decode 0x41210000 = .ok (.qa 2 1) ∧ decode 0x42210000 = .ok (.qbcd 2 1) ∧
    decode 0x43210000 = .ok (.qch 2 1) ∧ decode 0x44210000 = .ok (.dqa 2 1) ∧ decode 0x45210000 = .ok (.dqbcd 2 1) ∧
    decode 0x46210000 = .ok (.dqch 2 1) := by decide
theorem test_decode_codec : decode 0x50FA0000 = .ok (.packcw 15 10) ∧ decode 0x51A00000 = .ok (.unpkcw 10 0) ∧ decode 0x52FC0000 = .ok (.cblk 15 12) ∧
    decode 0x53CF0000 = .ok (.dblk 12 15) ∧ decode 0x54010000 = .ok (.emit 1) ∧ decode 0x55200000 = .ok (.take 2) := by decide

/-- 96 section 9.2: a word for each kind of illegality. -/
theorem test_decode_rejects : decode 0x00000000 = .error .unassignedOp ∧ decode 0xFFFFFFFF = .error .unassignedOp ∧
    decode 0x47000000 = .error .unassignedOp ∧ decode 0x01100000 = .error .fieldNotZero ∧ decode 0x03110000 = .error .fieldNotZero ∧
    decode 0x07110000 = .error .fieldNotZero ∧ decode 0x10210004 = .error .fieldNotZero ∧ decode 0x15120002 = .error .fieldNotZero ∧
    decode 0x54110000 = .error .fieldNotZero ∧ decode 0x55110000 = .error .fieldNotZero ∧ decode 0x520D0000 = .error .groupPastX15 ∧
    decode 0x0610FFFF = .error .csrUnassigned ∧ decode 0x07010003 = .error .csrReadOnly := by decide

/-- The opcode-table numbering: bit 0 of the word is bit 0 of the command word. -/
theorem test_decode_table_word : decodeTableWord 32 0x1412125C = some (.setu 1 2 9 23) ∧ decodeTableWord 32 0 = none := by decide

/-! ### System and data movement (96 section 9.1) -/

theorem test_nop : gives (startWith 255 [(1, W)]) 0x01000000 [] = true := by decide +kernel
theorem test_clrf : gives { State.reset with status := 1, cause := 2, fcmd := 0x12210000 } 0x01000000 [] = true ∧
    nextHas (step ({ State.reset with status := 1, cause := 2, fcmd := 0x12210000 }.offerCmd 0x02000000)) (fun t => decide (t = State.reset)) = true := by
  decide +kernel
theorem test_li : gives State.reset 0x03308000 [(3, 0xFFFFFFFFFFFF8000)] = true ∧ gives (startWith 255 [(3, 0xAA)]) 0x03307FFF [(3, 0x7FFF)] = true := by
  decide +kernel
theorem test_lih : gives (startWith 255 [(3, W)]) 0x0430ABCD [(3, 0xBA9876543210ABCD)] = true := by decide +kernel
theorem test_mv : gives (startWith 255 [(1, W)]) 0x05210000 [(2, W)] = true ∧ gives (startWith 255 [(1, W)]) 0x05110000 [] = true := by decide +kernel
theorem test_rdc : gives State.reset 0x06700000 [(7, 255)] = true ∧ gives State.reset 0x06700003 [(7, 0)] = true := by decide +kernel
theorem test_wrc : nextHas (step ((startWith 255 [(1, 100)]).offerCmd 0x07010000)) (fun t => decide (t = startWith 100 [(1, 100)])) = true ∧
    faults (startWith 255 [(1, 256)]) 0x07010000 5 = true := by decide +kernel

/-! ### BitPacker (95 section 3) -/

theorem test_fitsu : gives (startWith 255 [(1, 0xF)]) 0x10210800 [(2, 1)] = true ∧ gives (startWith 255 [(1, 0x10), (2, 0xAA)]) 0x10210800 [(2, 0)] = true := by
  decide +kernel
theorem test_fitss : gives (startWith 255 [(1, 0xFFFFFFFFFFFFFFF0)]) 0x11210A00 [(2, 1)] = true ∧
    gives (startWith 255 [(1, 0xFFFFFFFFFFFFFFEF), (2, 0xAA)]) 0x11210A00 [(2, 0)] = true := by decide +kernel
theorem test_getu : gives (startWith 255 [(1, W)]) 0x12212060 [(2, 0x9876)] = true ∧ faults (startWith 255 [(1, W)]) 0x12210300 2 = true := by decide +kernel
theorem test_gets : gives (startWith 255 [(1, W)]) 0x13210880 [(2, 0xFFFFFFFFFFFFFFF8)] = true ∧ faults (startWith 255 [(1, W)]) 0x1321000C 2 = true := by
  decide +kernel
theorem test_setu : gives (startWith 255 [(1, 0xFFFFFFFFFFFFFFFF), (2, 0x1A3)]) 0x1412125C [(1, 0xFFFFFFFFD1FFFFFF)] = true ∧
    faults (startWith 255 [(1, W), (2, 0x1FF)]) 0x141210E4 2 = true := by decide +kernel
theorem test_sets : gives (startWith 255 [(1, 0xFFFFFFFFFFFFFFFF), (2, 0xFFFFFFFFFFFFFFF0)]) 0x15120A48 [(1, 0xFFFFFFFFFFC3FFFF)] = true ∧
    faults (startWith 255 [(2, 0xFFFFFFFFFFFFFFEF)]) 0x15120A34 3 = true := by decide +kernel

/-! ### ColorTransform (95 section 4) -/

theorem test_rgb2ypp : gives (startWith 255 [(1, 0x0CC84D)]) 0x20410000 [(4, 0x3FE048CBDE4CE471), (5, 0xBFBDE4F7DBE436EE), (6, 0xBFD514FE73165661)] = true := by
  decide +kernel
theorem test_rgb2ypp_operand : faults (startWith 100 [(1, 0x65), (4, 7)]) 0x20410000 5 = true ∧ faults (startWith 255 [(1, 0x1000000)]) 0x20410000 5 = true := by
  decide +kernel
theorem test_ypp2rgb : gives (startWith 255 [(1, 0xAA), (4, 0x3FE0000000000000), (5, 0xBFE0000000000000), (6, 0x3FE0000000000000)]) 0x21140000
    [(1, 0xFF5000)] = true := by decide +kernel
theorem test_ypp2rgb_nan : faults (startWith 255 [(1, 0xAA), (4, 0x7FF0000000000000), (5, 0x7FF0000000000000)]) 0x21140000 6 = true ∧
    gives (startWith 255 [(1, 0xAA), (5, 0x7FF0000000000000)]) 0x21140000 [(1, 0xFF)] = true := by decide +kernel

/-! ### BlockTransform (95 section 5) -/

theorem test_btf : gives (startWith 255 [(0, 0x3FB999999999999A), (1, 0x3FC999999999999A), (2, 0x3FD3333333333333), (3, 0x3FD999999999999A)]) 0x30400000
    [(4, 0x3FD0000000000000), (5, 0x3FB9999999999998), (6, 0x3FA999999999999B), (7, 0x3C60000000000000)] = true := by decide +kernel
theorem test_btf_nan : faults (startWith 255 [(0, 0x7FF0000000000000), (1, 0xFFF0000000000000)]) 0x30400000 6 = true ∧
    gives (startWith 255 [(0, 0x8000000000000000), (1, 0x8000000000000000), (2, 0x8000000000000000), (3, 0x8000000000000000)]) 0x30400000
      [(4, 0x8000000000000000)] = true := by decide +kernel
theorem test_bti : gives (startWith 255 [(0, 0x3FD6C813DA827210), (1, 0xBFA89103B3D49932), (2, 0x3FA6CB2541EDF62C), (3, 0x3FC3219027B504E4)]) 0x31400000
    [(4, 0x3FE048CBDE4CE471), (5, 0x3FD322D0E560418A), (6, 0x3FBD2F1A9FBE76C8), (7, 0x3FE0101010101011)] = true := by decide +kernel
theorem test_bti_nan : faults (startWith 255 [(2, 0x7FF8000000000000)]) 0x31400000 6 = true := by decide +kernel

/-! ### Quantizer (95 section 6) -/

theorem test_avg4 : gives (startWith 255 [(0, 0xBFBDE4F7DBE436EE), (1, 0xBFC5992428D434A0), (2, 0x3FE0000000000000)]) 0x40400000 [(4, 0x3FAB745FE939AFE8)] = true ∧
    faults (startWith 255 [(0, 0x7FF8000000000000)]) 0x40400000 6 = true := by decide +kernel
theorem test_qa : gives (startWith 255 [(1, 0x3FEFF80000000000)]) 0x41210000 [(2, 0x200)] = true ∧ gives (startWith 255 [(1, 0x4350000000000000)]) 0x41210000
    [(2, 0x8000000000000000)] = true := by decide +kernel
theorem test_qa_faults : faults (startWith 255 [(1, 0xBF50000000000000)]) 0x41210000 3 = true ∧ faults (startWith 255 [(1, 0x7FF0000000000000)]) 0x41210000 3 = true ∧
    faults (startWith 255 [(1, 0x7FF0000000000001)]) 0x41210000 6 = true := by decide +kernel
theorem test_qbcd : gives (startWith 255 [(1, 0xBFA89103B3D49932)]) 0x42210000 [(2, 0xFFFFFFFFFFFFFFFE)] = true ∧ gives (startWith 255 [(1, 0x3F84467381D7DBF5)]) 0x42210000
    [] = true ∧ faults (startWith 255 [(1, 0x7FF8000000000000)]) 0x42210000 6 = true := by decide +kernel
/-- The index is the table's, whatever the table. -/
theorem test_qch : step ((startWith 255 [(1, 0x3FA0000000000000)]).offerCmd 0x43210000) =
    .next ((startWith 255 [(1, 0x3FA0000000000000)]).writeReg 2 ((Config.chromaIndexOf 0x3FA0000000000000).setWidth 64)) := by rfl
theorem test_qch_nan : faults (startWith 255 [(1, 0x7FF8000000000000)]) 0x43210000 6 = true := by decide +kernel
theorem test_dqa : gives (startWith 255 [(1, 0x101)]) 0x44210000 [(2, 0x3FE0100000000000)] = true ∧ gives (startWith 255 [(1, 0xFFFFFFFFFFFFFFFF)]) 0x44210000
    [(2, 0x4360000000000000)] = true := by decide +kernel
theorem test_dqbcd : gives (startWith 255 [(1, 3)]) 0x45210000 [(2, 0x3FAEB851EB851EB7)] = true ∧ gives (startWith 255 [(1, 0xFFFFFFFFFFFFFFF0)]) 0x45210000
    [(2, 0xBFD47AE147AE147B)] = true := by decide +kernel
theorem test_dqch : step ((startWith 255 [(1, 9)]).offerCmd 0x46210000) =
    .next ((startWith 255 [(1, 9)]).writeReg 2 (tableBits (Config.chromaOfIndex 9))) := by rfl
theorem test_dqch_index : faults (startWith 255 [(1, 256)]) 0x46210000 5 = true := by decide +kernel

/-! ### Codec (96 section 8) -/

theorem test_packcw : gives (startWith 255 [(6, 182), (7, 0xFFFFFFFFFFFFFFFE), (8, 2), (9, 7), (10, 9), (11, 8)]) 0x50060000 [(0, 0x5B784798)] = true ∧
    faults (startWith 255 [(8, 0xFFFFFFFFFFFFFFEF)]) 0x50060000 3 = true := by decide +kernel
theorem test_unpkcw : gives (startWith 255 [(0, 0xFFBE3FF0)]) 0x51600000 [(6, 511), (7, 15), (8, 0xFFFFFFFFFFFFFFF1), (9, 0xFFFFFFFFFFFFFFFF), (10, 15)] = true ∧
    faults (startWith 255 [(0, 0x100000000)]) 0x51600000 5 = true := by decide +kernel
/-- Section 8.3 with `TAB_FIX` in the place of the open table. -/
theorem test_compress_block : compressBlock tabIndexOf ⟨⟨0x0C, 0xC8, 0x4D⟩, ⟨0xFF, 0, 0⟩, ⟨0, 0, 0xFF⟩, ⟨0x80, 0x80, 0x80⟩⟩ 255 = .ok 0x5B784798 := by decide +kernel
theorem test_cblk_faults : faults (startWith 255 [(4, 0xFFFFFF), (5, 0xFFFFFF), (6, 0xFFFFFF), (7, 0xFFFFFF)]) 0x52140000 3 = true ∧
    faults (startWith 49 [(4, 0x326400), (5, 0x326400), (6, 0x326400), (7, 0x326400)]) 0x52140000 5 = true := by decide +kernel
theorem test_decompress_block : decompressBlock tabOfIndex 0x8B84405B 255 =
    .ok ⟨⟨0xBF, 0x6A, 0x27⟩, ⟨0xD3, 0x7E, 0x3B⟩, ⟨0xC9, 0x74, 0x31⟩, ⟨0xDD, 0x89, 0x46⟩⟩ := by decide +kernel
theorem test_dblk_operand : faults (startWith 255 [(1, 0x100000000)]) 0x53410000 5 = true := by decide +kernel
theorem test_emit : nextHas (step ((startWith 255 [(1, 0x01020304)]).offerCmd 0x54010000))
    (fun t => decide (t = { startWith 255 [(1, 0x01020304)] with sout := [1, 2, 3, 4] })) = true ∧ faults (startWith 255 [(1, 0x100000000)]) 0x54010000 5 = true := by
  decide +kernel
theorem test_take : nextHas (step ({ State.reset with sin := [1, 2, 3, 4, 5] }.offerCmd 0x55200000))
    (fun t => decide (t = { startWith 255 [(2, 0x01020304)] with sin := [5] })) = true ∧ faults { State.reset with sin := [5] } 0x55200000 4 = true := by
  decide +kernel

/-! ### Faults, the host's moves, pseudo-commands, the host's raster (96 sections 9.2, 9.3, 9.1, 11; 30 R95) -/

theorem test_illegal_word : faults (startWith 255 [(1, 5)]) 0x00000000 1 = true ∧ faults (startWith 255 [(1, 5)]) 0x07010001 1 = true := by decide +kernel
theorem test_faulted_discards : gives { State.reset with status := 1, cause := 2, fcmd := 0x12210000 } 0x03300007 [] = true ∧
    gives { State.reset with status := 1, cause := 2, fcmd := 0x12210000 } 0x02000001 [] = true := by decide +kernel
theorem test_host_push : nextHas (step { State.reset with sin := [1], port := [.push [2, 3]] }) (fun t => decide (t = { State.reset with sin := [1, 2, 3] })) = true := by
  decide +kernel
theorem test_host_reset : nextHas (step { startWith 7 [(1, W)] with status := 1, cause := 5, sin := [1], sout := [2], port := [.reset] })
    (fun t => decide (t = State.reset)) = true := by decide +kernel
theorem test_observe : ({ startWith 100 [(1, W)] with status := 1, cause := 3, fcmd := 7, sout := [9] } : State).observe =
    ⟨(startWith 100 [(1, W)]).x, 100, 1, 3, 7, [9], true⟩ := by decide +kernel
theorem test_li64 : (Pseudo.li64 1 0xBFD514FE73165661).expand.map encode = [0x0310BFD5, 0x041014FE, 0x04107316, 0x04105661] := by decide +kernel
theorem test_asm_text : asmText (.setu 1 2 9 23) = "SETU x1, x2, 9, 23" ∧ asmText (.li 3 0x8000) = "LI x3, -32768" ∧ asmText (.rdc 7 2) = "RDC x7, CAUSE" := by
  decide +kernel
theorem test_block_raster : blockPositions 4 3 = ⟨(2, 2), (2, 3), (3, 2), (3, 3)⟩ ∧ blockCount 4 4 = 4 := by decide

/-! ### The image of 96 section 11 through the host's procedures, as far as no table is needed -/

/-- Width 5, height 3. -/
def image11 : Image := ⟨5, 3, [⟨10, 20, 30⟩, ⟨40, 50, 60⟩, ⟨200, 100, 50⟩, ⟨220, 120, 70⟩, ⟨1, 2, 3⟩] ++
  [⟨12, 22, 32⟩, ⟨42, 52, 62⟩, ⟨210, 110, 60⟩, ⟨230, 130, 80⟩, ⟨4, 5, 6⟩] ++ List.replicate 5 ⟨7, 8, 9⟩⟩

/-- The result and the block's state after a frame. -/
def frameGives {α : Type} [DecidableEq α] (r : Host.Outcome (State × Except FrameError α) Fault Refusal) (e : Except FrameError α) (p : State → Bool) : Bool :=
  match r, e with
  | .next (t, .ok a), .ok b => decide (a = b) && p t
  | .next (t, .error a), .error b => decide (a = b) && p t
  | _, _ => false

theorem test_image_moves : (compressMoves image11 255).map (fun gs => (gs.length, gs[2]?)) =
    some (3, some ([0x034000C8, 0x04406432, 0x035000DC, 0x04507846, 0x036000D2, 0x04606E3C, 0x037000E6, 0x04708250, 0x52140000, 0x54010000].map .cmd)) := by
  decide +kernel
theorem test_image_wrong_length : frameGives (compressImage { image11 with height := 4 } 255 State.reset) (.error .dimension) (fun t => t == State.reset) = true := by
  decide +kernel
/-- A 1x1 image trims to nothing; what SOUT held before is not this frame's. -/
theorem test_image_trims_to_nothing :
    frameGives (compressImage ⟨1, 1, [⟨1, 2, 3⟩]⟩ 9 { State.reset with sout := [8, 8, 8, 8] }) (.ok ⟨[], 0, 0⟩) (fun t => t.denom == 9) = true := by
  decide +kernel
/-- White overflows whatever the table (R176): the frame stops, and no byte is handed on, not even the four the log held before. -/
theorem test_image_fault_stops_frame :
    frameGives (compressImage ⟨4, 2, List.replicate 8 ⟨255, 255, 255⟩⟩ 255 { State.reset with sout := [8, 8, 8, 8] }) (.error (.blockFault 3 0x52140000))
      (fun t => t.sout == [8, 8, 8, 8] && t.faultLine) = true := by decide +kernel
/-- `WRC` of 0 raises OPR (R206), before a pixel is sent. -/
theorem test_image_denom_zero : frameGives (compressImage image11 0 State.reset) (.error (.blockFault 5 0x07010000)) (fun t => t.readReg 4 == 0) = true := by
  decide +kernel
theorem test_stream_wrong_count : frameGives (decompressImage [1, 2, 3, 4] 4 2 255 State.reset) (.error .count) (fun t => t == State.reset) = true := by
  decide +kernel
theorem test_image_assembled : assemble [⟨⟨19, 19, 19⟩, ⟨50, 50, 50⟩, ⟨19, 19, 19⟩, ⟨50, 50, 50⟩⟩, ⟨⟨191, 106, 39⟩, ⟨211, 126, 59⟩, ⟨201, 116, 49⟩, ⟨221, 137, 70⟩⟩] 4 2 =
    ⟨4, 2, [⟨19, 19, 19⟩, ⟨50, 50, 50⟩, ⟨191, 106, 39⟩, ⟨211, 126, 59⟩, ⟨19, 19, 19⟩, ⟨50, 50, 50⟩, ⟨201, 116, 49⟩, ⟨221, 137, 70⟩]⟩ := by
  decide +kernel

/-! ### Witnesses: a state and operands that meet the hypotheses of each obligation -/

/-- The block FAULTED by `GETU x2, x1, 0, 0` (96 section 9.3). -/
def faulted : State := { State.reset with status := 1, cause := 2, fcmd := 0x12210000 }

theorem witness_DecodeOfEncode : (Instr.unpkcw 10 15).WellFormed ∧ (Instr.wrc 0 15).WellFormed ∧ (Instr.getu 15 15 127 127).WellFormed := by decide
theorem witness_EncodeOfDecode : decode 0x51AF0000 = .ok (.unpkcw 10 15) := by decide
theorem witness_DecodeFollowsOpcodeMap : (∃ row ∈ opcodeRows, row.hasPattern 0x20D10000 = true ∧ row.extra 0x20D10000 = true) ∧ decode 0x20D10000 = .ok (.rgb2ypp 13 1) := by
  decide
theorem witness_IllegalWordTakesIll : ({ State.reset with port := [.cmd 0x20E10000] } : State).status = 0 ∧
    (∀ row ∈ opcodeRows, row.hasPattern 0x20E10000 = true → row.extra 0x20E10000 = false) := by decide
theorem witness_StepRunsDecodedCommand : (State.reset.withFetchWord 32 0x03307FFF).status = 0 ∧
    (State.reset.withFetchWord 32 0x03307FFF).port = [.cmd 0x03307FFF] ∧ decode 0x03307FFF = .ok (.li 3 0x7FFF) := by decide
theorem witness_FaultedDiscardsAllButClrf : (faulted.offerCmd 0x02000000).status = 1 ∧ (faulted.offerCmd 0x02000000).port = [.cmd 0x02000000] ∧
    (faulted.offerCmd 0x02000001).port = [.cmd 0x02000001] ∧ (0x02000001 : CmdWord) ≠ 0x02000000 ∧
    ({ faulted with port := [.push [], .observe, .reset] } : State).status = 1 := by decide
theorem witness_HostMovesEffect : ({ State.reset with port := [.push [7], .reset] } : State).port = .push [7] :: [.reset] ∧
    ({ State.reset with port := [.observe] } : State).port = .observe :: [] ∧ ({ faulted with port := [.reset] } : State).port = .reset :: [] ∧
    State.reset.port = [] := by decide
theorem witness_FaultEntryChangesNothingElse : (State.reset.offerCmd 0x12210000).status = 0 ∧ (State.reset.offerCmd 0x12210000).port = [.cmd 0x12210000] ∧
    step (State.reset.offerCmd 0x12210000) = .next faulted ∧ faulted.status = 1 := ⟨rfl, rfl, rfl, rfl⟩
theorem witness_FaultEntryChangesNothingElse_ill : (State.reset.offerCmd 0xFFFFFFFF).status = 0 ∧
    step (State.reset.offerCmd 0xFFFFFFFF) = .next { State.reset with status := 1, cause := 1, fcmd := 0xFFFFFFFF } := ⟨rfl, rfl⟩
theorem witness_ResetStateAsStated : ({ faulted with port := [.reset, .observe] } : State).port = .reset :: [.observe] := rfl
/-- Every opcode has words; test_decode_rejects shows rejected ones of each format. -/
theorem witness_decodesAs : ∀ op : BitVec 8, (op ++ (0 : BitVec 24)).extractLsb' 24 8 = op := by decide
theorem witness_IllFormedTakesIll : ¬ (Instr.rgb2ypp 14 0).WellFormed ∧ ¬ (Instr.unpkcw 11 0).WellFormed ∧ ¬ (Instr.rdc 0 4).WellFormed ∧
    ¬ (Instr.wrc 3 0).WellFormed := by decide
theorem witness_StepKeepsLegal : (State.reset.offerCmd 0x12210000).Legal ∧ faulted.Legal ∧ step (State.reset.offerCmd 0x12210000) = .next faulted :=
  ⟨by unfold State.Legal; decide, by unfold State.Legal; decide, rfl⟩
theorem witness_StepKeepsFaultRecord : faulted.FaultRecorded ∧ faulted.status = 1 ∧ step faulted = .next faulted :=
  ⟨fun _ => ⟨.bfr, rfl, by simp only [canRaise, show decode faulted.fcmd = .ok (.getu 2 1 0 0) by decide]; decide⟩, rfl, rfl⟩
theorem witness_FaultedLeftOnlyByClrfOrReset : (faulted.offerCmd 0x02000000).status = 1 ∧
    step (faulted.offerCmd 0x02000000) = .next State.reset ∧ step { faulted with port := [.reset] } = .next State.reset ∧ State.reset.status = 0 :=
  ⟨rfl, rfl, rfl, rfl⟩
theorem witness_StreamsChangeOnlyByTheirMoves :
    step (State.reset.offerCmd 0x54010000) = .next { State.reset with sout := [0, 0, 0, 0] } ∧
    step ({ State.reset with sin := [0, 0, 0, 0] }.offerCmd 0x55200000) = .next State.reset := ⟨rfl, rfl⟩
theorem witness_RegistersOutsideDestination : exec (.li 3 7) State.reset = .next (startWith 255 [(3, 7)]) ∧ (2 : Reg) ∉ destRegs (.li 3 7) :=
  ⟨rfl, by decide⟩
theorem witness_RegistersOutsideDestination_fault : exec (.getu 2 1 0 0) State.reset = .next faulted ∧ State.reset.status = 0 ∧ faulted.status = 1 :=
  ⟨rfl, rfl, rfl⟩
theorem witness_RegisterCommandsFrame : Instr.li 3 7 ≠ .clrf ∧ (∀ csr rs1, Instr.li 3 7 ≠ .wrc csr rs1) ∧ (∀ rs1, Instr.li 3 7 ≠ .emit rs1) ∧
    (∀ rd, Instr.li 3 7 ≠ .take rd) ∧ exec (.li 3 7) State.reset = .next (startWith 255 [(3, 7)]) := by
  refine ⟨by decide, ?_, ?_, ?_, rfl⟩ <;> intros <;> simp
theorem witness_ControlAndStreamCommandsFrame : exec (.wrc 0 1) (startWith 255 [(1, 100)]) = .next (startWith 100 [(1, 100)]) ∧
    exec (.emit 1) State.reset = .next { State.reset with sout := [0, 0, 0, 0] } ∧
    exec (.take 2) { State.reset with sin := [0, 0, 0, 0] } = .next State.reset ∧ exec .clrf faulted = .next State.reset := ⟨rfl, rfl, rfl, rfl⟩
theorem witness_ControlAndStreamCommandsFrame_fault :
    exec (.wrc 0 1) State.reset = .next { State.reset with status := 1, cause := 5, fcmd := 0x07010000 } ∧
    exec (.emit 1) (startWith 255 [(1, 0x100000000)]) = .next { startWith 255 [(1, 0x100000000)] with status := 1, cause := 5, fcmd := 0x54010000 } ∧
    exec (.take 2) State.reset = .next { State.reset with status := 1, cause := 4, fcmd := 0x55200000 } := ⟨rfl, rfl, rfl⟩
/-- Two blocks that differ in `x[9]`, in the rest of SIN and in SOUT only. -/
theorem witness_CommandsSeeOnlyTheirSources :
    let s := startWith 255 [(1, 5), (9, 1)]
    let u : State := { startWith 255 [(1, 5), (9, 2)] with sin := [], sout := [1, 2, 3, 4] }
    s.Legal ∧ u.Legal ∧ s.status = 0 ∧ u.status = 0 ∧ s.denom = u.denom ∧ s.sin.take 4 = u.sin.take 4 ∧
      (∀ q ∈ sourceRegs (.mv 2 1), s.readReg q = u.readReg q) ∧ s ≠ u ∧ exec (.mv 2 1) s = .next (s.writeReg 2 5) ∧
      exec (.mv 2 1) u = .next (u.writeReg 2 5) := by
  refine ⟨by unfold State.Legal; decide, by unfold State.Legal; decide, rfl, rfl, rfl, rfl, ?_, by decide, rfl, rfl⟩
  decide
theorem witness_ClrfReturnsToRunning : State.reset.Legal ∧ State.reset.status = 0 ∧ (faulted.offerCmd 0x02000001).status = 1 ∧
    (faulted.offerCmd 0x02000001).port = [.cmd 0x02000001] ∧ (0x02000001 : CmdWord) ≠ 0x02000000 := by unfold State.Legal; decide
theorem witness_RdcReadsCsr : (3 : BitVec 16).toNat ≤ 3 ∧ (3 : BitVec 16) ≠ 0 ∧ State.reset.Legal ∧ State.reset.status = 0 ∧ 3 < (4 : BitVec 16).toNat := by
  unfold State.Legal; decide
theorem witness_WrcWritesDenom :
    (1 ≤ ((startWith 255 [(1, 1)]).readReg 1).toNat ∧ ((startWith 255 [(1, 1)]).readReg 1).toNat ≤ 255) ∧
    (1 ≤ ((startWith 255 [(1, 255)]).readReg 1).toNat ∧ ((startWith 255 [(1, 255)]).readReg 1).toNat ≤ 255) ∧
    (State.reset.readReg 1).toNat = 0 ∧ 255 < ((startWith 255 [(1, 256)]).readReg 1).toNat ∧ (3 : BitVec 16) ≠ 0 := by decide +kernel
theorem witness_GetCommandsReadField : (1 ≤ (64 : BitVec 7).toNat ∧ (0 : BitVec 7).toNat + (64 : BitVec 7).toNat ≤ 64) ∧
    (1 ≤ (1 : BitVec 7).toNat ∧ (63 : BitVec 7).toNat + (1 : BitVec 7).toNat ≤ 64) ∧ (0 : BitVec 7).toNat = 0 ∧
    64 < (64 : BitVec 7).toNat + (1 : BitVec 7).toNat := by decide
/-- Width 9: 511 fits unsigned and 512 does not; width 5: -16 fits signed, 16 and -17 do not; the field 57..64 is not valid. -/
theorem witness_SetCommandsWriteField : (1 ≤ (9 : BitVec 7).toNat ∧ (55 : BitVec 7).toNat + (9 : BitVec 7).toNat ≤ 64) ∧ ((511 : Word).toNat < 2 ^ 9 ∧ 2 ^ 9 ≤ (512 : Word).toNat) ∧
    (-(2 : Int) ^ 4 ≤ (0xFFFFFFFFFFFFFFF0 : Word).toInt ∧ (0xFFFFFFFFFFFFFFF0 : Word).toInt < (2 : Int) ^ 4) ∧ (2 : Int) ^ 4 ≤ (16 : Word).toInt ∧
    (0xFFFFFFFFFFFFFFEF : Word).toInt < -(2 : Int) ^ 4 ∧ 64 < (57 : BitVec 7).toNat + (8 : BitVec 7).toNat := by decide +kernel
theorem witness_FieldRoundTrip : (1 ≤ 64 ∧ 0 + 64 ≤ 64 ∧ 2 ^ 64 - 1 < 2 ^ 64) ∧ (1 ≤ 1 ∧ 63 + 1 ≤ 64 ∧ -(2 : Int) ^ 0 ≤ -1 ∧ (-1 : Int) < (2 : Int) ^ 0) ∧
    (64 : Nat) < 64 ∨ (0 + 64 : Nat) ≤ 64 := by decide +kernel
theorem witness_Rgb2yppConverts : (13 : Reg).val ≤ 13 ∧ (0x646464 : Word).toNat < 2 ^ 24 ∧ ((0x646464 : Word).extractLsb' 16 8).toNat ≤ 100 ∧
    ((0x646464 : Word).extractLsb' 8 8).toNat ≤ 100 ∧ ((0x646464 : Word).extractLsb' 0 8).toNat ≤ 100 ∧ 2 ^ 24 ≤ (0x1000000 : Word).toNat ∧
    100 < ((0x650000 : Word).extractLsb' 16 8).toNat := by decide +kernel
theorem witness_ChromaOfLegalPixelInRange : 1 ≤ 255 ∧ (255 : BitVec 8).toNat ≤ 255 ∧ (1 : BitVec 8).toNat ≤ 1 := by decide
/-- White, and an infinite luma with an infinite chroma-blue (the green channel is then a NaN). -/
theorem witness_Ypp2rgbConverts :
    (let t : Ypp := ⟨0x3FF0000000000000, 0, 0⟩
     isNaN t.y = false ∧ isNaN t.pb = false ∧ isNaN t.pr = false ∧ isNaN (chromaToRgbLinear t).r = false ∧ isNaN (chromaToRgbLinear t).g = false ∧
       isNaN (chromaToRgbLinear t).b = false) ∧
    isNaN (chromaToRgbLinear ⟨0x7FF0000000000000, 0x7FF0000000000000, 0⟩).g = true ∧ isNaN 0x7FF0000000000001 = true := by decide +kernel
theorem witness_Ypp2rgbPixelIsLegal : isNaN 0xFFF0000000000000 = false ∧ 1 ≤ State.reset.den ∧ State.reset.status = 0 ∧
    nextHas (exec (.ypp2rgb 1 4) State.reset) (fun t => t.status == 0) = true := by decide +kernel
theorem witness_BlockTransformCommands : (12 : Reg).val ≤ 12 ∧ isNaN (0 : Word) = false ∧ isNaN (fdiv (fadd (fadd (fadd 0 0) 0) 0) 0x4010000000000000) = false ∧
    isNaN (fdiv (fsub (fsub (fadd 0 0) 0) 0) 0x4010000000000000) = false ∧ isNaN (fadd (fsub (fsub 0 0) 0) 0) = false ∧
    isNaN (fadd 0x7FF0000000000000 0xFFF0000000000000) = true ∧ isNaN 0x7FF8000000000000 = true := by decide +kernel
theorem witness_NoComputedNaNIsWritten : State.reset.status = 0 ∧ nextHas (exec (.btf 4 0) State.reset) (fun t => t.status == 0) = true ∧
    nextHas (exec (.dqbcd 2 1) State.reset) (fun t => t.status == 0) = true ∧ nextHas (exec (.avg4 4 0) State.reset) (fun t => t.status == 0) = true ∧
    1 ≤ (startWith 1 []).den ∧ (startWith 1 []).status = 0 ∧ nextHas (exec (.rgb2ypp 13 1) (startWith 1 [])) (fun t => t.status == 0) = true := by
  decide +kernel
theorem witness_Avg4Means : (12 : Reg).val ≤ 12 ∧ isNaN (fdiv (fadd (fadd (fadd 0 0) 0) 0) 0x4010000000000000) = false ∧
    isNaN (fdiv (fadd (fadd (fadd 0x7FF0000000000000 0xFFF0000000000000) 0) 0) 0x4010000000000000) = true := by decide +kernel
/-- 2^54 gives 2^63, the largest power that fits; 2^55, minus 1/1024 and infinity do not. -/
theorem witness_QaScales :
    (let p := fround (fmul 0x4350000000000000 0x4080000000000000); isInf p = false ∧ 0 ≤ f2i p ∧ f2i p < 2 ^ 64) ∧
    2 ^ 64 ≤ f2i (fround (fmul 0x4360000000000000 0x4080000000000000)) ∧ f2i (fround (fmul 0xBF50000000000000 0x4080000000000000)) < 0 ∧
    isInf (fround (fmul 0x7FF0000000000000 0x4080000000000000)) = true ∧ isNaN 0x7FF0000000000001 = true := by decide +kernel
theorem witness_QbcdAndQchQuantize : isNaN 0x7FF0000000000000 = false ∧ isNaN 0xFFF8000000000000 = true := by decide
theorem witness_DequantizeCommands : ((startWith 255 [(1, 255)]).readReg 1).toNat = (255 : BitVec 8).toNat ∧ 255 < ((startWith 255 [(1, 256)]).readReg 1).toNat := by
  decide +kernel
theorem witness_QuantBcdSaturates : isNaN 0x3FD3333333333333 = false ∧ flt 0x3FD3333333333333 0x3FD3333333333333 = false ∧
    flt 0xBFD3333333333333 0xBFD3333333333333 = false := by decide +kernel
theorem witness_QuantAOnUnitInterval : isNaN 0x3FF0000000000000 = false ∧ flt 0x3FF0000000000000 0 = false ∧ flt 0x3FF0000000000000 0x3FF0000000000000 = false ∧
    flt 0x8000000000000000 0 = false := by decide +kernel
theorem witness_QuantizeOfDequantize : quantA (dequantA 511) = .ok 511 ∧ quantBcd (dequantBcd (-15)) = -15 ∧ quantBcd (dequantBcd 15) = 15 := by decide +kernel
theorem witness_PackcwBuildsCodeword : (10 : Reg).val ≤ 10 ∧ fitsCodeword ⟨511, -16, 15, -16, 15, 15⟩ = true ∧ fitsCodeword ⟨512, 0, 0, 0, 0, 0⟩ = false := by
  decide +kernel
theorem witness_UnpkcwSplitsCodeword : (10 : Reg).val ≤ 10 ∧ (0xFFFFFFFF : Word).toNat < 2 ^ 32 ∧ 2 ^ 32 ≤ (0x100000000 : Word).toNat := by decide +kernel
theorem witness_PackUnpackInverse : packCw ⟨511, -16, 15, -1, 15, 0⟩ = .ok 0xFFC1FFF0 := by decide +kernel
/-- Legal pixels that quantise (black), legal pixels that do not (white), an illegal one. -/
theorem witness_CblkCompresses : (12 : Reg).val ≤ 12 ∧ pixelLegal 0 255 = true ∧ pixelLegal 0xFFFFFF 255 = true ∧ pixelLegal 0x1000000 255 = false ∧
    quantA (blockForward ⟨0, 0, 0, 0⟩).a = .ok 0 ∧
    (let y := (rgbToChroma ⟨255, 255, 255⟩ 255).y; quantA (blockForward ⟨y, y, y, y⟩).a = .ok 512) := by decide +kernel
/-- Four white pixels: legal, and `CBLK` faults whatever the table. -/
def white : State := startWith 255 [(4, 0xFFFFFF), (5, 0xFFFFFF), (6, 0xFFFFFF), (7, 0xFFFFFF)]
theorem witness_CblkFaultsOnlyByOverflow : (4 : Reg).val ≤ 12 ∧ 1 ≤ white.den ∧ white.status = 0 ∧ pixelLegal (white.readReg 4) white.den = true ∧
    pixelLegal (white.readReg (Reg.plus 4 1)) white.den = true ∧ pixelLegal (white.readReg (Reg.plus 4 2)) white.den = true ∧
    pixelLegal (white.readReg (Reg.plus 4 3)) white.den = true ∧
    nextHas (exec (.cblk 1 4) white) (fun t => t.status == 1) = true := by decide +kernel
theorem witness_WhiteBlockOverflows : (4 : Reg).val ≤ 12 ∧ 1 ≤ white.den ∧
    (∀ j, j < 4 → white.readReg (Reg.plus 4 j) = (white.denom ++ white.denom ++ white.denom).setWidth 64) := by decide +kernel
/-- The clause on the channels depends on the open table, so only the operand's two sides can be shown. -/
theorem witness_DblkDecompresses : (12 : Reg).val ≤ 12 ∧ (0xFFFFFFFF : Word).toNat < 2 ^ 32 ∧ 2 ^ 32 ≤ (0x100000000 : Word).toNat := by decide +kernel
theorem witness_EmitAppendsBigEndian : ((startWith 255 [(1, 0xFFFFFFFF)]).readReg 1).toNat < 2 ^ 32 ∧ 2 ^ 32 ≤ ((startWith 255 [(1, 0x100000000)]).readReg 1).toNat := by
  decide +kernel
theorem witness_TakeRemovesFour : ({ State.reset with sin := [1, 2, 3, 4] } : State).sin = 1 :: 2 :: 3 :: 4 :: [] ∧
    ({ State.reset with sin := [1, 2, 3] } : State).sin.length < 4 := by decide
theorem witness_EmitThenTake : State.reset.status = 0 ∧ exec (.emit 1) State.reset = .next { State.reset with sout := [0, 0, 0, 0] } ∧
    ({ State.reset with sin := [0, 0, 0, 0, 9] } : State).sin = ([0, 0, 0, 0] : List Byte).drop State.reset.sout.length ++ [9] := ⟨rfl, rfl, rfl⟩
theorem witness_RoundsToNearestEven : expBits 0x7FEFFFFFFFFFFFFF ≠ 2047 ∧ expBits 0x0000000000000001 ≠ 2047 ∧ units 0x8000000000000001 ≠ 0 := by decide +kernel
theorem witness_SpecialValuesFollowIeee : isNaN 0x7FF0000000000001 = true ∧ isInf 0x7FF0000000000000 = true ∧ isInf 0xFFF0000000000000 = true ∧
    isNeg 0x7FF0000000000000 ≠ isNeg 0xFFF0000000000000 ∧ expBits 0x8000000000000000 ≠ 2047 ∧ units 0x8000000000000000 = 0 ∧
    units 0x0000000000000001 ≠ 0 ∧ units 0x3FF0000000000000 + units 0xBFF0000000000000 = 0 ∧
    units 0x8000000000000000 - units 0x0000000000000000 = 0 ∧ isNeg 0x8000000000000000 = true ∧ isNeg 0x0000000000000000 = false ∧
    units 0xBFF0000000000000 - units 0xBFF0000000000000 = 0 := by decide +kernel
/-- The four signs of a difference of zeros (IEEE 754, round to nearest; R15). -/
theorem test_fsub_zero_signs : fsub 0x8000000000000000 0 = 0x8000000000000000 ∧ fsub 0 0 = 0 ∧ fsub 0 0x8000000000000000 = 0 ∧
    fsub 0x8000000000000000 0x8000000000000000 = 0 := by decide +kernel
theorem witness_FroundTiesAway : isInf 0xFFF0000000000000 = true ∧ expBits 0x3FE0000000000000 ≠ 2047 ∧
    2 * (units (fround 0x3FE0000000000000) - units 0x3FE0000000000000).natAbs = oneU := by decide +kernel
theorem witness_LiteralsAndSmallIntegersExact : (-(2 : Int) ^ 53).natAbs ≤ 2 ^ 53 ∧ 0 < 1 := by decide +kernel
theorem witness_PseudoCommandsLoad : (0x7FFFFFFF : BitVec 32).toNat < 2 ^ 31 := by decide
theorem witness_BlockRasterCoversImage : 4 % 2 = 0 ∧ 2 % 2 = 0 ∧ 1 < 2 ∧ 3 < 4 ∧ (1, 3) ∈ (blockPositions 4 1).toList ∧ 1 < blockCount 4 2 := by decide

end Sys2Proof.Tests
end

namespace Sys2Proof.Machine

/-!
The floating-point primitives meet their rules (00_scope.md R14 to R21). The magnitudes of floats grow with their bits; a quotient lies between
two neighbouring floats, of which `roundMag` takes the nearer one, the even one on a tie; under a sign this is what `roundsTo` asks.
-/

/-! ### The magnitudes of floats in the order of their bits -/

theorem magOfBits_subnormal {m : Nat} (h : m < 2 ^ 52) : magOfBits m = m := by
  rw [magOfBits, if_pos (Nat.div_eq_of_lt h), Nat.mod_eq_of_lt h]

theorem magOfBits_normal (e : Nat) {f : Nat} (h : f < 2 ^ 52) : magOfBits ((e + 1) * 2 ^ 52 + f) = (2 ^ 52 + f) * 2 ^ e := by
  have he : ((e + 1) * 2 ^ 52 + f) / 2 ^ 52 = e + 1 := by omega
  have hf : ((e + 1) * 2 ^ 52 + f) % 2 ^ 52 = f := by omega
  rw [magOfBits, he, hf, if_neg e.succ_ne_zero, Nat.add_sub_cancel]

/-- The bits that `roundMag` builds from a shift and a significand hold the significand times the shift's power of two, also when a
significand of 2^53 carries into the exponent field. -/
theorem magOfBits_of_significand {sh q : Nat} (hq : q ≤ 2 ^ 53) (hn : 0 < sh → 2 ^ 52 ≤ q) :
    magOfBits (sh * 2 ^ 52 + q) = q * 2 ^ sh := by
  rcases Nat.lt_or_ge q (2 ^ 52) with h | h
  · obtain rfl : sh = 0 := by omega
    rw [Nat.zero_mul, Nat.zero_add, magOfBits_subnormal h, Nat.pow_zero, Nat.mul_one]
  · rcases Nat.lt_or_eq_of_le hq with h' | rfl
    · have hm : sh * 2 ^ 52 + q = (sh + 1) * 2 ^ 52 + (q - 2 ^ 52) := by omega
      rw [hm, magOfBits_normal sh (by omega), Nat.add_sub_cancel' h]
    · have hm : sh * 2 ^ 52 + 2 ^ 53 = (sh + 1 + 1) * 2 ^ 52 + 0 := by omega
      rw [hm, magOfBits_normal (sh + 1) (by decide), Nat.pow_succ 2 sh]
      ring

/-- Every pattern's bits are a shift and a significand of at most 53 bits, exactly 53 above the subnormals. -/
theorem exists_significand (m : Nat) : ∃ sh q, m = sh * 2 ^ 52 + q ∧ q < 2 ^ 53 ∧ (0 < sh → 2 ^ 52 ≤ q) :=
  ⟨m / 2 ^ 52 - 1, m - (m / 2 ^ 52 - 1) * 2 ^ 52, by omega, by omega, by omega⟩

theorem magOfBits_strictMono : StrictMono magOfBits :=
  strictMono_nat_of_lt_succ fun m => by
    obtain ⟨sh, q, rfl, hq, hn⟩ := exists_significand m
    rw [Nat.add_assoc, magOfBits_of_significand hq.le hn, magOfBits_of_significand hq fun h => Nat.le_succ_of_le (hn h)]
    exact Nat.mul_lt_mul_of_pos_right q.lt_succ_self (Nat.two_pow_pos sh)

/-- Every significand of at most 53 bits, or 2^53, times a power of two is a float's magnitude. -/
theorem exists_magOfBits_eq (e : Nat) {q : Nat} (hq : q ≤ 2 ^ 53) :
    ∃ m, m ≤ (e + 2) * 2 ^ 52 ∧ magOfBits m = q * 2 ^ e := by
  induction e generalizing q with
  | zero =>
    exact ⟨q, by omega, by simpa only [Nat.zero_mul, Nat.zero_add] using magOfBits_of_significand (sh := 0) hq (by omega)⟩
  | succ e ih =>
    rcases Nat.lt_or_ge q (2 ^ 52) with h | h
    · obtain ⟨m, hm, hv⟩ := ih (q := q * 2) (by omega)
      exact ⟨m, hm.trans (Nat.mul_le_mul_right _ (Nat.le_succ _)), by rw [hv, Nat.pow_succ', Nat.mul_assoc]⟩
    · exact ⟨(e + 1) * 2 ^ 52 + q, by omega, magOfBits_of_significand hq fun _ => h⟩

/-! ### The two floats that enclose a quotient, and which of them is taken -/

/-- The bits of the largest float not above the quotient `n / d`, the exponent unbounded. -/
def floorMag (n d : Nat) : Nat :=
  (Nat.log2 (n / d) - 52) * 2 ^ 52 + n / (d * 2 ^ (Nat.log2 (n / d) - 52))

/-- The significand of `floorMag` has at most 53 bits, and above the subnormals exactly 53. -/
theorem floorSignificand_bounds (n d : Nat) :
    n / (d * 2 ^ (Nat.log2 (n / d) - 52)) < 2 ^ 53 ∧
      (0 < Nat.log2 (n / d) - 52 → 2 ^ 52 ≤ n / (d * 2 ^ (Nat.log2 (n / d) - 52))) := by
  rw [← Nat.div_div_eq_div_mul, Nat.div_lt_iff_lt_mul (Nat.two_pow_pos _), ← Nat.pow_add,
    Nat.le_div_iff_mul_le (Nat.two_pow_pos _), ← Nat.pow_add]
  exact ⟨lt_of_shift _, le_of_shift⟩

theorem magOfBits_floorMag (n d : Nat) :
    magOfBits (floorMag n d) * d = n / (d * 2 ^ (Nat.log2 (n / d) - 52)) * (d * 2 ^ (Nat.log2 (n / d) - 52)) := by
  obtain ⟨hlt, hge⟩ := floorSignificand_bounds n d
  rw [floorMag, magOfBits_of_significand hlt.le hge]
  ring

theorem magOfBits_floorMag_succ (n d : Nat) :
    magOfBits (floorMag n d + 1) * d = (n / (d * 2 ^ (Nat.log2 (n / d) - 52)) + 1) * (d * 2 ^ (Nat.log2 (n / d) - 52)) := by
  obtain ⟨hlt, hge⟩ := floorSignificand_bounds n d
  rw [floorMag, Nat.add_assoc, magOfBits_of_significand (Nat.add_one_le_iff.mpr hlt) fun h => Nat.le_succ_of_le (hge h)]
  ring

/-- A float and its neighbour above enclose the quotient. -/
theorem floorMag_encloses (n : Nat) {d : Nat} (hd : 0 < d) :
    magOfBits (floorMag n d) * d ≤ n ∧ n < magOfBits (floorMag n d + 1) * d := by
  rw [magOfBits_floorMag, magOfBits_floorMag_succ]
  exact ⟨Nat.div_mul_le_self _ _, Nat.lt_mul_of_div_lt (Nat.lt_succ_self _) (Nat.mul_pos hd (Nat.two_pow_pos _))⟩

/-- Of the two neighbours the nearer one is taken, and the even one when they are equally near. -/
theorem roundMag_eq_nearer (n d : Nat) :
    roundMag n d = min infMag
      (if 2 * n < magOfBits (floorMag n d) * d + magOfBits (floorMag n d + 1) * d then floorMag n d
       else if magOfBits (floorMag n d) * d + magOfBits (floorMag n d + 1) * d < 2 * n then floorMag n d + 1
       else floorMag n d + floorMag n d % 2) := by
  rw [magOfBits_floorMag, magOfBits_floorMag_succ, roundMag, floorMag]
  generalize Nat.log2 (n / d) - 52 = sh
  generalize d * 2 ^ sh = D
  have hn := Nat.div_add_mod' n D
  have hs : (n / D + 1) * D = n / D * D + D := Nat.succ_mul _ _
  simp only [roundHalfEven]
  congr 1
  rw [hs]
  generalize n / D * D = P at *
  split_ifs <;> omega

/-- Below the infinities the result is one of the two neighbours, no farther from the quotient than the other, and even on a tie. -/
theorem roundMag_cases {n d : Nat} (hr : roundMag n d < infMag) :
    let lo := magOfBits (floorMag n d) * d
    let hi := magOfBits (floorMag n d + 1) * d
    (roundMag n d = floorMag n d ∧ 2 * n ≤ lo + hi ∨ roundMag n d = floorMag n d + 1 ∧ lo + hi ≤ 2 * n) ∧
      (2 * n = lo + hi → roundMag n d % 2 = 0) := by
  have heq := roundMag_eq_nearer n d
  dsimp only
  split_ifs at heq <;> omega

/-- Below the infinities the result is nearest to the quotient among all magnitudes, and even when another one is equally near. -/
theorem roundMag_nearest {n d : Nat} (hd : 0 < d) (hr : roundMag n d < infMag) (k : Nat) :
    ((magOfBits (roundMag n d) * d : Nat) - n : Int).natAbs ≤ ((magOfBits k * d : Nat) - n : Int).natAbs ∧
      (((magOfBits (roundMag n d) * d : Nat) - n : Int).natAbs = ((magOfBits k * d : Nat) - n : Int).natAbs →
        k ≠ roundMag n d → roundMag n d % 2 = 0) := by
  obtain ⟨hlo, hhi⟩ := floorMag_encloses n hd
  obtain ⟨hcase, htie⟩ := roundMag_cases hr
  have hmono {i j : Nat} (h : i < j) : magOfBits i * d < magOfBits j * d :=
    Nat.mul_lt_mul_of_pos_right (magOfBits_strictMono h) hd
  have hk : (k < floorMag n d ∧ magOfBits k * d < magOfBits (floorMag n d) * d) ∨ k = floorMag n d ∨ k = floorMag n d + 1 ∨
      (floorMag n d + 1 < k ∧ magOfBits (floorMag n d + 1) * d < magOfBits k * d) := by
    rcases Nat.lt_or_ge k (floorMag n d) with h | h
    · exact .inl ⟨h, hmono h⟩
    · rcases Nat.lt_or_ge (floorMag n d + 1) k with h' | h'
      · exact .inr (.inr (.inr ⟨h', hmono h'⟩))
      · omega
  rcases hcase with ⟨hm, hle⟩ | ⟨hm, hle⟩
  · rw [hm] at htie ⊢
    rcases hk with hk | rfl | rfl | hk <;> omega
  · rw [hm] at htie ⊢
    rcases hk with hk | rfl | rfl | hk <;> omega

/-! ### From where on the result is an infinity -/

/-- The least magnitude that rounds to 2^1024 (the bound of `roundsTo`). -/
def overflowMag : Nat := (2 ^ 54 - 1) * 2 ^ 2044

theorem overflowMag_pos : 0 < overflowMag := by decide +kernel

/-- The bound lies half-way between the largest float and 2^1024. -/
theorem magOfBits_add_infMag : magOfBits (infMag - 1) + magOfBits infMag = 2 * overflowMag := by decide +kernel

theorem roundMag_eq_infMag_iff (n : Nat) {d : Nat} (hd : 0 < d) :
    roundMag n d = infMag ↔ overflowMag * d ≤ n := by
  obtain ⟨hlo, hhi⟩ := floorMag_encloses n hd
  have hsum : magOfBits (infMag - 1) * d + magOfBits infMag * d = 2 * (overflowMag * d) := by
    rw [← Nat.add_mul, magOfBits_add_infMag, Nat.mul_assoc]
  have hmono {i j : Nat} (h : i ≤ j) : magOfBits i * d ≤ magOfBits j * d :=
    Nat.mul_le_mul_right d (magOfBits_strictMono.monotone h)
  have heq := roundMag_eq_nearer n d
  have hodd : (infMag - 1) % 2 = 1 := by decide
  have hpos : 0 < infMag := by decide
  generalize infMag = M at *
  rcases Nat.lt_trichotomy (floorMag n d + 1) M with h | h | h
  · have := hmono (Nat.le_sub_one_of_lt h)
    have := hmono (Nat.sub_le M 1)
    split_ifs at heq <;> omega
  · rw [← h, Nat.add_sub_cancel] at hsum hodd
    split_ifs at heq <;> omega
  · have := hmono (Nat.le_of_lt_succ h)
    have := hmono (Nat.sub_le M 1)
    split_ifs at heq <;> omega

/-! ### Floats by sign and magnitude -/

theorem isFiniteF_mkFloat {neg : Bool} {m : Nat} (h : m < infMag) : isFiniteF (mkFloat neg m) := by
  have he : m / 2 ^ 52 ≠ 2047 := by unfold infMag at h; omega
  rwa [isFiniteF, expBits_mkFloat (h.trans infMag_lt)]

theorem magUnits_eq_magOfBits (v : Word) : magUnits v = magOfBits (expBits v * 2 ^ 52 + fracBits v) := by
  have hm : expBits v * 2 ^ 52 + fracBits v < 2 ^ 63 := by rw [expBits_eq, fracBits_eq]; omega
  rw [← magUnits_mkFloat hm, mkFloat_fields]

theorem units_mkFloat {neg : Bool} {m : Nat} (h : m < 2 ^ 63) :
    units (mkFloat neg m) = if neg then -(magOfBits m : Int) else magOfBits m := by
  rw [units, isNeg_mkFloat h, magUnits_mkFloat h]

theorem toNat_mkFloat_mod_two {neg : Bool} {m : Nat} (h : m < 2 ^ 63) : (mkFloat neg m).toNat % 2 = m % 2 := by
  rw [mkFloat_toNat h]
  cases neg
  · simp
  · simp; omega

theorem natAbs_units (v : Word) : (units v).natAbs = magUnits v := by
  rw [units]
  cases isNeg v <;> simp

/-! ### A rounded magnitude under its sign is the nearest float -/

/-- No value whose magnitude a float can hold is nearer to a quotient than the rounded one, a negative value least of all. -/
theorem roundMag_nearest_signed {n d : Nat} (hd : 0 < d) (hr : roundMag n d < infMag) {z : Int} {k : Nat}
    (hz : z.natAbs = magOfBits k) :
    (magOfBits (roundMag n d) * d - n : Int).natAbs ≤ (z * d - n).natAbs ∧
      ((magOfBits (roundMag n d) * d - n : Int).natAbs = (z * d - n).natAbs → z ≠ magOfBits (roundMag n d) → roundMag n d % 2 = 0) := by
  rcases lt_or_ge z 0 with h | h
  · obtain ⟨hle, -⟩ := roundMag_nearest hd hr 0
    have hneg : z * d < 0 := Int.mul_neg_of_neg_of_pos h (by omega)
    rw [magOfBits_subnormal (m := 0) (by decide)] at hle
    push_cast at hle
    omega
  · obtain rfl : z = magOfBits k := by omega
    obtain ⟨hle, htie⟩ := roundMag_nearest hd hr k
    push_cast at hle htie
    exact ⟨hle, fun he hne => htie he fun hk => hne (by rw [hk])⟩

theorem natAbs_neg_mul_sub_neg (a b d : Int) : (-a * d - -b).natAbs = (a * d - b).natAbs := by
  rw [← Int.natAbs_neg, Int.neg_mul, ← Int.neg_sub, Int.neg_sub, Int.sub_neg, Int.neg_add, Int.neg_neg, Int.sub_eq_add_neg]

/-- `roundsTo` as the pair of its two cases. Unlike the `if` it does not reduce, so Lean does not try to evaluate the bound's power when a
proof is checked against it. -/
structure RoundedTo (r : Word) (num : Int) (scale : Nat) : Prop where
  overflow : overflowMag * scale ≤ num.natAbs → isInf r = true ∧ isNeg r = decide (num < 0)
  nearest : ¬ overflowMag * scale ≤ num.natAbs → isFiniteF r ∧ ∀ c : Word, isFiniteF c →
    (units r * scale - num).natAbs ≤ (units c * scale - num).natAbs ∧
      ((units r * scale - num).natAbs = (units c * scale - num).natAbs → units c ≠ units r → r.toNat % 2 = 0)

theorem roundsTo_iff (r : Word) (num : Int) (scale : Nat) : roundsTo r num scale ↔ RoundedTo r num scale := by
  have hcases : roundsTo r num scale ↔ _ := ite_prop_iff_and
  rw [hcases]
  exact ⟨fun ⟨ho, hn⟩ => ⟨ho, hn⟩, fun ⟨ho, hn⟩ => ⟨ho, hn⟩⟩

/-- A rounded magnitude under the sign of the exact value is that value rounded. -/
theorem roundedTo_mkFloat {neg : Bool} {n d : Nat} (hd : 0 < d) {num : Int} (hnum : num = if neg then -(n : Int) else n) :
    RoundedTo (mkFloat neg (roundMag n d)) num d := by
  have habs : num.natAbs = n := by rw [hnum]; cases neg <;> simp
  constructor <;> rw [habs]
  · intro hover
    have hpos : 0 < n := Nat.lt_of_lt_of_le (Nat.mul_pos overflowMag_pos hd) hover
    rw [(roundMag_eq_infMag_iff n hd).mpr hover, isInf_mkFloat le_rfl, isNeg_mkFloat infMag_lt, hnum]
    cases neg <;> simp [hpos]
  · intro hover
    rw [← roundMag_eq_infMag_iff n hd] at hover
    have hr : roundMag n d < infMag := Nat.lt_of_le_of_ne (roundMag_le n d) hover
    refine ⟨isFiniteF_mkFloat hr, fun c _ => ?_⟩
    have hc : (units c).natAbs = magOfBits (expBits c * 2 ^ 52 + fracBits c) := by rw [natAbs_units, magUnits_eq_magOfBits]
    rw [toNat_mkFloat_mod_two (hr.trans infMag_lt), units_mkFloat (hr.trans infMag_lt), hnum]
    cases neg
    · exact roundMag_nearest_signed hd hr hc
    · obtain ⟨hle, htie⟩ := roundMag_nearest_signed hd hr (z := -units c) (by rw [Int.natAbs_neg, hc])
      simp only [if_true]
      rw [natAbs_neg_mul_sub_neg, ← Int.neg_neg (units c), natAbs_neg_mul_sub_neg]
      exact ⟨hle, fun he hne => htie he fun hz => hne (by rw [hz])⟩

/-! ### Which kind of float a pattern is -/

theorem isNaN_of_finite {v : Word} (h : isFiniteF v) : isNaN v = false := by
  rw [isNaN, beq_eq_false_iff_ne.mpr h, Bool.false_and]

theorem isInf_of_finite {v : Word} (h : isFiniteF v) : isInf v = false := by
  rw [isInf, beq_eq_false_iff_ne.mpr h, Bool.false_and]

theorem isInf_iff (v : Word) : isInf v = true ↔ expBits v = 2047 ∧ fracBits v = 0 := by simp [isInf]

theorem isNaN_of_isInf {v : Word} (h : isInf v = true) : isNaN v = false := by
  simp [isNaN, (isInf_iff v).mp h]

theorem isZeroF_of_isInf {v : Word} (h : isInf v = true) : isZeroF v = false := by
  have he : expBits v ≠ 0 := by rw [((isInf_iff v).mp h).1]; decide
  have hpos : (2 ^ 52 + fracBits v) * 2 ^ (expBits v - 1) ≠ 0 := Nat.mul_ne_zero (by omega) (Nat.two_pow_pos _).ne'
  rw [isZeroF, magUnits, if_neg he, beq_eq_false_iff_ne.mpr hpos]

theorem isZeroF_eq (v : Word) : isZeroF v = decide (units v = 0) := by
  rw [isZeroF, ← natAbs_units, Bool.eq_iff_iff]
  simp

theorem isNaN_fnan : isNaN fnan = true := by decide

/-! ### The sign inverted -/

@[simp] theorem expBits_fneg (v : Word) : expBits (fneg v) = expBits v := by
  rw [expBits, fneg, BitVec.extractLsb'_xor]
  simp [expBits]

@[simp] theorem fracBits_fneg (v : Word) : fracBits (fneg v) = fracBits v := by
  rw [fracBits, fneg, BitVec.extractLsb'_xor]
  simp [fracBits]

@[simp] theorem isNeg_fneg (v : Word) : isNeg (fneg v) = !isNeg v := by
  have hsign : (0x8000000000000000 : Word).msb = true := by decide
  rw [isNeg, fneg, BitVec.msb_xor, hsign, Bool.xor_true, isNeg]

@[simp] theorem isNaN_fneg (v : Word) : isNaN (fneg v) = isNaN v := by simp [isNaN]

@[simp] theorem isInf_fneg (v : Word) : isInf (fneg v) = isInf v := by simp [isInf]

theorem isFiniteF_fneg {v : Word} (h : isFiniteF v) : isFiniteF (fneg v) := by rwa [isFiniteF, expBits_fneg]

@[simp] theorem units_fneg (v : Word) : units (fneg v) = -units v := by
  have hm : magUnits (fneg v) = magUnits v := by simp [magUnits]
  rw [units, units, isNeg_fneg, hm]
  cases isNeg v <;> simp

/-! ### The operations, one equation per kind of operands -/

theorem roundMag_zero (d : Nat) : roundMag 0 d = 0 := by
  simp [roundMag, roundHalfEven]

theorem fadd_of_nan {a b : Word} (h : isNaN a = true ∨ isNaN b = true) : fadd a b = fnan := by
  rw [fadd, if_pos (by simpa using h)]

theorem fmul_of_nan {a b : Word} (h : isNaN a = true ∨ isNaN b = true) : fmul a b = fnan := by
  simp only [fmul]
  rw [if_pos (by simpa using h)]

theorem fdiv_of_nan {a b : Word} (h : isNaN a = true ∨ isNaN b = true) : fdiv a b = fnan := by
  simp only [fdiv]
  rw [if_pos (by simpa using h)]

theorem fadd_inf_inf {a b : Word} (ha : isInf a = true) (hb : isInf b = true) :
    fadd a b = if isNeg a = isNeg b then a else fnan := by
  simp [fadd, isNaN_of_isInf, ha, hb]

theorem fadd_inf_finite {a b : Word} (ha : isInf a = true) (hb : isFiniteF b) : fadd a b = a := by
  simp [fadd, isNaN_of_isInf, isNaN_of_finite, isInf_of_finite, ha, hb]

theorem fadd_finite_inf {a b : Word} (ha : isFiniteF a) (hb : isInf b = true) : fadd a b = b := by
  simp [fadd, isNaN_of_isInf, isNaN_of_finite, isInf_of_finite, ha, hb]

/-- The sign of a zero sum is its own rule; every other sum has the sign of its value. -/
theorem fadd_finite {a b : Word} (ha : isFiniteF a) (hb : isFiniteF b) :
    fadd a b = mkFloat (if units a + units b = 0 then isNeg a && isNeg b else decide (units a + units b < 0))
      (roundMag (units a + units b).natAbs 1) := by
  simp only [fadd, isNaN_of_finite, isInf_of_finite, ha, hb, Bool.or_self, Bool.false_eq_true, if_false]
  split
  · next h => rw [h, Int.natAbs_zero, roundMag_zero]
  · rfl

theorem fmul_inf {a b : Word} (ha : isNaN a = false) (hb : isNaN b = false) (h : isInf a = true ∨ isInf b = true) :
    fmul a b = if isZeroF a || isZeroF b then fnan else mkFloat (isNeg a != isNeg b) infMag := by
  simp only [fmul, ha, hb]
  rw [if_neg (by decide), if_pos (by simpa using h)]

theorem fmul_finite {a b : Word} (ha : isFiniteF a) (hb : isFiniteF b) :
    fmul a b = mkFloat (isNeg a != isNeg b) (roundMag (magUnits a * magUnits b) oneU) := by
  simp [fmul, isNaN_of_finite, isInf_of_finite, ha, hb]

theorem fdiv_inf_inf {a b : Word} (ha : isInf a = true) (hb : isInf b = true) : fdiv a b = fnan := by
  simp [fdiv, isNaN_of_isInf, ha, hb]

theorem fdiv_inf_finite {a b : Word} (ha : isInf a = true) (hb : isFiniteF b) :
    fdiv a b = mkFloat (isNeg a != isNeg b) infMag := by
  simp [fdiv, isNaN_of_isInf, isNaN_of_finite, isInf_of_finite, ha, hb]

theorem fdiv_finite_inf {a b : Word} (ha : isFiniteF a) (hb : isInf b = true) :
    fdiv a b = mkFloat (isNeg a != isNeg b) 0 := by
  simp [fdiv, isNaN_of_isInf, isNaN_of_finite, isInf_of_finite, ha, hb]

theorem fdiv_finite_zero {a b : Word} (ha : isFiniteF a) (hb : isFiniteF b) (h : units b = 0) :
    fdiv a b = if units a = 0 then fnan else mkFloat (isNeg a != isNeg b) infMag := by
  simp [fdiv, isNaN_of_finite, isInf_of_finite, isZeroF_eq, ha, hb, h]

theorem fdiv_finite {a b : Word} (ha : isFiniteF a) (hb : isFiniteF b) (h : units b ≠ 0) :
    fdiv a b = mkFloat (isNeg a != isNeg b) (roundMag (magUnits a * oneU) (magUnits b)) := by
  simp [fdiv, isNaN_of_finite, isInf_of_finite, isZeroF_eq, ha, hb, h]

/-! ### Each operation rounds its exact result once -/

theorem oneU_pos : 0 < oneU := by decide +kernel

theorem units_mul_units (a b : Word) :
    units a * units b = if isNeg a != isNeg b then -((magUnits a * magUnits b : Nat) : Int) else (magUnits a * magUnits b : Nat) := by
  rw [units, units]
  cases isNeg a <;> cases isNeg b <;> simp

theorem units_mul_sign (a : Word) (k : Nat) {b : Word} (h : units b ≠ 0) :
    units a * k * (units b).sign = if isNeg a != isNeg b then -((magUnits a * k : Nat) : Int) else (magUnits a * k : Nat) := by
  have hb : (magUnits b : Int).sign = 1 := Int.sign_eq_one_of_pos (by rw [← natAbs_units]; omega)
  rw [units, units]
  cases isNeg a <;> cases isNeg b <;> simp [hb]

theorem roundedTo_fadd {a b : Word} (ha : isFiniteF a) (hb : isFiniteF b) : RoundedTo (fadd a b) (units a + units b) 1 := by
  rw [fadd_finite ha hb]
  apply roundedTo_mkFloat Nat.one_pos
  split
  · next h => simp [h]
  · simp only [decide_eq_true_eq]
    split <;> omega

theorem roundedTo_fsub {a b : Word} (ha : isFiniteF a) (hb : isFiniteF b) : RoundedTo (fsub a b) (units a - units b) 1 := by
  rw [Int.sub_eq_add_neg, ← units_fneg]
  exact roundedTo_fadd ha (isFiniteF_fneg hb)

theorem roundedTo_fmul {a b : Word} (ha : isFiniteF a) (hb : isFiniteF b) : RoundedTo (fmul a b) (units a * units b) oneU := by
  rw [fmul_finite ha hb]
  exact roundedTo_mkFloat oneU_pos (units_mul_units a b)

theorem roundedTo_fdiv {a b : Word} (ha : isFiniteF a) (hb : isFiniteF b) (h : units b ≠ 0) :
    RoundedTo (fdiv a b) (units a * oneU * (units b).sign) (units b).natAbs := by
  have hpos : 0 < magUnits b := by rw [← natAbs_units]; omega
  rw [fdiv_finite ha hb h, natAbs_units]
  exact roundedTo_mkFloat hpos (units_mul_sign a oneU h)

/-- Settles O55: the operations on finite operands are rounded magnitudes under the sign of the exact result. -/
theorem roundsToNearestEven : Obligations.RoundsToNearestEven := by
  intro a b ha hb
  simp only [roundsTo_iff]
  exact ⟨roundedTo_fadd ha hb, roundedTo_fsub ha hb, roundedTo_fmul ha hb, roundedTo_fdiv ha hb⟩

/-! ### NaNs, infinities and zeros -/

theorem isNeg_mkFloat_roundMag (neg : Bool) (n d : Nat) : isNeg (mkFloat neg (roundMag n d)) = neg :=
  isNeg_mkFloat ((roundMag_le n d).trans_lt infMag_lt)

theorem isInf_mkFloat_infMag (neg : Bool) : isInf (mkFloat neg infMag) = true := by simp [isInf_mkFloat le_rfl]

theorem isNeg_mkFloat_infMag (neg : Bool) : isNeg (mkFloat neg infMag) = neg := isNeg_mkFloat infMag_lt

theorem isFiniteF_mkFloat_zero (neg : Bool) : isFiniteF (mkFloat neg 0) := isFiniteF_mkFloat (by decide)

theorem units_mkFloat_zero (neg : Bool) : units (mkFloat neg 0) = 0 := by
  rw [units_mkFloat (by decide), magOfBits_subnormal (by decide)]
  simp

theorem isNeg_mkFloat_zero (neg : Bool) : isNeg (mkFloat neg 0) = neg := isNeg_mkFloat (by decide)

theorem mkFloat_zero (neg : Bool) : mkFloat neg 0 = if neg then 0x8000000000000000 else 0 := by cases neg <;> rfl

/-- A NaN operand makes every result a NaN. -/
theorem nan_operand {a b : Word} (h : isNaN a = true ∨ isNaN b = true) :
    isNaN (fadd a b) = true ∧ isNaN (fsub a b) = true ∧ isNaN (fmul a b) = true ∧ isNaN (fdiv a b) = true := by
  rw [fsub, fadd_of_nan h, fadd_of_nan (by rwa [isNaN_fneg]), fmul_of_nan h, fdiv_of_nan h]
  simp [isNaN_fnan]

/-- Two infinities. -/
theorem inf_operands {a b : Word} (ha : isInf a = true) (hb : isInf b = true) :
    (isNeg a = isNeg b → fadd a b = a ∧ isNaN (fsub a b) = true) ∧ (isNeg a ≠ isNeg b → isNaN (fadd a b) = true ∧ fsub a b = a) ∧
      isInf (fmul a b) = true ∧ isNeg (fmul a b) = (isNeg a != isNeg b) ∧ isNaN (fdiv a b) = true := by
  have hmul : fmul a b = mkFloat (isNeg a != isNeg b) infMag := by
    simp [fmul_inf, isNaN_of_isInf, isZeroF_of_isInf, ha, hb]
  rw [hmul, fsub, fadd_inf_inf ha hb, fadd_inf_inf ha (by rwa [isInf_fneg]), isNeg_fneg, fdiv_inf_inf ha hb]
  refine ⟨fun h => ?_, fun h => ?_, isInf_mkFloat_infMag _, isNeg_mkFloat_infMag _, isNaN_fnan⟩
  · simp [h, isNaN_fnan]
  · simp [Bool.eq_not.mpr h, isNaN_fnan]

/-- An infinity and a finite float. -/
theorem inf_finite_operands {a b : Word} (ha : isInf a = true) (hb : isFiniteF b) :
    fadd a b = a ∧ fadd b a = a ∧ fsub a b = a ∧ fsub b a = fneg a ∧
      isInf (fdiv a b) = true ∧ isNeg (fdiv a b) = (isNeg a != isNeg b) ∧
      isFiniteF (fdiv b a) ∧ units (fdiv b a) = 0 ∧ isNeg (fdiv b a) = (isNeg a != isNeg b) ∧
      (units b = 0 → isNaN (fmul a b) = true ∧ isNaN (fmul b a) = true) ∧
      (units b ≠ 0 → isInf (fmul a b) = true ∧ isNeg (fmul a b) = (isNeg a != isNeg b) ∧
        isInf (fmul b a) = true ∧ isNeg (fmul b a) = (isNeg a != isNeg b)) := by
  have hsign : (isNeg b != isNeg a) = (isNeg a != isNeg b) := bne_comm
  have hmul : fmul a b = if units b = 0 then fnan else mkFloat (isNeg a != isNeg b) infMag := by
    simp [fmul_inf, isNaN_of_isInf, isNaN_of_finite, isZeroF_of_isInf, isZeroF_eq b, ha, hb]
  have hmul' : fmul b a = if units b = 0 then fnan else mkFloat (isNeg a != isNeg b) infMag := by
    simp [fmul_inf, isNaN_of_isInf, isNaN_of_finite, isZeroF_of_isInf, isZeroF_eq b, ha, hb, hsign]
  rw [fsub, fsub, fadd_inf_finite ha hb, fadd_finite_inf hb ha, fadd_inf_finite ha (isFiniteF_fneg hb),
    fadd_finite_inf hb (by rwa [isInf_fneg]), fdiv_inf_finite ha hb, fdiv_finite_inf hb ha, hsign, hmul, hmul']
  refine ⟨rfl, rfl, rfl, rfl, isInf_mkFloat_infMag _, isNeg_mkFloat_infMag _, isFiniteF_mkFloat_zero _, units_mkFloat_zero _,
    isNeg_mkFloat_zero _, fun h => ?_, fun h => ?_⟩
  · simp [h, isNaN_fnan]
  · simp [h, isInf_mkFloat_infMag, isNeg_mkFloat_infMag]

/-- An exact sum of zero is `+0.0` unless both terms are negative. -/
theorem fadd_zero_sum {a b : Word} (ha : isFiniteF a) (hb : isFiniteF b) (h : units a + units b = 0) :
    fadd a b = if isNeg a = true ∧ isNeg b = true then 0x8000000000000000 else 0 := by
  rw [fadd_finite ha hb, if_pos h, h, Int.natAbs_zero, roundMag_zero, mkFloat_zero]
  simp

/-- Two finite floats: zero divisors, signs and exact zeros. -/
theorem finite_operands {a b : Word} (ha : isFiniteF a) (hb : isFiniteF b) :
    isNaN (fmul a b) = false ∧ isNeg (fmul a b) = (isNeg a != isNeg b) ∧
      (units b ≠ 0 → isNaN (fdiv a b) = false ∧ isNeg (fdiv a b) = (isNeg a != isNeg b)) ∧
      (units b = 0 → units a = 0 → isNaN (fdiv a b) = true) ∧
      (units b = 0 → units a ≠ 0 → isInf (fdiv a b) = true ∧ isNeg (fdiv a b) = (isNeg a != isNeg b)) ∧
      (units a + units b = 0 → fadd a b = if isNeg a = true ∧ isNeg b = true then 0x8000000000000000 else 0) ∧
      (units a - units b = 0 → fsub a b = if isNeg a = true ∧ isNeg b = false then 0x8000000000000000 else 0) := by
  rw [fmul_finite ha hb]
  refine ⟨isNaN_mkFloat (roundMag_le _ _), isNeg_mkFloat_roundMag _ _ _, fun h => ?_, fun h h' => ?_, fun h h' => ?_,
    fadd_zero_sum ha hb, fun h => ?_⟩
  · rw [fdiv_finite ha hb h]
    exact ⟨isNaN_mkFloat (roundMag_le _ _), isNeg_mkFloat_roundMag _ _ _⟩
  · rw [fdiv_finite_zero ha hb h, if_pos h', isNaN_fnan]
  · rw [fdiv_finite_zero ha hb h, if_neg h']
    exact ⟨isInf_mkFloat_infMag _, isNeg_mkFloat_infMag _⟩
  · rw [fsub, fadd_zero_sum ha (isFiniteF_fneg hb) (by rw [units_fneg]; exact h)]
    simp

/-- Settles O56, by the kinds of the operands: a NaN, two infinities, an infinity and a finite float, two finite floats. -/
theorem specialValuesFollowIeee : Obligations.SpecialValuesFollowIeee := fun _ _ =>
  ⟨nan_operand, inf_operands, inf_finite_operands, finite_operands⟩

/-! ### Integers that a float holds -/

/-- A magnitude that a finite float holds is not changed by rounding, and does not overflow. -/
theorem roundMag_of_held {n m : Nat} (hm : m < infMag) (h : magOfBits m = n) :
    roundMag n 1 < infMag ∧ magOfBits (roundMag n 1) = n := by
  have hr : roundMag n 1 = m := by simpa only [h, Nat.mul_one] using roundMag_exact hm Nat.one_pos
  exact ⟨hr ▸ hm, hr ▸ h⟩

theorem roundMag_natural {q : Nat} (hq : q ≤ 2 ^ 53) :
    roundMag (q * oneU) 1 < infMag ∧ magOfBits (roundMag (q * oneU) 1) = q * oneU := by
  obtain ⟨m, hm, hv⟩ := exists_magOfBits_eq 1074 hq
  exact roundMag_of_held (hm.trans_lt (by decide)) hv

/-- A magnitude of at least 2^53 units of any power of two is a multiple of that power. -/
theorem two_pow_dvd_magOfBits {e m : Nat} (h : 2 ^ 53 * 2 ^ e ≤ magOfBits m) : 2 ^ e ∣ magOfBits m := by
  obtain ⟨sh, q, rfl, hq, hn⟩ := exists_significand m
  rw [magOfBits_of_significand hq.le hn] at h ⊢
  have hpow : 2 ^ e < 2 ^ sh := by
    by_contra hle
    exact absurd (Nat.mul_lt_mul_of_lt_of_le hq (Nat.le_of_not_lt hle) (Nat.two_pow_pos e)) (Nat.not_lt_of_le h)
  exact Dvd.dvd.mul_left (Nat.pow_dvd_pow 2 ((Nat.pow_lt_pow_iff_right Nat.one_lt_two).mp hpow).le) q

/-- A float of at least 2^53 is integral. -/
theorem oneU_dvd_magUnits {v : Word} (h : 2 ^ 53 * oneU ≤ magUnits v) : oneU ∣ magUnits v := by
  rw [magUnits_eq_magOfBits, oneU] at h ⊢
  exact two_pow_dvd_magOfBits h

/-! ### fround -/

/-- The integer nearest to a float's magnitude, the larger one on a tie: what `fround` takes. -/
def nearestInt (v : Word) : Nat := (2 * magUnits v + oneU) / (2 * oneU)

theorem nearestInt_bounds (v : Word) :
    2 * magUnits v < 2 * (nearestInt v * oneU) + oneU ∧ 2 * (nearestInt v * oneU) ≤ 2 * magUnits v + oneU := by
  have hdiv := Nat.div_add_mod' (2 * magUnits v + oneU) (2 * oneU)
  have hmod := Nat.mod_lt (2 * magUnits v + oneU) (Nat.mul_pos Nat.two_pos oneU_pos)
  have hcomm : nearestInt v * (2 * oneU) = 2 * (nearestInt v * oneU) := Nat.mul_left_comm _ _ _
  rw [← nearestInt, hcomm] at hdiv
  omega

/-- The nearest integer is held by a float: a float below 2^53 has one of at most 2^53, any other is its own. -/
theorem roundMag_nearestInt {v : Word} (h : isFiniteF v) :
    roundMag (nearestInt v * oneU) 1 < infMag ∧ magOfBits (roundMag (nearestInt v * oneU) 1) = nearestInt v * oneU := by
  obtain ⟨hlo, hhi⟩ := nearestInt_bounds v
  rcases Nat.lt_or_ge (magUnits v) (2 ^ 53 * oneU) with hs | hs
  · have hlt : nearestInt v * oneU < (2 ^ 53 + 1) * oneU := by omega
    have hq := Nat.lt_of_mul_lt_mul_right hlt
    exact roundMag_natural (Nat.le_of_lt_succ hq)
  · obtain ⟨t, ht⟩ := oneU_dvd_magUnits hs
    rw [ht, Nat.mul_comm oneU t] at hlo hhi
    have hle : t * oneU < (nearestInt v + 1) * oneU := by rw [Nat.succ_mul]; omega
    have hge : nearestInt v * oneU < (t + 1) * oneU := by have := oneU_pos; rw [Nat.succ_mul]; omega
    have heq : nearestInt v = t :=
      Nat.le_antisymm (Nat.le_of_lt_succ (Nat.lt_of_mul_lt_mul_right hge)) (Nat.le_of_lt_succ (Nat.lt_of_mul_lt_mul_right hle))
    have hbits : expBits v * 2 ^ 52 + fracBits v < infMag := by
      unfold isFiniteF at h
      rw [expBits_eq] at h ⊢
      rw [fracBits_eq, infMag]
      omega
    apply roundMag_of_held hbits
    rw [← magUnits_eq_magOfBits, ht, heq, Nat.mul_comm]

theorem fround_finite {v : Word} (h : isFiniteF v) : fround v = mkFloat (isNeg v) (roundMag (nearestInt v * oneU) 1) :=
  if_neg h

theorem fround_isInf {v : Word} (h : isInf v = true) : fround v = v := if_pos ((isInf_iff v).mp h).1

theorem isNeg_fround {v : Word} (h : isFiniteF v) : isNeg (fround v) = isNeg v := by
  rw [fround_finite h, isNeg_mkFloat_roundMag]

theorem magUnits_fround {v : Word} (h : isFiniteF v) : magUnits (fround v) = nearestInt v * oneU := by
  obtain ⟨hlt, hv⟩ := roundMag_nearestInt h
  rw [fround_finite h, magUnits_mkFloat (hlt.trans infMag_lt), hv]

/-- Two floats of one sign are as far apart as their magnitudes. -/
theorem natAbs_units_sub {u v : Word} (h : isNeg u = isNeg v) :
    (units u - units v).natAbs = ((magUnits u : Int) - magUnits v).natAbs := by
  rw [units, units, h]
  cases isNeg v
  · rfl
  · simp only [if_true]; omega

/-- Settles O57: of a finite float `fround` is the nearest integer under the float's sign. -/
theorem froundTiesAway : Obligations.FroundTiesAway := by
  refine fun v => ⟨fround_isInf, fun h => ?_⟩
  obtain ⟨hlo, hhi⟩ := nearestInt_bounds v
  have hfin : isFiniteF (fround v) := by
    rw [fround_finite h]
    exact isFiniteF_mkFloat (roundMag_nearestInt h).1
  rw [natAbs_units_sub (isNeg_fround h), magUnits_fround h]
  refine ⟨hfin, isNeg_fround h, Nat.dvd_mul_left _ _, ?_, fun htie => ?_⟩
  · omega
  · omega

/-! ### Literals and integers -/

theorem roundedTo_fcOf (neg : Bool) (num : Nat) {den : Nat} (h : 0 < den) :
    RoundedTo (fcOf neg num den) (if neg then -(num : Int) * oneU else (num : Int) * oneU) den := by
  apply roundedTo_mkFloat h
  simp only [Nat.cast_mul, Int.neg_mul]

theorem int_mul_oneU (n : Int) :
    n * oneU = if decide (n < 0) = true then -((n.natAbs * oneU : Nat) : Int) else (n.natAbs * oneU : Nat) := by
  rw [Nat.cast_mul, ← Int.neg_mul, ← ite_mul]
  congr 1
  simp only [decide_eq_true_eq]
  split <;> omega

theorem roundedTo_i2f (n : Int) : RoundedTo (i2f n) (n * oneU) 1 := roundedTo_mkFloat Nat.one_pos (int_mul_oneU n)

theorem i2f_exact {n : Int} (h : n.natAbs ≤ 2 ^ 53) : isFiniteF (i2f n) ∧ units (i2f n) = n * oneU := by
  obtain ⟨hlt, hv⟩ := roundMag_natural h
  rw [i2f, units_mkFloat (hlt.trans infMag_lt), hv]
  exact ⟨isFiniteF_mkFloat hlt, (int_mul_oneU n).symm⟩

/-- Settles O58: literals and integers are rounded magnitudes, and integers up to 2^53 are held exactly. The nineteen patterns are evaluated. -/
theorem literalsAndSmallIntegersExact : Obligations.LiteralsAndSmallIntegersExact := by
  unfold Obligations.LiteralsAndSmallIntegersExact
  simp only [roundsTo_iff]
  exact ⟨fun neg num _ => roundedTo_fcOf neg num, by decide +kernel, roundedTo_i2f, fun _ => i2f_exact⟩

end Sys2Proof.Machine

namespace Sys2Proof

/-!
The encoding of what a word decodes to is that word (30_encoding.md R81 to R90): one lemma for each format, then the row of the table.
-/

/-! ### A word that decodes is the encoding of its instruction -/

theorem encode_eq_of_fields {c : CmdWord} {i : Instr} (hop : (opField c).toNat = i.opcode.toNat)
    (hargs : i.operandBits = (rdBits c, rs1Bits c, immField c)) : encode i = c := by
  rw [encode, hargs, ← BitVec.eq_of_toNat_eq hop, wordOf_fields]

theorem encode_of_formatN {c : CmdWord} {i j : Instr} (h : formatN c i = .ok j) (hop : (opField c).toNat = i.opcode.toNat)
    (hargs : i.operandBits = (0, 0, 0)) : encode j = c := by
  obtain ⟨hz, rfl⟩ := ifZero_eq_ok.mp h
  simp only [Bool.and_eq_true, beq_iff_eq] at hz
  exact encode_eq_of_fields hop (by simp [hargs, hz])

theorem encode_of_formatR {c : CmdWord} {mk : Reg → Reg → Instr} {j : Instr} (h : formatR c mk = .ok j)
    (hop : ∀ rd rs1, (opField c).toNat = (mk rd rs1).opcode.toNat)
    (hargs : ∀ rd rs1, (mk rd rs1).operandBits = (regBits rd, regBits rs1, 0)) : encode j = c := by
  obtain ⟨hz, rfl⟩ := ifZero_eq_ok.mp h
  exact encode_eq_of_fields (hop _ _) (by simp [hargs, beq_iff_eq.mp hz, rdField, rs1Field])

theorem encode_of_formatRS {c : CmdWord} {mk : Reg → Instr} {j : Instr} (h : formatRS c mk = .ok j)
    (hop : ∀ rs1, (opField c).toNat = (mk rs1).opcode.toNat)
    (hargs : ∀ rs1, (mk rs1).operandBits = (0, regBits rs1, 0)) : encode j = c := by
  obtain ⟨hz, rfl⟩ := ifZero_eq_ok.mp h
  simp only [Bool.and_eq_true, beq_iff_eq] at hz
  exact encode_eq_of_fields (hop _) (by simp [hargs, hz, rs1Field])

theorem encode_of_formatRD {c : CmdWord} {mk : Reg → Instr} {j : Instr} (h : formatRD c mk = .ok j)
    (hop : ∀ rd, (opField c).toNat = (mk rd).opcode.toNat)
    (hargs : ∀ rd, (mk rd).operandBits = (regBits rd, 0, 0)) : encode j = c := by
  obtain ⟨hz, rfl⟩ := ifZero_eq_ok.mp h
  simp only [Bool.and_eq_true, beq_iff_eq] at hz
  exact encode_eq_of_fields (hop _) (by simp [hargs, hz, rdField])

theorem encode_of_formatI {c : CmdWord} {mk : Reg → BitVec 16 → Instr} {j : Instr} (h : formatI c mk = .ok j)
    (hop : ∀ rd imm, (opField c).toNat = (mk rd imm).opcode.toNat)
    (hargs : ∀ rd imm, (mk rd imm).operandBits = (regBits rd, 0, imm)) : encode j = c := by
  obtain ⟨hz, rfl⟩ := ifZero_eq_ok.mp h
  exact encode_eq_of_fields (hop _ _) (by simp [hargs, beq_iff_eq.mp hz, rdField])

theorem encode_of_formatCW {c : CmdWord} {mk : BitVec 16 → Reg → Instr} {j : Instr} (h : formatCW c mk = .ok j)
    (hop : ∀ csr rs1, (opField c).toNat = (mk csr rs1).opcode.toNat)
    (hargs : ∀ csr rs1, (mk csr rs1).operandBits = (0, regBits rs1, csr)) : encode j = c := by
  obtain ⟨hz, rfl⟩ := ifZero_eq_ok.mp h
  exact encode_eq_of_fields (hop _ _) (by simp [hargs, beq_iff_eq.mp hz, rs1Field])

theorem encode_of_formatB {c : CmdWord} {mk : Reg → Reg → BitVec 7 → BitVec 7 → Instr} {j : Instr} (h : formatB c mk = .ok j)
    (hop : ∀ rd rs1 w l, (opField c).toNat = (mk rd rs1 w l).opcode.toNat)
    (hargs : ∀ rd rs1 w l, (mk rd rs1 w l).operandBits = (regBits rd, regBits rs1, fieldImm w l)) : encode j = c := by
  obtain ⟨hz, rfl⟩ := ifZero_eq_ok.mp h
  rw [beq_iff_eq, lowField_eq] at hz
  exact encode_eq_of_fields (hop _ _ _ _) (by simp [hargs, widthField_eq, lsbField_eq, fieldImm_fields _ hz, rdField, rs1Field])

theorem encode_of_formatBW {c : CmdWord} {mk : Reg → Reg → BitVec 7 → Instr} {j : Instr} (h : formatBW c mk = .ok j)
    (hop : ∀ rd rs1 w, (opField c).toNat = (mk rd rs1 w).opcode.toNat)
    (hargs : ∀ rd rs1 w, (mk rd rs1 w).operandBits = (regBits rd, regBits rs1, fieldImm w 0)) : encode j = c := by
  obtain ⟨hz, rfl⟩ := ifZero_eq_ok.mp h
  rw [Bool.and_eq_true, beq_iff_eq, beq_iff_eq, lowField_eq] at hz
  obtain ⟨hlsb, hlow⟩ := hz
  refine encode_eq_of_fields (hop _ _ _) ?_
  rw [hargs, ← hlsb, widthField_eq, lsbField_eq, fieldImm_fields _ hlow]
  simp [rdField, rs1Field]

theorem encode_of_decodePattern {c : CmdWord} {i : Instr} (h : decodePattern c = .ok i) : encode i = c := by
  unfold decodePattern at h
  split at h <;> rename_i hop
  iterate 2 exact encode_of_formatN h hop rfl
  iterate 2 exact encode_of_formatI h (fun _ _ => hop) fun _ _ => rfl
  · exact encode_of_formatR h (fun _ _ => hop) fun _ _ => rfl
  · exact encode_of_formatI h (fun _ _ => hop) fun _ _ => rfl
  · exact encode_of_formatCW h (fun _ _ => hop) fun _ _ => rfl
  iterate 2 exact encode_of_formatBW h (fun _ _ _ => hop) fun _ _ _ => rfl
  iterate 4 exact encode_of_formatB h (fun _ _ _ _ => hop) fun _ _ _ _ => rfl
  iterate 15 exact encode_of_formatR h (fun _ _ => hop) fun _ _ => rfl
  · exact encode_of_formatRS h (fun _ => hop) fun _ => rfl
  · exact encode_of_formatRD h (fun _ => hop) fun _ => rfl
  · cases h

theorem encode_of_decode {c : CmdWord} {i : Instr} (h : decode c = .ok i) : encode i = c :=
  encode_of_decodePattern (decode_eq_ok.mp h).1

end Sys2Proof

namespace Sys2Proof.Machine

/-!
The state of the block (10_state.md): what a command and a step can do to it, said once, and from that the invariants and the frames.
-/

/-! ### What a command can do -/

/-- A command's effect is on registers of its destination only, or it is one of the four that reach further. -/
theorem Effect.cases {i : Instr} {s t : State} (h : Effect i s t) :
    OnlyRegs (destRegs i) s t ∨ (i = .clrf ∧ t = s.clearFault) ∨
      (∃ csr rs1, ∃ v : BitVec 8, i = .wrc csr rs1 ∧ 1 ≤ v.toNat ∧ t = s.writeDenom v) ∨
      (∃ rs1, ∃ w : BitVec 32, i = .emit rs1 ∧ s.readReg rs1 = w.setWidth 64 ∧ t = s.appendSout (codewordBytes w)) ∨
      ∃ rd v, i = .take rd ∧ 4 ≤ s.sin.length ∧ t = ({ s with sin := s.sin.drop 4 } : State).writeReg rd v := by
  unfold Effect at h
  split at h
  · exact .inr (.inl ⟨rfl, h⟩)
  · obtain ⟨v, hv, ht⟩ := h
    exact .inr (.inr (.inl ⟨_, _, v, rfl, hv, ht⟩))
  · obtain ⟨w, hw, ht⟩ := h
    exact .inr (.inr (.inr (.inl ⟨_, w, rfl, hw, ht⟩)))
  · obtain ⟨b0, b1, b2, b3, rest, hs, ht⟩ := h
    exact .inr (.inr (.inr (.inr ⟨_, _, rfl, by simp [hs], by rw [hs]; exact ht⟩)))
  · exact .inl h

/-- `exec_cases` read from the next state. -/
theorem exec_eq_next {i : Instr} {s t : State} (h : exec i s = .next t) :
    (∃ k, t = s.faultEntry k (encode i) ∧ MayRaise i k) ∨ (i.WellFormed ∧ Effect i s t) := by
  rcases exec_cases i s with ⟨k, he, hk⟩ | ⟨u, he, hw, hu⟩
  · rw [he] at h
    cases h
    exact .inl ⟨k, rfl, hk⟩
  · rw [he] at h
    cases h
    exact .inr ⟨hw, hu⟩

/-! ### What a step can do -/

theorem status_eq_zero {s : State} (h : s.status ≠ 1) : s.status = 0 :=
  (BitVec.eq_zero_or_eq_one s.status).resolve_right h

/-- The ends of a step, by the host's oldest move and, for a command word, by what the block does with it. -/
inductive StepEnds (s : State) : State → Prop
  | wait (hp : s.port = []) : StepEnds s s
  | push {bs : List Byte} {rest : List HostMove} (hp : s.port = .push bs :: rest) :
      StepEnds s (({ s with port := rest } : State).appendSin bs)
  | observe {rest : List HostMove} (hp : s.port = .observe :: rest) : StepEnds s { s with port := rest }
  | reset {rest : List HostMove} (hp : s.port = .reset :: rest) : StepEnds s { State.reset with port := rest }
  | discard {c : CmdWord} {rest : List HostMove} (hp : s.port = .cmd c :: rest) (hs : s.status = 1) (hc : c ≠ clrfWord) :
      StepEnds s { s with port := rest }
  | leave {rest : List HostMove} (hp : s.port = .cmd clrfWord :: rest) (hs : s.status = 1) :
      StepEnds s ({ s with port := rest } : State).clearFault
  | fault {c : CmdWord} {rest : List HostMove} {k : Cause} (hp : s.port = .cmd c :: rest) (hs : s.status = 0) (hk : canRaise c k) :
      StepEnds s (({ s with port := rest } : State).faultEntry k c)
  | effect {i : Instr} {rest : List HostMove} {t : State} (hp : s.port = .cmd (encode i) :: rest) (hs : s.status = 0)
      (hd : decode (encode i) = .ok i) (he : Effect i { s with port := rest } t) : StepEnds s t

/-- A command word at the port: discarded, the return from FAULTED, a fault, or the decoded command's effect (R92, R232, R233). -/
theorem runCommand_ends {s t : State} {c : CmdWord} {rest : List HostMove} (hp : s.port = .cmd c :: rest)
    (h : runCommand c { s with port := rest } = .next t) : StepEnds s t := by
  unfold runCommand at h
  split at h
  · next hs =>
    split at h
    · next hc =>
      cases h
      exact .leave (hc ▸ hp) hs
    · next hc =>
      cases h
      exact .discard hp hs hc
  · next hs =>
    split at h
    · next r hd =>
      cases h
      exact .fault hp (status_eq_zero hs) (by simp only [canRaise, hd])
    · next i hd =>
      have hc := encode_of_decode hd
      subst hc
      rcases exec_eq_next h with ⟨k, rfl, hk⟩ | ⟨-, he⟩
      · have hmem : k ∈ causesOf i := hk.resolve_right fun hill => hill.2 (decode_eq_ok.mp hd).2
        exact .fault hp (status_eq_zero hs) (by simpa only [canRaise, hd] using hmem)
      · exact .effect hp (status_eq_zero hs) hd he

theorem step_ends {s t : State} (h : step s = .next t) : StepEnds s t := by
  rcases hp : s.port with _ | ⟨m, rest⟩
  · rw [step, takeMove_eq_none.mpr hp] at h
    cases h
    exact .wait hp
  · rw [step, takeMove_cons hp] at h
    cases m with
    | cmd c => exact runCommand_ends hp h
    | push bs => cases h; exact .push hp
    | observe => cases h; exact .observe hp
    | reset => cases h; exact .reset hp

/-! ### Legal states -/

theorem Cause.code_bounds (k : Cause) : 1 ≤ k.code.toNat ∧ k.code.toNat ≤ 6 := by cases k <;> decide

/-- Only DENOM, the fault registers and SOUT decide whether a state is legal. -/
theorem legal_of_eq_fields {s t : State} (h : s.Legal) (hd : t.denom = s.denom) (hs : t.status = s.status) (hc : t.cause = s.cause)
    (hf : t.fcmd = s.fcmd) (ho : t.sout = s.sout) : t.Legal := by
  unfold State.Legal State.den at h ⊢
  rwa [hd, hs, hc, hf, ho]

theorem faultEntry_legal {s : State} (h : s.Legal) (k : Cause) (c : CmdWord) : (s.faultEntry k c).Legal := by
  obtain ⟨hd, -, -, ho⟩ := h
  exact ⟨hd, fun h0 => absurd h0 (by simp), fun _ => k.code_bounds, ho⟩

theorem clearFault_legal {s : State} (h : s.Legal) : s.clearFault.Legal := by
  obtain ⟨hd, -, -, ho⟩ := h
  exact ⟨hd, fun _ => ⟨rfl, rfl⟩, fun h1 => absurd h1 (by simp), ho⟩

theorem writeDenom_legal {s : State} (h : s.Legal) {v : BitVec 8} (hv : 1 ≤ v.toNat) : (s.writeDenom v).Legal := by
  obtain ⟨-, h0, h1, ho⟩ := h
  exact ⟨hv, h0, h1, ho⟩

theorem appendSout_legal {s : State} (h : s.Legal) (w : BitVec 32) : (s.appendSout (codewordBytes w)).Legal := by
  obtain ⟨hd, h0, h1, ho⟩ := h
  refine ⟨hd, h0, h1, ?_⟩
  rw [appendSout_sout, List.length_append, codewordBytes_length]
  omega

theorem Effect.legal {i : Instr} {s t : State} (he : Effect i s t) (h : s.Legal) : t.Legal := by
  rcases he.cases with ⟨ht, -⟩ | ⟨-, rfl⟩ | ⟨_, _, v, -, hv, rfl⟩ | ⟨_, w, -, -, rfl⟩ | ⟨rd, v, -, -, rfl⟩
  · rw [ht]
    exact legal_of_eq_fields h rfl rfl rfl rfl rfl
  · exact clearFault_legal h
  · exact writeDenom_legal h hv
  · exact appendSout_legal h w
  · exact legal_of_eq_fields h rfl rfl rfl rfl rfl

theorem port_legal {s : State} (h : s.Legal) (moves : List HostMove) : ({ s with port := moves } : State).Legal :=
  legal_of_eq_fields h rfl rfl rfl rfl rfl

theorem reset_legal : State.reset.Legal :=
  ⟨by decide, fun _ => ⟨rfl, rfl⟩, fun h1 => absurd h1 (by decide), rfl⟩

/-- Settles O12, by the ends of a step. -/
theorem stepKeepsLegal : Obligations.StepKeepsLegal := by
  intro s t h hstep
  cases step_ends hstep with
  | wait => exact h
  | push => exact legal_of_eq_fields h rfl rfl rfl rfl rfl
  | observe => exact port_legal h _
  | reset => exact port_legal reset_legal _
  | discard => exact port_legal h _
  | leave => exact clearFault_legal (port_legal h _)
  | fault => exact faultEntry_legal (port_legal h _) _ _
  | effect _ _ _ he => exact he.legal (port_legal h _)

/-- Settles O13: no fault is recorded after reset, since STATUS is 0. -/
theorem resetIsLegal : Obligations.ResetIsLegal :=
  ⟨reset_legal, fun h1 => absurd h1 (by decide)⟩

/-! ### Reset -/

theorem step_reset {s : State} {rest : List HostMove} (hp : s.port = .reset :: rest) :
    step s = .next { State.reset with port := rest } := by
  simp [step, takeMove_cons hp, applyMove, hostReset]

/-- Settles O9. -/
theorem resetStateAsStated : Obligations.ResetStateAsStated :=
  ⟨⟨readReg_reset, rfl, rfl, rfl, rfl, rfl, rfl⟩,
    fun _ _ hp => ⟨_, step_reset hp, readReg_reset, rfl, rfl, rfl, rfl, rfl, rfl⟩⟩

/-! ### The streams -/

/-- Settles O16, by the ends of a step; of the commands only EMIT and TAKE touch a stream. -/
theorem streamsChangeOnlyByTheirMoves : Obligations.StreamsChangeOnlyByTheirMoves := by
  intro s t hstep
  cases step_ends hstep with
  | wait => exact ⟨.inl rfl, .inl rfl⟩
  | push hp => exact ⟨.inl rfl, .inr (.inr (.inl ⟨_, _, hp, rfl⟩))⟩
  | observe => exact ⟨.inl rfl, .inl rfl⟩
  | reset hp => exact ⟨.inr (.inl ⟨_, hp⟩), .inr (.inl ⟨_, hp⟩)⟩
  | discard => exact ⟨.inl rfl, .inl rfl⟩
  | leave => exact ⟨.inl rfl, .inl rfl⟩
  | fault => exact ⟨.inl rfl, .inl rfl⟩
  | effect hp _ _ he =>
    rcases he.cases with ⟨ht, -⟩ | ⟨-, rfl⟩ | ⟨_, _, _, -, -, rfl⟩ | ⟨rs1, w, rfl, hw, rfl⟩ | ⟨rd, _, rfl, hlen, rfl⟩
    · rw [ht]
      exact ⟨.inl rfl, .inl rfl⟩
    · exact ⟨.inl rfl, .inl rfl⟩
    · exact ⟨.inl rfl, .inl rfl⟩
    · exact ⟨.inr (.inr ⟨rs1, _, w, hp, hw, rfl⟩), .inl rfl⟩
    · exact ⟨.inl rfl, .inr (.inr (.inr ⟨rd, _, hp, hlen, rfl⟩))⟩

/-! ### Frames -/

/-- A command that has its effect keeps the registers outside its destination, and does not raise STATUS. -/
theorem Effect.frame {i : Instr} {s t : State} (he : Effect i s t) :
    (∀ q, q ∉ destRegs i → t.readReg q = s.readReg q) ∧ (s.status = 0 → t.status = 0) := by
  rcases he.cases with ⟨ht, hq⟩ | ⟨-, rfl⟩ | ⟨_, _, _, -, -, rfl⟩ | ⟨_, _, -, -, rfl⟩ | ⟨rd, v, rfl, -, rfl⟩
  · exact ⟨hq, fun h0 => by rw [ht]; exact h0⟩
  · exact ⟨fun _ _ => rfl, fun _ => rfl⟩
  · exact ⟨fun _ _ => rfl, id⟩
  · exact ⟨fun _ _ => rfl, id⟩
  · exact ⟨fun q hq => readReg_writeReg_other (by simpa [destRegs, eq_comm] using hq) _ _, id⟩

/-- Settles O17: the fault entry keeps every register, an effect those outside the destination. -/
theorem registersOutsideDestination : Obligations.RegistersOutsideDestination := by
  intro i s t h q hq
  rcases exec_eq_next h with ⟨k, rfl, -⟩ | ⟨-, he⟩
  · exact readReg_faultEntry _ _ _ _
  · obtain ⟨hregs, hstatus⟩ := he.frame
    rcases hq with hq | ⟨h0, h1⟩
    · exact hregs q hq
    · exact absurd (h1.symm.trans (hstatus h0)) (by decide)

/-- Settles O18: any command but the four has an effect on registers only. -/
theorem registerCommandsFrame : Obligations.RegisterCommandsFrame := by
  intro i s t hclrf hwrc hemit htake h
  rcases exec_eq_next h with ⟨k, rfl, -⟩ | ⟨-, he⟩
  · exact ⟨rfl, rfl, rfl, rfl, .inr ⟨k, rfl⟩⟩
  · rcases he.cases with ⟨ht, -⟩ | ⟨hi, -⟩ | ⟨_, _, _, hi, -⟩ | ⟨_, _, hi, -⟩ | ⟨_, _, hi, -⟩
    · rw [ht]
      exact ⟨rfl, rfl, rfl, rfl, .inl ⟨rfl, rfl, rfl⟩⟩
    · exact absurd hi hclrf
    · exact absurd hi (hwrc _ _)
    · exact absurd hi (hemit _)
    · exact absurd hi (htake _)

/-! ### Instructions that are not well formed -/

theorem groupReject_eq_none {r : Reg} {k : Nat} : groupReject r k = none ↔ r.val + k ≤ 16 := by
  simp [groupReject]

/-- A computation whose first check fails ends with `ILL`. -/
theorem complete_require_false {i : Instr} {s : State} {b : Bool} {f : Unit → Except Cause State} (h : b = false) :
    complete i s (require b .ill >>= f) = .next (s.faultEntry .ill (encode i)) := by
  rw [h]
  rfl

theorem complete_group_past {i : Instr} {s : State} {r : Reg} {k : Nat} {f : Unit → Except Cause State} (h : ¬ r.val + k ≤ 16) :
    complete i s (requireGroup r k >>= f) = .next (s.faultEntry .ill (encode i)) :=
  complete_require_false (decide_eq_false h)

/-- A computation with two group checks, of which one fails, ends with `ILL`. -/
theorem complete_groups_past {i : Instr} {s : State} {r q : Reg} {k n : Nat} {f : Unit → Except Cause State}
    (h : ¬ (r.val + k ≤ 16 ∧ q.val + n ≤ 16)) :
    complete i s (requireGroup r k >>= fun _ => requireGroup q n >>= f) = .next (s.faultEntry .ill (encode i)) := by
  by_cases hr : r.val + k ≤ 16
  · rw [requireGroup_fits hr]
    exact complete_group_past fun hq => h ⟨hr, hq⟩
  · exact complete_group_past hr

theorem groupsReject_eq_none {r q : Reg} {k n : Nat} :
    (groupReject r k <|> groupReject q n) = none ↔ r.val + k ≤ 16 ∧ q.val + n ≤ 16 := by
  rw [Option.orElse_eq_none, groupReject_eq_none, groupReject_eq_none]

theorem exec_of_not_wellFormed {i : Instr} {s : State} (h : ¬ i.WellFormed) :
    exec i s = .next (s.faultEntry .ill (encode i)) := by
  cases i with
  | rdc rd csr => exact complete_require_false (by simpa [Instr.reject] using h)
  | wrc csr rs1 =>
    have hne : csr ≠ 0 := by rintro rfl; exact h rfl
    exact complete_require_false (beq_eq_false_iff_ne.mpr hne)
  | rgb2ypp rd rs1 => exact complete_group_past (mt groupReject_eq_none.mpr h)
  | ypp2rgb rd rs1 => exact complete_group_past (mt groupReject_eq_none.mpr h)
  | btf rd rs1 => exact complete_groups_past (mt groupsReject_eq_none.mpr h)
  | bti rd rs1 => exact complete_groups_past (mt groupsReject_eq_none.mpr h)
  | avg4 rd rs1 => exact complete_group_past (mt groupReject_eq_none.mpr h)
  | packcw rd rs1 => exact complete_group_past (mt groupReject_eq_none.mpr h)
  | unpkcw rd rs1 => exact complete_group_past (mt groupReject_eq_none.mpr h)
  | cblk rd rs1 => exact complete_group_past (mt groupReject_eq_none.mpr h)
  | dblk rd rs1 => exact complete_group_past (mt groupReject_eq_none.mpr h)
  | _ => exact absurd rfl h

/-- Settles O11: the check that makes the instruction exist is the first thing each command does. -/
theorem illFormedTakesIll : Obligations.IllFormedTakesIll := fun _ _ h => exec_of_not_wellFormed h

end Sys2Proof.Machine

namespace Sys2Proof.Machine

/-!
What a command sees (10_state.md R45): two runs of one command, side by side. The two computations raise the same cause or end in
states that changed alike, because each check and each value is made of the sources only.
-/

/-! ### Agreement before a command, and after it -/

/-- Two states agree on what the command may see. -/
structure AgreeFor (i : Instr) (s u : State) : Prop where
  denom : s.denom = u.denom
  status : s.status = u.status
  cause : s.cause = u.cause
  fcmd : s.fcmd = u.fcmd
  head : s.sin.take 4 = u.sin.take 4
  sources : ∀ q ∈ sourceRegs i, s.readReg q = u.readReg q

/-- The command has changed `s` to `t` as it has changed `u` to `v`. -/
structure ChangedAlike (i : Instr) (s u t v : State) : Prop where
  status : t.status = v.status
  cause : t.cause = v.cause
  fcmd : t.fcmd = v.fcmd
  denom : t.denom = v.denom
  dest : t.status = 1 ∨ ∀ q ∈ destRegs i, t.readReg q = v.readReg q
  sout : ∃ bs, t.sout = s.sout ++ bs ∧ v.sout = u.sout ++ bs
  sin : ∃ n, t.sin = s.sin.drop n ∧ v.sin = u.sin.drop n

/-- Two legal running blocks agree on the fault registers, which are zero. -/
theorem agreeFor_of_legal {i : Instr} {s u : State} (hs : s.Legal) (hu : u.Legal) (hs0 : s.status = 0) (hu0 : u.status = 0)
    (hd : s.denom = u.denom) (hh : s.sin.take 4 = u.sin.take 4) (hq : ∀ q ∈ sourceRegs i, s.readReg q = u.readReg q) :
    AgreeFor i s u := by
  obtain ⟨-, hsz, -⟩ := hs
  obtain ⟨-, huz, -⟩ := hu
  obtain ⟨hsc, hsf⟩ := hsz hs0
  obtain ⟨huc, huf⟩ := huz hu0
  exact ⟨hd, hs0.trans hu0.symm, hsc.trans huc.symm, hsf.trans huf.symm, hh, hq⟩

theorem AgreeFor.den {i : Instr} {s u : State} (h : AgreeFor i s u) : s.den = u.den := by
  rw [State.den, State.den, h.denom]

/-- The first source register. -/
theorem AgreeFor.source {i : Instr} {s u : State} (h : AgreeFor i s u) {r : Reg} {rs : List Reg} (hr : sourceRegs i = r :: rs) :
    s.readReg r = u.readReg r :=
  h.sources r (hr ▸ List.mem_cons_self)

theorem AgreeFor.readCsr {i : Instr} {s u : State} (h : AgreeFor i s u) (n : BitVec 16) : s.readCsr n = u.readCsr n := by
  unfold State.readCsr
  rw [h.denom, h.status, h.cause, h.fcmd]

theorem readTriple_agree {s u : State} {r : Reg} (h : ∀ q ∈ [r, r.plus 1, r.plus 2], s.readReg q = u.readReg q) :
    s.readTriple r = u.readTriple r := by
  simp only [List.forall_mem_cons] at h
  obtain ⟨h0, h1, h2, -⟩ := h
  rw [State.readTriple, State.readTriple, h0, h1, h2]

theorem readQuad_agree {s u : State} {r : Reg} (h : ∀ q ∈ [r, r.plus 1, r.plus 2, r.plus 3], s.readReg q = u.readReg q) :
    s.readQuad r = u.readQuad r := by
  simp only [List.forall_mem_cons] at h
  obtain ⟨h0, h1, h2, h3, -⟩ := h
  rw [State.readQuad, State.readQuad, h0, h1, h2, h3]

theorem readHex_agree {s u : State} {r : Reg}
    (h : ∀ q ∈ [r, r.plus 1, r.plus 2, r.plus 3, r.plus 4, r.plus 5], s.readReg q = u.readReg q) : s.readHex r = u.readHex r := by
  simp only [List.forall_mem_cons] at h
  obtain ⟨h0, h1, h2, h3, h4, h5, -⟩ := h
  rw [State.readHex, State.readHex, h0, h1, h2, h3, h4, h5]

/-- Where nothing is appended to `SOUT`, the same bytes are: none. -/
theorem nothing_appended (s u : State) : ∃ bs, s.sout = s.sout ++ bs ∧ u.sout = u.sout ++ bs :=
  ⟨[], (List.append_nil _).symm, (List.append_nil _).symm⟩

/-- Where nothing is removed from `SIN`, the same number of bytes is. -/
theorem nothing_removed (s u : State) : ∃ n, s.sin = s.sin.drop n ∧ u.sin = u.sin.drop n := ⟨0, rfl, rfl⟩

/-! ### Two computations side by side -/

/-- Two computations raise the same cause, or both end, in states changed alike. -/
inductive EndAlike (i : Instr) (s u : State) : Except Cause State → Except Cause State → Prop
  | raise (k : Cause) : EndAlike i s u (.error k) (.error k)
  | done {t v : State} (h : ChangedAlike i s u t v) : EndAlike i s u (.ok t) (.ok v)

section
variable {i : Instr} {s u : State}

/-- Two computations whose first parts are the same. -/
theorem endAlike_bind {α : Type} {x y : Except Cause α} {f g : α → Except Cause State} (hx : x = y)
    (hf : ∀ a, x = .ok a → EndAlike i s u (f a) (g a)) : EndAlike i s u (x >>= f) (y >>= g) := by
  subst hx
  cases x with
  | error k => exact .raise k
  | ok a => exact hf a rfl

theorem endAlike_require {b c : Bool} {k : Cause} {f g : Unit → Except Cause State} (hb : b = c)
    (hf : EndAlike i s u (f ()) (g ())) : EndAlike i s u (require b k >>= f) (require c k >>= g) :=
  endAlike_bind (by rw [hb]) fun _ _ => hf

/-- The group check looks at the instruction only. -/
theorem endAlike_group {r : Reg} {n : Nat} {f g : Unit → Except Cause State}
    (hf : r.val + n ≤ 16 → EndAlike i s u (f ()) (g ())) :
    EndAlike i s u (requireGroup r n >>= f) (requireGroup r n >>= g) :=
  endAlike_bind rfl fun _ h => hf (of_decide_eq_true (require_eq_ok.mp h))

/-- A change of registers only, to the same values in the destination. -/
theorem AgreeFor.changed_regs (h : AgreeFor i s u) {x y : Vector Word 16}
    (hd : ∀ q ∈ destRegs i, ({ s with x := x } : State).readReg q = ({ u with x := y } : State).readReg q) :
    ChangedAlike i s u { s with x := x } { u with x := y } :=
  ⟨h.status, h.cause, h.fcmd, h.denom, .inr hd, nothing_appended _ _, nothing_removed _ _⟩

theorem AgreeFor.writeReg (h : AgreeFor i s u) {rd : Reg} (hd : destRegs i = [rd]) {a b : Word} (hab : a = b) :
    EndAlike i s u (.ok (s.writeReg rd a)) (.ok (u.writeReg rd b)) := by
  refine .done (h.changed_regs fun q hq => ?_)
  obtain rfl : q = rd := by simpa [hd] using hq
  exact (readReg_writeReg_same s q a).trans (hab.trans (readReg_writeReg_same u q b).symm)

/-- A group write of the same values: each destination register is a member of the group. -/
theorem AgreeFor.writeGroup (h : AgreeFor i s u) {rd : Reg} {vs : List Word} (hfit : rd.val + vs.length ≤ 16)
    (hd : destRegs i = (List.range vs.length).map rd.plus) :
    EndAlike i s u (.ok (s.writeGroup rd vs)) (.ok (u.writeGroup rd vs)) := by
  rw [writeGroup_eq s, writeGroup_eq u]
  refine .done (h.changed_regs fun q hq => ?_)
  rw [hd, List.mem_map] at hq
  obtain ⟨k, hk, rfl⟩ := hq
  rw [List.mem_range] at hk
  rw [← writeGroup_eq s, ← writeGroup_eq u, readReg_writeGroup_member hfit hk, readReg_writeGroup_member hfit hk]

/-- The end of a command (R13): a cause raised by both is entered alike, and leaves the streams. -/
theorem AgreeFor.changed_of_complete (h : AgreeFor i s u) {x y : Except Cause State} {t v : State} (hxy : EndAlike i s u x y)
    (ht : complete i s x = .next t) (hv : complete i u y = .next v) : ChangedAlike i s u t v := by
  cases hxy with
  | raise k =>
    cases ht
    cases hv
    exact ⟨rfl, rfl, rfl, h.denom, .inl rfl, nothing_appended _ _, nothing_removed _ _⟩
  | done hc =>
    cases ht
    cases hv
    exact hc

end

/-! ### Every command -/

/-- Where the heads agree, both streams are too short, or the same codeword is taken from both. -/
theorem takeSin_agree {s u : State} (h : s.sin.take 4 = u.sin.take 4) :
    (s.takeSin = none ∧ u.takeSin = none) ∨
      ∃ w, s.takeSin = some (w, { s with sin := s.sin.drop 4 }) ∧ u.takeSin = some (w, { u with sin := u.sin.drop 4 }) := by
  have hlen : min 4 s.sin.length = min 4 u.sin.length := by simpa using congrArg List.length h
  cases hs : s.takeSin with
  | none =>
    rw [takeSin_eq_none] at hs ⊢
    exact .inl ⟨rfl, by omega⟩
  | some p =>
    obtain ⟨b0, b1, b2, b3, rest, hsin, hw, hp⟩ := takeSin_eq_some.mp (show s.takeSin = some (p.1, p.2) from hs)
    have husin : u.sin = b0 :: b1 :: b2 :: b3 :: u.sin.drop 4 := by
      rw [← List.take_append_drop 4 u.sin, ← h, hsin]
      rfl
    refine .inr ⟨p.1, ?_, takeSin_eq_some.mpr ⟨b0, b1, b2, b3, _, husin, hw, rfl⟩⟩
    rw [hsin]
    exact congrArg (fun t => some (p.1, t)) hp

theorem AgreeFor.endAlike {i : Instr} {s u : State} (h : AgreeFor i s u) :
    ∃ x y, exec i s = complete i s x ∧ exec i u = complete i u y ∧ EndAlike i s u x y := by
  have hden := h.den
  cases i with
  | nop => exact ⟨.ok _, .ok _, rfl, rfl, .done (h.changed_regs (List.forall_mem_nil _))⟩
  | clrf =>
    exact ⟨.ok _, .ok _, rfl, rfl,
      .done ⟨rfl, rfl, rfl, h.denom, .inr (List.forall_mem_nil _), nothing_appended _ _, nothing_removed _ _⟩⟩
  | li rd imm => exact ⟨.ok _, .ok _, rfl, rfl, h.writeReg rfl rfl⟩
  | lih rd imm => exact ⟨.ok _, .ok _, rfl, rfl, h.writeReg rfl (congrArg (shiftIn · imm) (h.source rfl))⟩
  | mv rd rs1 => exact ⟨.ok _, .ok _, rfl, rfl, h.writeReg rfl (h.source rfl)⟩
  | rdc rd csr => exact ⟨_, _, rfl, rfl, endAlike_require rfl (h.writeReg rfl (h.readCsr csr))⟩
  | wrc csr rs1 =>
    have hv : s.readReg rs1 = u.readReg rs1 := h.source rfl
    refine ⟨_, _, rfl, rfl, endAlike_require rfl (endAlike_require (by rw [hv]) (.done ?_))⟩
    exact ⟨h.status, h.cause, h.fcmd, congrArg (BitVec.extractLsb' 0 8) hv, .inr (List.forall_mem_nil _),
      nothing_appended _ _, nothing_removed _ _⟩
  | fitsu rd rs1 w =>
    have hv : s.readReg rs1 = u.readReg rs1 := h.source rfl
    exact ⟨.ok _, .ok _, rfl, rfl, h.writeReg rfl (by rw [hv])⟩
  | fitss rd rs1 w =>
    have hv : s.readReg rs1 = u.readReg rs1 := h.source rfl
    exact ⟨.ok _, .ok _, rfl, rfl, h.writeReg rfl (by rw [hv])⟩
  | getu rd rs1 w l =>
    have hv : s.readReg rs1 = u.readReg rs1 := h.source rfl
    exact ⟨_, _, rfl, rfl, endAlike_require rfl (h.writeReg rfl (by rw [hv]))⟩
  | gets rd rs1 w l =>
    have hv : s.readReg rs1 = u.readReg rs1 := h.source rfl
    exact ⟨_, _, rfl, rfl, endAlike_require rfl (h.writeReg rfl (by rw [hv]))⟩
  | setu rd rs1 w l =>
    have hw : s.readReg rd = u.readReg rd := h.source rfl
    have hv : s.readReg rs1 = u.readReg rs1 := h.sources rs1 (by simp [sourceRegs])
    exact ⟨_, _, rfl, rfl, endAlike_require rfl (endAlike_require (by rw [hv]) (h.writeReg rfl (by rw [hw, hv])))⟩
  | sets rd rs1 w l =>
    have hw : s.readReg rd = u.readReg rd := h.source rfl
    have hv : s.readReg rs1 = u.readReg rs1 := h.sources rs1 (by simp [sourceRegs])
    exact ⟨_, _, rfl, rfl, endAlike_require rfl (endAlike_require (by rw [hv]) (h.writeReg rfl (by rw [hw, hv])))⟩
  | rgb2ypp rd rs1 =>
    have hv : s.readReg rs1 = u.readReg rs1 := h.source rfl
    refine ⟨_, _, rfl, rfl, endAlike_group fun hrd => endAlike_bind (by rw [hv, hden]) fun p _ => ?_⟩
    rw [hden]
    exact h.writeGroup hrd (by simp [destRegs, List.range_succ])
  | ypp2rgb rd rs1 =>
    exact ⟨_, _, rfl, rfl, endAlike_group fun _ => endAlike_bind (congrArg floatTriple (readTriple_agree h.sources)) fun t _ =>
      endAlike_bind (congrArg (chromaToRgb t) hden) fun p _ => h.writeReg rfl rfl⟩
  | btf rd rs1 =>
    exact ⟨_, _, rfl, rfl, endAlike_group fun hrd => endAlike_group fun _ =>
      endAlike_bind (congrArg floatQuad (readQuad_agree h.sources)) fun q _ => endAlike_bind rfl fun r _ =>
        h.writeGroup hrd (by simp [destRegs, Quad.toList, List.range_succ])⟩
  | bti rd rs1 =>
    exact ⟨_, _, rfl, rfl, endAlike_group fun hrd => endAlike_group fun _ =>
      endAlike_bind (congrArg floatQuad (readQuad_agree h.sources)) fun q _ => endAlike_bind rfl fun r _ =>
        h.writeGroup hrd (by simp [destRegs, Quad.toList, List.range_succ])⟩
  | avg4 rd rs1 =>
    exact ⟨_, _, rfl, rfl, endAlike_group fun _ => endAlike_bind (congrArg floatQuad (readQuad_agree h.sources)) fun q _ =>
      endAlike_bind rfl fun m _ => h.writeReg rfl rfl⟩
  | qa rd rs1 =>
    exact ⟨_, _, rfl, rfl, endAlike_bind (congrArg floatView (h.source rfl)) fun a _ => endAlike_bind rfl fun n _ => h.writeReg rfl rfl⟩
  | qbcd rd rs1 => exact ⟨_, _, rfl, rfl, endAlike_bind (congrArg floatView (h.source rfl)) fun v _ => h.writeReg rfl rfl⟩
  | qch rd rs1 => exact ⟨_, _, rfl, rfl, endAlike_bind (congrArg floatView (h.source rfl)) fun v _ => h.writeReg rfl rfl⟩
  | dqa rd rs1 =>
    have hv : s.readReg rs1 = u.readReg rs1 := h.source rfl
    exact ⟨.ok _, .ok _, rfl, rfl, h.writeReg rfl (by rw [hv])⟩
  | dqbcd rd rs1 =>
    have hv : s.readReg rs1 = u.readReg rs1 := h.source rfl
    exact ⟨.ok _, .ok _, rfl, rfl, h.writeReg rfl (by rw [hv])⟩
  | dqch rd rs1 => exact ⟨_, _, rfl, rfl, endAlike_bind (congrArg Machine.indexOf (h.source rfl)) fun i _ => h.writeReg rfl rfl⟩
  | packcw rd rs1 =>
    exact ⟨_, _, rfl, rfl, endAlike_group fun _ => endAlike_bind (congrArg packCw (readHex_agree h.sources)) fun w _ =>
      h.writeReg rfl rfl⟩
  | unpkcw rd rs1 =>
    exact ⟨_, _, rfl, rfl, endAlike_group fun hrd => endAlike_bind (congrArg codewordOf (h.source rfl)) fun w _ =>
      h.writeGroup hrd (by simp [destRegs, hexWords, List.range_succ])⟩
  | cblk rd rs1 =>
    exact ⟨_, _, rfl, rfl, endAlike_group fun _ => endAlike_bind (congrArg₂ pixelQuad (readQuad_agree h.sources) hden) fun q _ =>
      endAlike_bind (congrArg (compressBlock chromaIndexOf q) hden) fun w _ => h.writeReg rfl rfl⟩
  | dblk rd rs1 =>
    exact ⟨_, _, rfl, rfl, endAlike_group fun hrd => endAlike_bind (congrArg codewordOf (h.source rfl)) fun w _ =>
      endAlike_bind (congrArg (decompressBlock chromaOfIndex w) hden) fun q _ =>
        h.writeGroup hrd (by simp [destRegs, Quad.toList, List.range_succ])⟩
  | emit rs1 =>
    refine ⟨_, _, rfl, rfl, endAlike_bind (congrArg codewordOf (h.source rfl)) fun w _ => .done ?_⟩
    exact ⟨h.status, h.cause, h.fcmd, h.denom, .inr (List.forall_mem_nil _), ⟨codewordBytes w, rfl, rfl⟩, nothing_removed _ _⟩
  | take rd =>
    refine ⟨_, _, rfl, rfl, ?_⟩
    rcases takeSin_agree h.head with ⟨hs, hu⟩ | ⟨w, hs, hu⟩
    · rw [hs, hu]
      exact .raise .dim
    · rw [hs, hu]
      refine .done ⟨h.status, h.cause, h.fcmd, h.denom, .inr fun q hn => ?_, nothing_appended _ _, ⟨4, rfl, rfl⟩⟩
      obtain rfl := List.mem_singleton.mp hn
      rw [readReg_writeReg_same, readReg_writeReg_same]

/-- Settles O20: the two runs agree on what the command may see, so their computations end alike. -/
theorem commandsSeeOnlyTheirSources : Obligations.CommandsSeeOnlyTheirSources := by
  intro i s u t v hs hu hs0 hu0 hd hh hq ht hv
  have h : AgreeFor i s u := agreeFor_of_legal hs hu hs0 hu0 hd hh hq
  obtain ⟨x, y, hx, hy, hxy⟩ := h.endAlike
  have hc : ChangedAlike i s u t v := h.changed_of_complete hxy (hx ▸ ht) (hy ▸ hv)
  exact ⟨hc.status, hc.cause, hc.fcmd, hc.denom, hc.dest, hc.sout, hc.sin⟩

end Sys2Proof.Machine

namespace Sys2Proof.Machine

/-!
The host's moves and the streams (20_memory.md R63, R68; 44_codec.md R179, R180): a move that is no command, and a codeword that leaves
one block by EMIT and enters another by TAKE.
-/

/-! ### The host's moves -/

theorem step_cons {s : State} {m : HostMove} {rest : List HostMove} (hp : s.port = m :: rest) :
    step s = applyMove m { s with port := rest } := by
  rw [step, takeMove_cons hp]

theorem step_waiting {s : State} (hp : s.port = []) : step s = .next s := by
  rw [step, takeMove_eq_none.mpr hp]

/-- Settles O8, move by move. -/
theorem hostMovesEffect : Obligations.HostMovesEffect :=
  fun _ _ => ⟨fun _ hp => step_cons hp, fun hp => step_cons hp, fun hp => ⟨_, step_reset hp, rfl⟩, step_waiting⟩

/-! ### A codeword through the streams -/

/-- A codeword's bytes, joined with the most significant first, are the codeword (R12, R63). -/
theorem append_codewordBytes (w : BitVec 32) :
    w.extractLsb' 24 8 ++ w.extractLsb' 16 8 ++ w.extractLsb' 8 8 ++ w.extractLsb' 0 8 = w := by
  have join {n : Nat} (k : Nat) : w.extractLsb' (k + 8) n ++ w.extractLsb' k 8 = w.extractLsb' k (n + 8) :=
    BitVec.extractLsb'_append_extractLsb'_eq_extractLsb' rfl
  rw [join 16, join 8, join 0, BitVec.extractLsb'_eq_self]

theorem takeSin_of_codewordBytes {s : State} {w : BitVec 32} {rest : List Byte} (h : s.sin = codewordBytes w ++ rest) :
    s.takeSin = some (w, { s with sin := rest }) :=
  takeSin_eq_some.mpr ⟨_, _, _, _, rest, h, (append_codewordBytes w).symm, rfl⟩

/-- `TAKE` of a codeword at the head of SIN (R180). -/
theorem exec_take_codewordBytes (rd : Reg) {s : State} {w : BitVec 32} {rest : List Byte} (h : s.sin = codewordBytes w ++ rest) :
    exec (.take rd) s = .next (({ s with sin := rest } : State).writeReg rd (codewordWord w)) := by
  simp only [exec, execTake, takeSin_of_codewordBytes h, complete_ok]

/-- An `EMIT` that leaves the block running has appended the bytes of its source register's codeword (R179). -/
theorem emit_of_running {rs1 : Reg} {s t : State} (h : exec (.emit rs1) s = .next t) (ht : t.status = 0) :
    ∃ w : BitVec 32, s.readReg rs1 = codewordWord w ∧ t = s.appendSout (codewordBytes w) := by
  rcases exec_eq_next h with ⟨k, rfl, -⟩ | ⟨-, he⟩
  · exact absurd ht (by simp)
  · exact he

/-- Settles O54: the emitted bytes are those of a codeword, which the TAKE puts together again. -/
theorem emitThenTake : Obligations.EmitThenTake := by
  intro rs1 rd s t u rest _ hemit ht hsin
  obtain ⟨w, hw, rfl⟩ := emit_of_running hemit ht
  have hu : u.sin = codewordBytes w ++ rest := by rw [hsin, appendSout_sout, List.drop_left]
  exact ⟨_, exec_take_codewordBytes rd hu, by rw [readReg_writeReg_same, hw], rfl, rfl⟩

end Sys2Proof.Machine

namespace Sys2Proof

/-!
Encoder and decoder undo each other (30_encoding.md R81 to R91): each format reads back the fields it was written with, so an instruction is what
its own word decodes to, and a word decodes exactly to the well-formed instructions it encodes.
-/

/-! ### Each format reads the word made of its fields -/

theorem formatN_wordOf (op : BitVec 8) (i : Instr) : formatN (wordOf op 0 0 0) i = .ok i :=
  ifZero_eq_ok.mpr ⟨by simp, rfl⟩

theorem formatR_wordOf (op : BitVec 8) (rd rs1 : Reg) (mk : Reg → Reg → Instr) :
    formatR (wordOf op (regBits rd) (regBits rs1) 0) mk = .ok (mk rd rs1) :=
  ifZero_eq_ok.mpr ⟨by simp, by simp [rdField, rs1Field]⟩

theorem formatRS_wordOf (op : BitVec 8) (rs1 : Reg) (mk : Reg → Instr) : formatRS (wordOf op 0 (regBits rs1) 0) mk = .ok (mk rs1) :=
  ifZero_eq_ok.mpr ⟨by simp, by simp [rs1Field]⟩

theorem formatRD_wordOf (op : BitVec 8) (rd : Reg) (mk : Reg → Instr) : formatRD (wordOf op (regBits rd) 0 0) mk = .ok (mk rd) :=
  ifZero_eq_ok.mpr ⟨by simp, by simp [rdField]⟩

theorem formatI_wordOf (op : BitVec 8) (rd : Reg) (imm : BitVec 16) (mk : Reg → BitVec 16 → Instr) :
    formatI (wordOf op (regBits rd) 0 imm) mk = .ok (mk rd imm) :=
  ifZero_eq_ok.mpr ⟨by simp, by simp [rdField]⟩

theorem formatCW_wordOf (op : BitVec 8) (csr : BitVec 16) (rs1 : Reg) (mk : BitVec 16 → Reg → Instr) :
    formatCW (wordOf op 0 (regBits rs1) csr) mk = .ok (mk csr rs1) :=
  ifZero_eq_ok.mpr ⟨by simp, by simp [rs1Field]⟩

theorem formatB_wordOf (op : BitVec 8) (rd rs1 : Reg) (w l : BitVec 7) (mk : Reg → Reg → BitVec 7 → BitVec 7 → Instr) :
    formatB (wordOf op (regBits rd) (regBits rs1) (fieldImm w l)) mk = .ok (mk rd rs1 w l) :=
  ifZero_eq_ok.mpr ⟨by simp [lowField_eq], by simp [rdField, rs1Field, widthField_eq, lsbField_eq]⟩

theorem formatBW_wordOf (op : BitVec 8) (rd rs1 : Reg) (w : BitVec 7) (mk : Reg → Reg → BitVec 7 → Instr) :
    formatBW (wordOf op (regBits rd) (regBits rs1) (fieldImm w 0)) mk = .ok (mk rd rs1 w) :=
  ifZero_eq_ok.mpr ⟨by simp [lsbField_eq, lowField_eq], by simp [rdField, rs1Field, widthField_eq]⟩

/-! ### The round trip -/

theorem opField_encode (i : Instr) : opField (encode i) = i.opcode := opField_wordOf _ _ _ _

/-- The pattern part alone gives every instruction back, well formed or not: the row is found by the opcode, and it has the
instruction's format. -/
theorem decodePattern_encode (i : Instr) : decodePattern (encode i) = .ok i := by
  rw [decodePattern, opField_encode]
  cases i with
  | nop | clrf => exact formatN_wordOf _ _
  | li | lih | rdc => exact formatI_wordOf _ _ _ _
  | wrc => exact formatCW_wordOf _ _ _ _
  | fitsu | fitss => exact formatBW_wordOf _ _ _ _ _
  | getu | gets | setu | sets => exact formatB_wordOf _ _ _ _ _ _
  | emit => exact formatRS_wordOf _ _ _
  | take => exact formatRD_wordOf _ _ _
  | _ => exact formatR_wordOf _ _ _ _

/-- R91: the words that decode are the encodings of the well-formed instructions, and of no others. -/
theorem decode_eq_ok_iff_encode {c : CmdWord} {i : Instr} : decode c = .ok i ↔ encode i = c ∧ i.WellFormed := by
  refine ⟨fun h => ⟨encode_of_decode h, (decode_eq_ok.mp h).2⟩, ?_⟩
  rintro ⟨rfl, hwf⟩
  exact decode_eq_ok.mpr ⟨decodePattern_encode i, hwf⟩

theorem encode_injective : Function.Injective encode := fun i j h => by
  have hij := decodePattern_encode i
  rw [h, decodePattern_encode] at hij
  exact (Except.ok.inj hij).symm

/-- Settles O2, by the instruction's format. -/
theorem decodeOfEncode : Obligations.DecodeOfEncode := fun _ hwf => decode_eq_ok_iff_encode.mpr ⟨rfl, hwf⟩

/-- Settles O3: a word is made of its fields, and each of them is an operand or zero. -/
theorem encodeOfDecode : Obligations.EncodeOfDecode := fun _ _ h => decode_eq_ok_iff_encode.mp h

end Sys2Proof

namespace Sys2Proof

/-!
The opcode map as R90 prints it, by mask and match, against the decoder. A row's pattern fixes the opcode and requires fields to be zero, field by
field; those are the fields of the row's format, so the words with the pattern are the encodings of the row's instructions, and the row's extra
check is their well-formedness.
-/

/-! ### A row's pattern, field by field -/

theorem eq_wordOf_iff {c : CmdWord} {op : BitVec 8} {rd rs1 : BitVec 4} {imm : BitVec 16} :
    c = wordOf op rd rs1 imm ↔ opField c = op ∧ rdBits c = rd ∧ rs1Bits c = rs1 ∧ immField c = imm := by
  refine ⟨fun h => by simp [h], ?_⟩
  rintro ⟨rfl, rfl, rfl, rfl⟩
  exact (wordOf_fields c).symm

/-- Every row of R90 compares the whole opcode, and asks of the other bits only that some of them are zero. -/
theorem opcodeRows_shape : ∀ row ∈ opcodeRows,
    opField row.mask = BitVec.allOnes 8 ∧ row.value = wordOf (opField row.value) 0 0 0 := by decide

theorem hasPattern_iff {row : OpcodeRow} (hrow : row ∈ opcodeRows) {c : CmdWord} : row.hasPattern c = true ↔
    opField c = opField row.value ∧ rdBits c &&& rdBits row.mask = 0 ∧ rs1Bits c &&& rs1Bits row.mask = 0 ∧
      immField c &&& immField row.mask = 0 := by
  obtain ⟨hop, hvalue⟩ := opcodeRows_shape row hrow
  have hand : opField (c &&& row.mask) = opField c := by
    rw [opField, BitVec.extractLsb'_and, ← opField, ← opField, hop, BitVec.and_allOnes]
  rw [OpcodeRow.hasPattern, beq_iff_eq, hvalue, eq_wordOf_iff, hand, opField_wordOf, rdBits, rs1Bits, immField]
  simp only [BitVec.extractLsb'_and, rdBits, rs1Bits, immField]

/-- The bits that a row compares are those of its value. -/
theorem extractLsb'_of_hasPattern {row : OpcodeRow} {c : CmdWord} (h : row.hasPattern c = true) {k n : Nat}
    (hm : row.mask.extractLsb' k n = BitVec.allOnes n) : c.extractLsb' k n = row.value.extractLsb' k n := by
  rw [OpcodeRow.hasPattern, beq_iff_eq] at h
  rw [← h, BitVec.extractLsb'_and, hm, BitVec.and_allOnes]

theorem opField_of_hasPattern {row : OpcodeRow} (hrow : row ∈ opcodeRows) {c : CmdWord} (h : row.hasPattern c = true) :
    opField c = opField row.value :=
  extractLsb'_of_hasPattern h (opcodeRows_shape row hrow).1

/-- The row compares the `n` bits from bit `k` on, with zero. -/
def OpcodeRow.RequiresZero (row : OpcodeRow) (k n : Nat) : Prop :=
  row.mask.extractLsb' k n = BitVec.allOnes n ∧ row.value.extractLsb' k n = 0

theorem OpcodeRow.RequiresZero.eq_zero {row : OpcodeRow} {k n : Nat} (hz : row.RequiresZero k n) {c : CmdWord}
    (h : row.hasPattern c = true) : c.extractLsb' k n = 0 :=
  (extractLsb'_of_hasPattern h hz.1).trans hz.2

/-! ### What the words of a row encode -/

/-- Every word with the row's pattern encodes the instruction read from its fields, and the row's extra check is that this one is well formed. -/
def OpcodeRow.Reads (row : OpcodeRow) (read : CmdWord → Instr) : Prop :=
  ∀ c, row.hasPattern c = true → encode (read c) = c ∧ (row.extra c = true ↔ (read c).WellFormed)

theorem reads_of_fields {row : OpcodeRow} (hrow : row ∈ opcodeRows) {read : CmdWord → Instr}
    (hop : ∀ c, (read c).opcode = opField row.value)
    (hargs : ∀ c, row.hasPattern c = true → (read c).operandBits = (rdBits c, rs1Bits c, immField c))
    (hextra : ∀ c, row.extra c = true ↔ (read c).WellFormed) : row.Reads read := fun c h =>
  ⟨encode_eq_of_fields (by rw [hop, opField_of_hasPattern hrow h]) (hargs c h), hextra c⟩

section
variable {row : OpcodeRow} {c : CmdWord}

theorem fields_formatN (hrd : row.RequiresZero 20 4) (hrs1 : row.RequiresZero 16 4) (himm : row.RequiresZero 0 16)
    (h : row.hasPattern c = true) : (0, 0, 0) = (rdBits c, rs1Bits c, immField c) := by
  simp [rdBits, rs1Bits, immField, hrd.eq_zero h, hrs1.eq_zero h, himm.eq_zero h]

theorem fields_formatR (himm : row.RequiresZero 0 16) (h : row.hasPattern c = true) :
    (regBits (rdField c), regBits (rs1Field c), 0) = (rdBits c, rs1Bits c, immField c) := by
  simp [rdField, rs1Field, immField, himm.eq_zero h]

theorem fields_formatRS (hrd : row.RequiresZero 20 4) (himm : row.RequiresZero 0 16) (h : row.hasPattern c = true) :
    (0, regBits (rs1Field c), 0) = (rdBits c, rs1Bits c, immField c) := by
  simp [rdBits, rs1Field, immField, hrd.eq_zero h, himm.eq_zero h]

theorem fields_formatRD (hrs1 : row.RequiresZero 16 4) (himm : row.RequiresZero 0 16) (h : row.hasPattern c = true) :
    (regBits (rdField c), 0, 0) = (rdBits c, rs1Bits c, immField c) := by
  simp [rdField, rs1Bits, immField, hrs1.eq_zero h, himm.eq_zero h]

theorem fields_formatI (hrs1 : row.RequiresZero 16 4) (h : row.hasPattern c = true) :
    (regBits (rdField c), 0, immField c) = (rdBits c, rs1Bits c, immField c) := by
  simp [rdField, rs1Bits, hrs1.eq_zero h]

theorem fields_formatCW (hrd : row.RequiresZero 20 4) (h : row.hasPattern c = true) :
    (0, regBits (rs1Field c), immField c) = (rdBits c, rs1Bits c, immField c) := by
  simp [rdBits, rs1Field, hrd.eq_zero h]

theorem fields_formatB (hlow : row.RequiresZero 0 2) (h : row.hasPattern c = true) :
    (regBits (rdField c), regBits (rs1Field c), fieldImm (widthField c) (lsbField c)) = (rdBits c, rs1Bits c, immField c) := by
  have hz : (immField c).extractLsb' 0 2 = 0 := (lowField_eq c).symm.trans (hlow.eq_zero h)
  rw [widthField_eq, lsbField_eq, fieldImm_fields _ hz, rdField, rs1Field, regBits_regOf, regBits_regOf]

theorem fields_formatBW (hlsb : row.RequiresZero 2 7) (hlow : row.RequiresZero 0 2) (h : row.hasPattern c = true) :
    (regBits (rdField c), regBits (rs1Field c), fieldImm (widthField c) 0) = (rdBits c, rs1Bits c, immField c) := by
  have hz : lsbField c = 0 := hlsb.eq_zero h
  rw [← hz, fields_formatB hlow h]

end

/-! ### The extra checks -/

theorem rdAtMost_iff {n k : Nat} (h : n + k = 16) (c : CmdWord) : rdAtMost n c = true ↔ groupReject (rdField c) k = none := by
  have hval : (rdField c).val = (rdBits c).toNat := rfl
  rw [Machine.groupReject_eq_none, rdAtMost, decide_eq_true_iff, hval]
  omega

theorem rs1AtMost_iff {n k : Nat} (h : n + k = 16) (c : CmdWord) : rs1AtMost n c = true ↔ groupReject (rs1Field c) k = none := by
  have hval : (rs1Field c).val = (rs1Bits c).toNat := rfl
  rw [Machine.groupReject_eq_none, rs1AtMost, decide_eq_true_iff, hval]
  omega

theorem quadsAtMost_iff (c : CmdWord) :
    (rdAtMost 12 c && rs1AtMost 12 c) = true ↔ (groupReject (rdField c) 4 <|> groupReject (rs1Field c) 4) = none := by
  rw [Bool.and_eq_true, rdAtMost_iff (k := 4) rfl, rs1AtMost_iff (k := 4) rfl, Option.orElse_eq_none]

theorem csrAtMost_rdc_iff (c : CmdWord) : csrAtMost 3 c = true ↔ (Instr.rdc (rdField c) (immField c)).WellFormed := by
  simp [csrAtMost, Instr.WellFormed, Instr.reject]

theorem wrc_wellFormed_iff {csr : BitVec 16} {rs1 : Reg} : (Instr.wrc csr rs1).WellFormed ↔ csr = 0 := by
  simp only [Instr.WellFormed, Instr.reject]
  split
  · next h => exact iff_of_true rfl h
  · next h => exact iff_of_false (by split <;> exact Option.some_ne_none _) h

theorem csrAtMost_wrc_iff (c : CmdWord) : csrAtMost 0 c = true ↔ (Instr.wrc (immField c) (rs1Field c)).WellFormed := by
  rw [wrc_wellFormed_iff, csrAtMost, decide_eq_true_iff, Nat.le_zero, ← BitVec.toNat_inj, BitVec.ofNat_eq_ofNat, BitVec.toNat_zero]

/-! ### Each row has its instructions, and each instruction its row -/

theorem opcodeRows_read : ∀ row ∈ opcodeRows, ∃ read, row.Reads read := by
  intro row hrow
  have hcases := hrow
  simp only [opcodeRows, systemRows, bitPackerRows, transformRows, quantizerRows, codecRows, List.cons_append, List.nil_append,
    List.mem_cons, List.not_mem_nil, or_false] at hcases
  have hnone (c : CmdWord) : noExtra c = true ↔ (none : Option Reject) = none := iff_of_true rfl rfl
  rcases hcases with rfl | rfl | rfl | rfl | rfl | rfl | rfl | rfl | rfl | rfl | rfl | rfl | rfl | rfl | rfl | rfl | rfl | rfl | rfl |
    rfl | rfl | rfl | rfl | rfl | rfl | rfl | rfl | rfl | rfl | rfl
  · exact ⟨fun _ => .nop, reads_of_fields hrow (fun _ => rfl) (fun _ => fields_formatN ⟨rfl, rfl⟩ ⟨rfl, rfl⟩ ⟨rfl, rfl⟩) hnone⟩
  · exact ⟨fun _ => .clrf, reads_of_fields hrow (fun _ => rfl) (fun _ => fields_formatN ⟨rfl, rfl⟩ ⟨rfl, rfl⟩ ⟨rfl, rfl⟩) hnone⟩
  · exact ⟨fun c => .li (rdField c) (immField c), reads_of_fields hrow (fun _ => rfl) (fun _ => fields_formatI ⟨rfl, rfl⟩) hnone⟩
  · exact ⟨fun c => .lih (rdField c) (immField c), reads_of_fields hrow (fun _ => rfl) (fun _ => fields_formatI ⟨rfl, rfl⟩) hnone⟩
  · exact ⟨fun c => .mv (rdField c) (rs1Field c), reads_of_fields hrow (fun _ => rfl) (fun _ => fields_formatR ⟨rfl, rfl⟩) hnone⟩
  · exact ⟨fun c => .rdc (rdField c) (immField c), reads_of_fields hrow (fun _ => rfl) (fun _ => fields_formatI ⟨rfl, rfl⟩) csrAtMost_rdc_iff⟩
  · exact ⟨fun c => .wrc (immField c) (rs1Field c), reads_of_fields hrow (fun _ => rfl) (fun _ => fields_formatCW ⟨rfl, rfl⟩) csrAtMost_wrc_iff⟩
  · exact ⟨fun c => .fitsu (rdField c) (rs1Field c) (widthField c), reads_of_fields hrow (fun _ => rfl) (fun _ => fields_formatBW ⟨rfl, rfl⟩ ⟨rfl, rfl⟩) hnone⟩
  · exact ⟨fun c => .fitss (rdField c) (rs1Field c) (widthField c), reads_of_fields hrow (fun _ => rfl) (fun _ => fields_formatBW ⟨rfl, rfl⟩ ⟨rfl, rfl⟩) hnone⟩
  · exact ⟨fun c => .getu (rdField c) (rs1Field c) (widthField c) (lsbField c), reads_of_fields hrow (fun _ => rfl) (fun _ => fields_formatB ⟨rfl, rfl⟩) hnone⟩
  · exact ⟨fun c => .gets (rdField c) (rs1Field c) (widthField c) (lsbField c), reads_of_fields hrow (fun _ => rfl) (fun _ => fields_formatB ⟨rfl, rfl⟩) hnone⟩
  · exact ⟨fun c => .setu (rdField c) (rs1Field c) (widthField c) (lsbField c), reads_of_fields hrow (fun _ => rfl) (fun _ => fields_formatB ⟨rfl, rfl⟩) hnone⟩
  · exact ⟨fun c => .sets (rdField c) (rs1Field c) (widthField c) (lsbField c), reads_of_fields hrow (fun _ => rfl) (fun _ => fields_formatB ⟨rfl, rfl⟩) hnone⟩
  · exact ⟨fun c => .rgb2ypp (rdField c) (rs1Field c), reads_of_fields hrow (fun _ => rfl) (fun _ => fields_formatR ⟨rfl, rfl⟩) (rdAtMost_iff rfl)⟩
  · exact ⟨fun c => .ypp2rgb (rdField c) (rs1Field c), reads_of_fields hrow (fun _ => rfl) (fun _ => fields_formatR ⟨rfl, rfl⟩) (rs1AtMost_iff rfl)⟩
  · exact ⟨fun c => .btf (rdField c) (rs1Field c), reads_of_fields hrow (fun _ => rfl) (fun _ => fields_formatR ⟨rfl, rfl⟩) quadsAtMost_iff⟩
  · exact ⟨fun c => .bti (rdField c) (rs1Field c), reads_of_fields hrow (fun _ => rfl) (fun _ => fields_formatR ⟨rfl, rfl⟩) quadsAtMost_iff⟩
  · exact ⟨fun c => .avg4 (rdField c) (rs1Field c), reads_of_fields hrow (fun _ => rfl) (fun _ => fields_formatR ⟨rfl, rfl⟩) (rs1AtMost_iff rfl)⟩
  · exact ⟨fun c => .qa (rdField c) (rs1Field c), reads_of_fields hrow (fun _ => rfl) (fun _ => fields_formatR ⟨rfl, rfl⟩) hnone⟩
  · exact ⟨fun c => .qbcd (rdField c) (rs1Field c), reads_of_fields hrow (fun _ => rfl) (fun _ => fields_formatR ⟨rfl, rfl⟩) hnone⟩
  · exact ⟨fun c => .qch (rdField c) (rs1Field c), reads_of_fields hrow (fun _ => rfl) (fun _ => fields_formatR ⟨rfl, rfl⟩) hnone⟩
  · exact ⟨fun c => .dqa (rdField c) (rs1Field c), reads_of_fields hrow (fun _ => rfl) (fun _ => fields_formatR ⟨rfl, rfl⟩) hnone⟩
  · exact ⟨fun c => .dqbcd (rdField c) (rs1Field c), reads_of_fields hrow (fun _ => rfl) (fun _ => fields_formatR ⟨rfl, rfl⟩) hnone⟩
  · exact ⟨fun c => .dqch (rdField c) (rs1Field c), reads_of_fields hrow (fun _ => rfl) (fun _ => fields_formatR ⟨rfl, rfl⟩) hnone⟩
  · exact ⟨fun c => .packcw (rdField c) (rs1Field c), reads_of_fields hrow (fun _ => rfl) (fun _ => fields_formatR ⟨rfl, rfl⟩) (rs1AtMost_iff rfl)⟩
  · exact ⟨fun c => .unpkcw (rdField c) (rs1Field c), reads_of_fields hrow (fun _ => rfl) (fun _ => fields_formatR ⟨rfl, rfl⟩) (rdAtMost_iff rfl)⟩
  · exact ⟨fun c => .cblk (rdField c) (rs1Field c), reads_of_fields hrow (fun _ => rfl) (fun _ => fields_formatR ⟨rfl, rfl⟩) (rs1AtMost_iff rfl)⟩
  · exact ⟨fun c => .dblk (rdField c) (rs1Field c), reads_of_fields hrow (fun _ => rfl) (fun _ => fields_formatR ⟨rfl, rfl⟩) (rdAtMost_iff rfl)⟩
  · exact ⟨fun c => .emit (rs1Field c), reads_of_fields hrow (fun _ => rfl) (fun _ => fields_formatRS ⟨rfl, rfl⟩ ⟨rfl, rfl⟩) hnone⟩
  · exact ⟨fun c => .take (rdField c), reads_of_fields hrow (fun _ => rfl) (fun _ => fields_formatRD ⟨rfl, rfl⟩ ⟨rfl, rfl⟩) hnone⟩

/-- The row with the opcode. -/
def rowOf (op : BitVec 8) : Option OpcodeRow := opcodeRows.find? fun row => opField row.value == op

theorem rowOf_eq_some {op : BitVec 8} {row : OpcodeRow} (h : rowOf op = some row) : row ∈ opcodeRows ∧ op = opField row.value := by
  rw [rowOf] at h
  have hop := List.find?_some h
  exact ⟨List.mem_of_find?_eq_some h, (beq_iff_eq.mp hop).symm⟩

/-- An instruction's word has the pattern of the row with its opcode when the operand bits that the row compares are zero. -/
theorem hasPattern_encode {i : Instr} {row : OpcodeRow} (hrow : rowOf i.opcode = some row) (hrd : i.operandBits.1 &&& rdBits row.mask = 0)
    (hrs1 : i.operandBits.2.1 &&& rs1Bits row.mask = 0) (himm : i.operandBits.2.2 &&& immField row.mask = 0) :
    ∃ row ∈ opcodeRows, row.hasPattern (encode i) = true := by
  obtain ⟨hmem, hop⟩ := rowOf_eq_some hrow
  refine ⟨row, hmem, (hasPattern_iff hmem).mpr ?_⟩
  rw [encode, opField_wordOf, rdBits_wordOf, rs1Bits_wordOf, immField_wordOf]
  exact ⟨hop, hrd, hrs1, himm⟩

theorem fieldImm_and (w l w' l' : BitVec 7) (low : BitVec 2) : fieldImm w l &&& (w' ++ l' ++ low) = fieldImm (w &&& w') (l &&& l') := by
  have hlow : 0 &&& low = 0 := BitVec.zero_and
  rw [fieldImm, fieldImm, BitVec.and_append (w := 14) (v := 2), BitVec.and_append (w := 7) (v := 7), hlow]

theorem fieldImm_and_low (w l : BitVec 7) : fieldImm w l &&& 0x0003 = 0 :=
  (fieldImm_and w l 0 0 3).trans (by simp [fieldImm])

theorem fieldImm_zero_and_low (w : BitVec 7) : fieldImm w 0 &&& 0x01FF = 0 :=
  (fieldImm_and w 0 0 0x7F 3).trans (by simp [fieldImm])

theorem exists_row (i : Instr) : ∃ row ∈ opcodeRows, row.hasPattern (encode i) = true := by
  cases i with
  | nop | clrf => exact hasPattern_encode rfl BitVec.zero_and BitVec.zero_and BitVec.zero_and
  | li | lih | rdc => exact hasPattern_encode rfl BitVec.and_zero BitVec.zero_and BitVec.and_zero
  | wrc => exact hasPattern_encode rfl BitVec.zero_and BitVec.and_zero BitVec.and_zero
  | fitsu | fitss => exact hasPattern_encode rfl BitVec.and_zero BitVec.and_zero (fieldImm_zero_and_low _)
  | getu | gets | setu | sets => exact hasPattern_encode rfl BitVec.and_zero BitVec.and_zero (fieldImm_and_low _ _)
  | emit => exact hasPattern_encode rfl BitVec.zero_and BitVec.and_zero BitVec.zero_and
  | take => exact hasPattern_encode rfl BitVec.and_zero BitVec.zero_and BitVec.zero_and
  | _ => exact hasPattern_encode rfl BitVec.and_zero BitVec.and_zero BitVec.zero_and

/-! ### The rows against the decoder -/

theorem exists_encode_of_hasPattern {row : OpcodeRow} (hrow : row ∈ opcodeRows) {c : CmdWord} (hc : row.hasPattern c = true) :
    ∃ i, encode i = c ∧ (row.extra c = true ↔ i.WellFormed) := by
  obtain ⟨read, hread⟩ := opcodeRows_read row hrow
  exact ⟨read c, hread c hc⟩

theorem value_of_hasPattern {row : OpcodeRow} (hrow : row ∈ opcodeRows) {c : CmdWord} (hc : row.hasPattern c = true) :
    row.value = wordOf (opField c) 0 0 0 := by
  rw [opField_of_hasPattern hrow hc, ← (opcodeRows_shape row hrow).2]

theorem exists_row_of_decode {c : CmdWord} {i : Instr} (h : decode c = .ok i) : ∃ row ∈ opcodeRows, row.hasPattern c = true ∧
    row.extra c = true ∧ row.value.extractLsb' 24 8 = i.opcode := by
  obtain ⟨rfl, hwf⟩ := decode_eq_ok_iff_encode.mp h
  obtain ⟨row, hrow, hc⟩ := exists_row i
  obtain ⟨j, hj, hextra⟩ := exists_encode_of_hasPattern hrow hc
  have hji : j = i := encode_injective hj
  exact ⟨row, hrow, hc, hextra.mpr (hji ▸ hwf), (opField_of_hasPattern hrow hc).symm.trans (opField_encode i)⟩

/-- Settles O4: the words of a row are encodings, and an encoding has the row with its opcode. -/
theorem decodeFollowsOpcodeMap : Obligations.DecodeFollowsOpcodeMap := by
  refine fun c => ⟨⟨?_, ?_⟩, fun a ha b hb hac hbc => ?_, fun i => exists_row_of_decode⟩
  · rintro ⟨i, hi⟩
    obtain ⟨row, hrow, hc, hextra, -⟩ := exists_row_of_decode hi
    exact ⟨row, hrow, hc, hextra⟩
  · rintro ⟨row, hrow, hc, hextra⟩
    obtain ⟨i, hi, hwf⟩ := exists_encode_of_hasPattern hrow hc
    exact ⟨i, decode_eq_ok_iff_encode.mpr ⟨hi, hwf.mp hextra⟩⟩
  · rw [value_of_hasPattern ha hac, value_of_hasPattern hb hbc]

end Sys2Proof

namespace Sys2Proof.Machine

/-! ### A command word at the port of a running block -/

/-- Settles O6. -/
theorem stepRunsDecodedCommand : Obligations.StepRunsDecodedCommand := by
  intro s c rest i hs hp hd
  rw [step_cons hp]
  simp [applyMove, runCommand, hs, hd]

theorem step_illegal {s : State} {c : CmdWord} {rest : List HostMove} {r : Reject} (hs : s.status = 0) (hp : s.port = .cmd c :: rest)
    (hd : decode c = .error r) : step s = .next (({ s with port := rest } : State).faultEntry .ill c) := by
  rw [step_cons hp]
  simp [applyMove, runCommand, hs, hd]

/-- Settles O5: by O4 such a word does not decode. -/
theorem illegalWordTakesIll : Obligations.IllegalWordTakesIll := by
  refine ⟨fun s c rest hs hp hrows => ?_, by decide⟩
  cases hd : decode c with
  | error r => exact step_illegal hs hp hd
  | ok i =>
    obtain ⟨row, hrow, hc, hextra⟩ := (decodeFollowsOpcodeMap c).1.mp ⟨i, hd⟩
    exact absurd hextra (by simp [hrows row hrow hc])

end Sys2Proof.Machine

namespace Sys2Proof.Machine

/-!
The pseudo-commands (30_encoding.md R96): an LI and LIHs on one register load a value computed from the immediates alone.
-/

/-! ### LI and LIH one after the other -/

theorem writeReg_writeReg_same (s : State) (r : Reg) (v w : Word) : (s.writeReg r v).writeReg r w = s.writeReg r w := by
  simp [State.writeReg]

theorem execAll_li (rd : Reg) (imm : BitVec 16) (is : List Instr) (s : State) :
    execAll (.li rd imm :: is) s = execAll is (s.writeReg rd (imm.signExtend 64)) := rfl

theorem execAll_lih (rd : Reg) (v : Word) (imm : BitVec 16) (is : List Instr) (s : State) :
    execAll (.lih rd imm :: is) (s.writeReg rd v) = execAll is (s.writeReg rd (shiftIn v imm)) := by
  have hexec (t : State) : execAll (.lih rd imm :: is) t = execAll is (t.writeReg rd (shiftIn (t.readReg rd) imm)) := rfl
  rw [hexec, readReg_writeReg_same, writeReg_writeReg_same]

theorem toNat_append_eq_add {m n : Nat} (x : BitVec m) (y : BitVec n) : (x ++ y).toNat = x.toNat * 2 ^ n + y.toNat := by
  rw [BitVec.toNat_append, ← Nat.shiftLeft_add_eq_or_of_lt y.isLt, Nat.shiftLeft_eq]

theorem toNat_shiftIn (old : Word) (imm : BitVec 16) : (shiftIn old imm).toNat = old.toNat % 2 ^ 48 * 2 ^ 16 + imm.toNat := by
  rw [shiftIn, toNat_append_eq_add, BitVec.extractLsb'_toNat, Nat.shiftRight_zero]

theorem toNat_signExtend_of_nonneg {imm : BitVec 16} (h : imm.toNat < 2 ^ 15) : (imm.signExtend 64).toNat = imm.toNat := by
  have hmsb : imm.msb = false := BitVec.msb_eq_false_iff_two_mul_lt.mpr (by omega)
  rw [BitVec.signExtend_eq_setWidth_of_msb_false hmsb, BitVec.toNat_setWidth_of_le (by decide)]

theorem toNat_signExtend_mod (imm : BitVec 16) : (imm.signExtend 64).toNat % 2 ^ 16 = imm.toNat := by
  rw [BitVec.toNat_signExtend, BitVec.toNat_setWidth_of_le (by decide)]
  split <;> omega

/-! ### What the expansions load -/

/-- Three LIHs push the sign bits of the LI out. -/
theorem execAll_loadWord (rd : Reg) (v : Word) (s : State) : execAll (loadWord rd v) s = .next (s.writeReg rd v) := by
  have hload : shiftIn (shiftIn (shiftIn ((v.extractLsb' 48 16).signExtend 64) (v.extractLsb' 32 16)) (v.extractLsb' 16 16))
      (v.extractLsb' 0 16) = v := by
    apply BitVec.eq_of_toNat_eq
    have htop := toNat_signExtend_mod (v.extractLsb' 48 16)
    simp only [toNat_shiftIn, BitVec.extractLsb'_toNat, Nat.shiftRight_eq_div_pow] at htop ⊢
    omega
  rw [loadWord, execAll_li, execAll_lih, execAll_lih, execAll_lih, hload, execAll]

/-- An LI of a nonnegative immediate leaves zeros above it, so LI and LIH load the two immediates' number. -/
theorem execAll_li_lih (rd : Reg) {hi lo : BitVec 16} {v : Word} (hhi : hi.toNat < 2 ^ 15) (hv : v.toNat = hi.toNat * 2 ^ 16 + lo.toNat)
    (s : State) : execAll [.li rd hi, .lih rd lo] s = .next (s.writeReg rd v) := by
  have hload : shiftIn (hi.signExtend 64) lo = v := by
    apply BitVec.eq_of_toNat_eq
    rw [toNat_shiftIn, toNat_signExtend_of_nonneg hhi, hv]
    omega
  rw [execAll_li, execAll_lih, hload, execAll]

theorem execAll_li32 (rd : Reg) {v : BitVec 32} (h : v.toNat < 2 ^ 31) (s : State) :
    execAll (Pseudo.li32 rd v).expand s = .next (s.writeReg rd (v.setWidth 64)) := by
  have hhi : (v.extractLsb' 16 16).toNat = v.toNat / 2 ^ 16 % 2 ^ 16 := by rw [BitVec.extractLsb'_toNat, Nat.shiftRight_eq_div_pow]
  have hlo : (v.extractLsb' 0 16).toNat = v.toNat % 2 ^ 16 := by rw [BitVec.extractLsb'_toNat, Nat.shiftRight_zero]
  have hv : (v.setWidth 64).toNat = v.toNat := BitVec.toNat_setWidth_of_le (by decide)
  exact execAll_li_lih rd (by omega) (by omega) s

theorem execAll_lpix (rd : Reg) (p : Pixel) (s : State) :
    execAll (Pseudo.lpix rd p).expand s = .next (s.writeReg rd (pixelWord p)) := by
  apply execAll_li_lih
  · rw [BitVec.toNat_setWidth]
    omega
  · rw [pixelWord, BitVec.toNat_setWidth_of_le (by decide), BitVec.toNat_setWidth_of_le (by decide)]
    simp only [toNat_append_eq_add]
    omega

/-- Settles O59, one expansion after the other. -/
theorem pseudoCommandsLoad : Obligations.PseudoCommandsLoad := fun rd s =>
  ⟨fun v => execAll_loadWord rd v s, fun _ h => execAll_li32 rd h s, fun p => execAll_lpix rd p s, rfl,
    fun _ _ _ => execAll_loadWord rd _ s⟩

end Sys2Proof.Machine

namespace Sys2Proof

/-!
The words of one opcode (30_encoding.md R81, R86): what they decode to, and the format-B words written out field by field.
-/

/-! ### The words of one opcode -/

/-- An opcode decodes as stated when its row's format requires `zero` and the legal words are those whose instruction also exists. -/
theorem decodesAs_of_pattern {op : BitVec 8} {legal zero : CmdWord → Bool} {read : CmdWord → Instr}
    (hpat : ∀ c, opField c = op → decodePattern c = ifZero (zero c) (read c))
    (hlegal : ∀ c, legal c = true ↔ zero c = true ∧ (read c).WellFormed) : Machine.decodesAs op legal read := by
  intro c hop
  have hok {i : Instr} : decode c = .ok i ↔ (zero c = true ∧ i = read c) ∧ i.WellFormed := by
    rw [decode_eq_ok, hpat c hop, ifZero_eq_ok]
  split
  next h =>
    obtain ⟨hz, hwf⟩ := (hlegal c).mp h
    exact hok.mpr ⟨⟨hz, rfl⟩, hwf⟩
  next h =>
    cases hd : decode c with
    | error r => exact ⟨r, rfl⟩
    | ok i =>
      obtain ⟨⟨hz, rfl⟩, hwf⟩ := hok.mp hd
      exact absurd ((hlegal c).mpr ⟨hz, hwf⟩) h

theorem decodesAs_formatB {op : BitVec 8} {mk : Reg → Reg → BitVec 7 → BitVec 7 → Instr}
    (hpat : ∀ c, opField c = op → decodePattern c = formatB c mk) (hwf : ∀ rd rs1 w l, (mk rd rs1 w l).WellFormed) :
    Machine.decodesAs op (fun c => c.extractLsb' 0 2 == 0)
      (fun c => mk (rdField c) (rs1Field c) (c.extractLsb' 9 7) (c.extractLsb' 2 7)) :=
  decodesAs_of_pattern hpat fun _ => ⟨fun h => ⟨h, hwf _ _ _ _⟩, fun h => h.1⟩

theorem lsbField_lowField_eq_zero (c : CmdWord) :
    (c.extractLsb' 0 9 == 0) = true ↔ (lsbField c == 0 && lowField c == 0) = true := by
  have happ : c.extractLsb' 0 9 = lsbField c ++ lowField c :=
    (BitVec.extractLsb'_append_extractLsb'_eq_extractLsb' (start₂ := 2) (start₁ := 0) (len₁ := 2) (len₂ := 7) rfl).symm
  rw [happ, Bool.and_eq_true]
  simp only [beq_iff_eq, ← BitVec.toNat_inj, Machine.toNat_append_eq_add, BitVec.ofNat_eq_ofNat, BitVec.toNat_zero]
  omega

theorem decodesAs_formatBW {op : BitVec 8} {mk : Reg → Reg → BitVec 7 → Instr}
    (hpat : ∀ c, opField c = op → decodePattern c = formatBW c mk) (hwf : ∀ rd rs1 w, (mk rd rs1 w).WellFormed) :
    Machine.decodesAs op (fun c => c.extractLsb' 0 9 == 0) (fun c => mk (rdField c) (rs1Field c) (c.extractLsb' 9 7)) :=
  decodesAs_of_pattern hpat fun c =>
    ⟨fun h => ⟨(lsbField_lowField_eq_zero c).mp h, hwf _ _ _⟩, fun h => (lsbField_lowField_eq_zero c).mpr h.1⟩

/-! ### The format-B word, field by field -/

theorem wordOf_fieldImm (op : BitVec 8) (rd rs1 : BitVec 4) (w l : BitVec 7) :
    wordOf op rd rs1 (fieldImm w l) = op ++ rd ++ rs1 ++ w ++ l ++ (0 : BitVec 2) := by
  apply BitVec.eq_of_toNat_eq
  simp only [wordOf, fieldImm, Machine.toNat_append_eq_add]
  omega

theorem wordOf_fieldImm_zero (op : BitVec 8) (rd rs1 : BitVec 4) (w : BitVec 7) :
    wordOf op rd rs1 (fieldImm w 0) = op ++ rd ++ rs1 ++ w ++ (0 : BitVec 9) := by
  apply BitVec.eq_of_toNat_eq
  simp only [wordOf, fieldImm, Machine.toNat_append_eq_add, BitVec.ofNat_eq_ofNat, BitVec.toNat_zero]
  omega

end Sys2Proof

namespace Sys2Proof.Machine

/-!
The BitPacker (40_bitpacker.md). A field is read and written bit by bit; a signed field is the two's complement reading of its `w` bits.
-/

/-! ### Fields as bit vectors of their width -/

/-- R114: the field's bits read as a two's complement number. -/
theorem getSigned_eq_toInt (word : Word) {w : Nat} (hw : 1 ≤ w) (l : Nat) :
    getSigned word w l = (BitVec.ofNat w (getUnsigned word w l)).toInt := by
  have htwo : 2 ^ w = 2 * 2 ^ (w - 1) := by rw [← pow_succ', Nat.sub_add_cancel hw]
  rw [BitVec.toInt_eq_toNat_cond, BitVec.toNat_ofNat, Nat.mod_eq_of_lt (getUnsigned_lt word w l), getSigned]
  push_cast
  split <;> split <;> omega

theorem ofNat_getUnsigned_getLsbD (word : Word) (w l j : Nat) :
    (BitVec.ofNat w (getUnsigned word w l)).getLsbD j = (decide (j < w) && word.getLsbD (l + j)) := by
  rw [BitVec.getLsbD_ofNat, getUnsigned_testBit, ← Bool.and_assoc, Bool.and_self]

theorem to64_getUnsigned_getLsbD (word : Word) (w l : Nat) {j : Nat} (hj : j < 64) :
    (to64 (getUnsigned word w l)).getLsbD j = (decide (j < w) && word.getLsbD (l + j)) := by
  rw [to64, BitVec.ofInt_natCast, BitVec.getLsbD_ofNat, getUnsigned_testBit, decide_eq_true hj, Bool.true_and]

/-- Above its width a signed field repeats its top bit: `to64` of a two's complement number is its sign extension. -/
theorem to64_getSigned_getLsbD (word : Word) {w : Nat} (hw : 1 ≤ w) (l : Nat) {j : Nat} (hj : j < 64) :
    (to64 (getSigned word w l)).getLsbD j = if j < w then word.getLsbD (l + j) else word.getLsbD (l + w - 1) := by
  have hext : to64 (getSigned word w l) = (BitVec.ofNat w (getUnsigned word w l)).signExtend 64 :=
    congrArg to64 (getSigned_eq_toInt word hw l)
  have htop : w - 1 < w := Nat.sub_one_lt_of_lt hw
  rw [hext, BitVec.getLsbD_signExtend, decide_eq_true hj, Bool.true_and, BitVec.msb_eq_getLsbD_last, ofNat_getUnsigned_getLsbD,
    ofNat_getUnsigned_getLsbD, decide_eq_true htop, Bool.true_and, Nat.add_sub_assoc hw]
  exact ite_congr rfl (fun h => by rw [decide_eq_true h, Bool.true_and]) fun _ => rfl

/-- `v mod 2^w` of R116. -/
theorem toNat_ofInt_two_pow (w : Nat) (v : Int) : (v % (2 : Int) ^ w).toNat = (BitVec.ofInt w v).toNat := by
  rw [BitVec.toNat_ofInt, Nat.cast_pow, Nat.cast_ofNat]

/-- The low `w` bits of a register do not depend on the view it is read in. -/
theorem toInt_mod_two_pow (x : Word) {w : Nat} (hw : w ≤ 64) : (x.toInt % (2 : Int) ^ w).toNat = x.toNat % 2 ^ w := by
  have hlow : BitVec.ofInt w x.toInt = x.setWidth w := BitVec.signExtend_eq_setWidth_of_le x hw
  rw [toNat_ofInt_two_pow, hlow, BitVec.toNat_setWidth]

theorem setUnsigned_getLsbD (word x : Word) {w l : Nat} (h : l + w ≤ 64) (hx : x.toNat < 2 ^ w) (j : Nat) :
    (setUnsigned word w l (u64 x)).getLsbD j = if l ≤ j ∧ j < l + w then x.getLsbD (j - l) else word.getLsbD j :=
  putField_getLsbD h hx

theorem setSigned_getLsbD (word x : Word) {w l : Nat} (h : l + w ≤ 64) (j : Nat) :
    (setSigned word w l (s64 x)).getLsbD j = if l ≤ j ∧ j < l + w then x.getLsbD (j - l) else word.getLsbD j := by
  rw [setSigned, toInt_mod_two_pow x (by omega), putField_getLsbD h (Nat.mod_lt _ (Nat.two_pow_pos w))]
  refine ite_congr rfl (fun hj => ?_) fun _ => rfl
  have hlow : j - l < w := by omega
  rw [Nat.testBit_mod_two_pow, decide_eq_true hlow, Bool.true_and, BitVec.testBit_toNat]

/-! ### The field that was set -/

theorem putField_getLsbD_outside {word : Word} {w l n : Nat} (h : l + w ≤ 64) (hn : n < 2 ^ w) {j : Nat} (hj : j < l ∨ l + w ≤ j) :
    (putField word w l n).getLsbD j = word.getLsbD j := by
  rw [putField_getLsbD h hn, if_neg (by omega)]

theorem getSigned_setSigned (word : Word) {w l : Nat} (hw : 1 ≤ w) (h : l + w ≤ 64) {v : Int} (hlo : -(2 : Int) ^ (w - 1) ≤ v)
    (hhi : v < (2 : Int) ^ (w - 1)) : getSigned (setSigned word w l v) w l = v := by
  rw [getSigned_eq_toInt _ hw, setSigned, toNat_ofInt_two_pow, getUnsigned_putField h (BitVec.isLt _), BitVec.ofNat_toNat,
    BitVec.setWidth_eq, BitVec.toInt_ofInt_eq_self hw hlo hhi]

/-- Settles O31: what is set is the value's `w` low bits, which are its `w`-bit number in either reading. -/
theorem fieldRoundTrip : Obligations.FieldRoundTrip := by
  refine fun word w l hw h => ⟨fun v hv => ?_, fun v hlo hhi => ?_⟩
  · exact ⟨getUnsigned_putField h hv, fun j => putField_getLsbD_outside h hv⟩
  · have hlt : (v % (2 : Int) ^ w).toNat < 2 ^ w := toNat_ofInt_two_pow w v ▸ BitVec.isLt _
    exact ⟨getSigned_setSigned word hw h hlo hhi, fun j => putField_getLsbD_outside h hlt⟩

/-! ### How a command with checks ends -/

theorem writeReg_frame (s : State) (rd : Reg) (v : Word) :
    (∀ q, q ≠ rd → (s.writeReg rd v).readReg q = s.readReg q) ∧ sameButRegs s (s.writeReg rd v) :=
  ⟨fun _ hq => readReg_writeReg_other hq.symm s v, rfl⟩

theorem complete_require_of_true {i : Instr} {s : State} {b : Bool} {k : Cause} {f : Unit → Except Cause State} (h : b = true) :
    complete i s (require b k >>= f) = complete i s (f ()) := by
  rw [h, require_true, bind_ok]

theorem complete_require_of_false {i : Instr} {s : State} {b : Bool} {k : Cause} {f : Unit → Except Cause State} (h : b = false) :
    complete i s (require b k >>= f) = .next (s.faultEntry k (encode i)) := by
  rw [h, require_false, bind_error, complete_error]

theorem validField_eq_false {w l : Nat} (h : w = 0 ∨ 64 < l + w) : validField w l = false := by
  rw [← Bool.not_eq_true, validField_iff]
  omega

theorem fitsUnsigned_eq_false {v w : Nat} (h : 2 ^ w ≤ v) : fitsUnsigned v w = false := by
  rw [← Bool.not_eq_true, fitsUnsigned_iff]
  omega

theorem fitsSigned_eq_false {v : Int} {w : Nat} (h : v < -(2 : Int) ^ (w - 1) ∨ (2 : Int) ^ (w - 1) ≤ v) : fitsSigned v w = false := by
  rw [← Bool.not_eq_true, fitsSigned_iff]
  omega

/-! ### FITSU and FITSS -/

/-- Settles O28: neither command has a check, so each ends in its register write. -/
theorem fitsCommandsAnswer : Obligations.FitsCommandsAnswer := by
  refine ⟨decodesAs_formatBW (fun c h => by rw [decodePattern, h]; rfl) fun _ _ _ => rfl,
    decodesAs_formatBW (fun c h => by rw [decodePattern, h]; rfl) fun _ _ _ => rfl, fun rd rs1 width s => ?_⟩
  refine ⟨wordOf_fieldImm_zero _ _ _ _, wordOf_fieldImm_zero _ _ _ _, ⟨_, rfl, ?_, writeReg_frame _ _ _⟩,
    ⟨_, rfl, ?_, writeReg_frame _ _ _⟩⟩
  · rw [readReg_writeReg_same]
    exact if_congr fitsUnsigned_iff rfl rfl
  · rw [readReg_writeReg_same]
    exact if_congr fitsSigned_iff rfl rfl

/-! ### GETU and GETS -/

section
variable (rd rs1 : Reg) {width lsb : BitVec 7} (s : State)

theorem getu_of_valid (h : validField width.toNat lsb.toNat = true) : exec (.getu rd rs1 width lsb) s =
    .next (s.writeReg rd (to64 (getUnsigned (s.readReg rs1) width.toNat lsb.toNat))) := complete_require_of_true h

theorem gets_of_valid (h : validField width.toNat lsb.toNat = true) : exec (.gets rd rs1 width lsb) s =
    .next (s.writeReg rd (to64 (getSigned (s.readReg rs1) width.toNat lsb.toNat))) := complete_require_of_true h

end

/-- Settles O29, by the field's validity. -/
theorem getCommandsReadField : Obligations.GetCommandsReadField := by
  refine ⟨decodesAs_formatB (fun c h => by rw [decodePattern, h]; rfl) fun _ _ _ _ => rfl,
    decodesAs_formatB (fun c h => by rw [decodePattern, h]; rfl) fun _ _ _ _ => rfl, fun rd rs1 width lsb s => ?_⟩
  refine ⟨wordOf_fieldImm _ _ _ _ _, wordOf_fieldImm _ _ _ _ _, fun hw hl => ?_, fun hinv => ?_⟩
  · have hvalid := validField_iff.mpr ⟨hw, hl⟩
    refine ⟨⟨_, getu_of_valid rd rs1 s hvalid, fun j hj => ?_, writeReg_frame _ _ _⟩,
      ⟨_, gets_of_valid rd rs1 s hvalid, fun j hj => ?_, writeReg_frame _ _ _⟩⟩
    · rw [readReg_writeReg_same, to64_getUnsigned_getLsbD _ _ _ hj]
    · rw [readReg_writeReg_same, to64_getSigned_getLsbD _ hw _ hj]
  · have hinvalid := validField_eq_false hinv
    exact ⟨complete_require_of_false hinvalid, complete_require_of_false hinvalid⟩

/-! ### SETU and SETS -/

section
variable (rd rs1 : Reg) {width lsb : BitVec 7} (s : State)

theorem setu_of_fits (h : validField width.toNat lsb.toNat = true) (hf : fitsUnsigned (u64 (s.readReg rs1)) width.toNat = true) :
    exec (.setu rd rs1 width lsb) s =
      .next (s.writeReg rd (setUnsigned (s.readReg rd) width.toNat lsb.toNat (u64 (s.readReg rs1)))) :=
  (complete_require_of_true h).trans (complete_require_of_true hf)

theorem sets_of_fits (h : validField width.toNat lsb.toNat = true) (hf : fitsSigned (s64 (s.readReg rs1)) width.toNat = true) :
    exec (.sets rd rs1 width lsb) s =
      .next (s.writeReg rd (setSigned (s.readReg rd) width.toNat lsb.toNat (s64 (s.readReg rs1)))) :=
  (complete_require_of_true h).trans (complete_require_of_true hf)

end

/-- Settles O30, by the field's validity and then by whether the value fits. -/
theorem setCommandsWriteField : Obligations.SetCommandsWriteField := by
  refine ⟨decodesAs_formatB (fun c h => by rw [decodePattern, h]; rfl) fun _ _ _ _ => rfl,
    decodesAs_formatB (fun c h => by rw [decodePattern, h]; rfl) fun _ _ _ _ => rfl, fun rd rs1 width lsb s => ?_⟩
  refine ⟨wordOf_fieldImm _ _ _ _ _, wordOf_fieldImm _ _ _ _ _, fun hw hl => ?_, fun hinv => ?_⟩
  · have hvalid := validField_iff.mpr ⟨hw, hl⟩
    refine ⟨fun hfits => ?_, fun hlo hhi => ?_, fun hbig => ?_, fun hout => ?_⟩
    · refine ⟨_, setu_of_fits rd rs1 s hvalid (fitsUnsigned_iff.mpr ⟨hw, hfits⟩), fun j _ => ?_, writeReg_frame _ _ _⟩
      rw [readReg_writeReg_same, setUnsigned_getLsbD _ _ hl hfits]
    · refine ⟨_, sets_of_fits rd rs1 s hvalid (fitsSigned_iff.mpr ⟨hw, hlo, hhi⟩), fun j _ => ?_, writeReg_frame _ _ _⟩
      rw [readReg_writeReg_same, setSigned_getLsbD _ _ hl]
    · exact (complete_require_of_true hvalid).trans (complete_require_of_false (fitsUnsigned_eq_false hbig))
    · exact (complete_require_of_true hvalid).trans (complete_require_of_false (fitsSigned_eq_false hout))
  · have hinvalid := validField_eq_false hinv
    exact ⟨complete_require_of_false hinvalid, complete_require_of_false hinvalid⟩

end Sys2Proof.Machine

namespace Sys2Proof

/-! ### The words of one opcode of format R -/

/-- An opcode of two registers whose extra check is the one that makes its instruction exist (R83, R90). -/
theorem decodesAs_formatR {op : BitVec 8} {mk : Reg → Reg → Instr} {extra : CmdWord → Bool}
    (hpat : ∀ c, opField c = op → decodePattern c = formatR c mk)
    (hextra : ∀ c, extra c = true ↔ (mk (rdField c) (rs1Field c)).WellFormed) :
    Machine.decodesAs op (fun c => c.extractLsb' 0 16 == 0 && extra c) (fun c => mk (rdField c) (rs1Field c)) :=
  decodesAs_of_pattern hpat fun c => by rw [Bool.and_eq_true, hextra c]; rfl

end Sys2Proof

namespace Sys2Proof.Machine

/-!
The order of floats by their values (00_scope.md R15, R20): the rounded operations are monotone in it, and clamping and the reading of an
integer follow it. Bounds on the results of the colour transform are then a few evaluated floats.
-/

/-! ### The order of R20 is the order of the values -/

theorem units_eq_bits (v : Word) :
    units v = if isNeg v then -(magOfBits (expBits v * 2 ^ 52 + fracBits v) : Int) else magOfBits (expBits v * 2 ^ 52 + fracBits v) := by
  rw [units, magUnits_eq_magOfBits]

/-- A magnitude and its bits order alike, under any two signs. -/
theorem signed_bits_lt_iff (p q : Bool) (m n : Nat) :
    ((if p then -(m : Int) else m) < if q then -(n : Int) else n) ↔
      (if p then -(magOfBits m : Int) else magOfBits m) < if q then -(magOfBits n : Int) else magOfBits n := by
  have hlt : magOfBits m < magOfBits n ↔ m < n := magOfBits_strictMono.lt_iff_lt
  have hgt : magOfBits n < magOfBits m ↔ n < m := magOfBits_strictMono.lt_iff_lt
  have hm : 0 < magOfBits m ↔ 0 < m := magOfBits_strictMono.lt_iff_lt (a := 0)
  have hn : 0 < magOfBits n ↔ 0 < n := magOfBits_strictMono.lt_iff_lt (a := 0)
  cases p <;> cases q <;> simp only [Bool.false_eq_true, if_true, if_false] <;> omega

theorem orderKey_lt_iff (a b : Word) : orderKey a < orderKey b ↔ units a < units b := by
  rw [units_eq_bits, units_eq_bits]
  exact signed_bits_lt_iff _ _ _ _

/-- R20: of two floats that are not NaNs, `flt` says which value is less. -/
theorem flt_iff {a b : Word} (ha : isNaN a = false) (hb : isNaN b = false) : flt a b = true ↔ units a < units b := by
  rw [flt, ha, hb, Bool.not_false, Bool.true_and, Bool.true_and, decide_eq_true_iff, orderKey_lt_iff]

theorem flt_eq_false_iff {a b : Word} (ha : isNaN a = false) (hb : isNaN b = false) : flt a b = false ↔ units b ≤ units a := by
  rw [← Bool.not_eq_true, flt_iff ha hb, Int.not_lt]

/-- A clamped float is not a NaN and its value lies between the two limits. -/
theorem fclamp_bounds {v lo hi : Word} (hv : isNaN v = false) (hlo : isNaN lo = false) (hhi : isNaN hi = false)
    (hle : units lo ≤ units hi) :
    isNaN (fclamp v lo hi) = false ∧ units lo ≤ units (fclamp v lo hi) ∧ units (fclamp v lo hi) ≤ units hi := by
  rw [fclamp]
  split
  · exact ⟨hlo, le_rfl, hle⟩
  next hl =>
    rw [flt_iff hv hlo, Int.not_lt] at hl
    split
    · exact ⟨hhi, hle, le_rfl⟩
    next hh =>
      rw [flt_iff hhi hv, Int.not_lt] at hh
      exact ⟨hv, hl, hh⟩

/-- R21: the integer of a float is its value without the fraction. -/
theorem f2i_eq_tdiv (v : Word) : f2i v = (units v).tdiv oneU := by
  rw [f2i, units]
  split
  · rw [Int.neg_tdiv, Int.ofNat_tdiv]
  · rw [Int.ofNat_tdiv]

theorem f2i_bounds {v : Word} {k : Nat} (h0 : 0 ≤ units v) (hk : units v ≤ k * oneU) : 0 ≤ f2i v ∧ f2i v ≤ k := by
  have hpos : (0 : Int) < oneU := Int.natCast_pos.mpr oneU_pos
  rw [f2i_eq_tdiv, Int.tdiv_eq_ediv_of_nonneg h0]
  exact ⟨Int.ediv_nonneg h0 hpos.le, Int.ediv_le_of_le_mul hpos hk⟩

/-! ### Results that are not NaNs -/

theorem isNaN_or_isInf_or_finite (v : Word) : isNaN v = true ∨ isInf v = true ∨ isFiniteF v := by
  by_cases he : expBits v = 2047
  · by_cases hf : fracBits v = 0
    · exact .inr (.inl ((isInf_iff v).mpr ⟨he, hf⟩))
    · exact .inl (by simp [isNaN, he, hf])
  · exact .inr (.inr he)

theorem isInf_or_finite {v : Word} (h : isNaN v = false) : isInf v = true ∨ isFiniteF v :=
  (isNaN_or_isInf_or_finite v).resolve_left (by simp [h])

/-- Multiplying by a finite float other than zero gives no NaN. -/
theorem isNaN_fmul_of_nonzero {a b : Word} (ha : isNaN a = false) (hb : isFiniteF b) (h0 : units b ≠ 0) :
    isNaN (fmul a b) = false := by
  rcases isInf_or_finite ha with hinf | hfin
  · obtain ⟨-, -, -, -, -, -, -, -, -, -, hmul⟩ := inf_finite_operands hinf hb
    exact isNaN_of_isInf (hmul h0).1
  · exact (finite_operands hfin hb).1

/-- Dividing by a finite float other than zero gives no NaN. -/
theorem isNaN_fdiv_of_nonzero {a b : Word} (ha : isNaN a = false) (hb : isFiniteF b) (h0 : units b ≠ 0) :
    isNaN (fdiv a b) = false := by
  rcases isInf_or_finite ha with hinf | hfin
  · obtain ⟨-, -, -, -, hdiv, -⟩ := inf_finite_operands hinf hb
    exact isNaN_of_isInf hdiv
  · obtain ⟨-, -, hdiv, -⟩ := finite_operands hfin hb
    exact (hdiv h0).1

theorem isNaN_fround {v : Word} (h : isNaN v = false) : isNaN (fround v) = false := by
  rcases isInf_or_finite h with hinf | hfin
  · rwa [fround_isInf hinf]
  · rw [fround_finite hfin]
    exact isNaN_mkFloat (roundMag_le _ _)

/-! ### The operations are monotone in the magnitudes -/

theorem isFiniteF_iff_bits (v : Word) : isFiniteF v ↔ expBits v * 2 ^ 52 + fracBits v < infMag := by
  rw [isFiniteF, expBits_eq, fracBits_eq, infMag]
  omega

/-- A float no larger than a finite one is finite: in the order of magnitudes the infinities and the NaNs are the top. -/
theorem isFiniteF_of_magUnits_le {v b : Word} (hb : isFiniteF b) (h : magUnits v ≤ magUnits b) : isFiniteF v := by
  rw [magUnits_eq_magOfBits, magUnits_eq_magOfBits, magOfBits_strictMono.le_iff_le] at h
  rw [isFiniteF_iff_bits] at hb ⊢
  exact h.trans_lt hb

theorem magUnits_mkFloat_roundMag (neg : Bool) (n d : Nat) : magUnits (mkFloat neg (roundMag n d)) = magOfBits (roundMag n d) :=
  magUnits_mkFloat ((roundMag_le n d).trans_lt infMag_lt)

theorem magOfBits_roundMag_mono {n d n' d' : Nat} (hd : 0 < d) (hd' : 0 < d') (h : n * d' ≤ n' * d) :
    magOfBits (roundMag n d) ≤ magOfBits (roundMag n' d') :=
  magOfBits_strictMono.monotone (roundMag_mono hd hd' h)

theorem magUnits_fneg (v : Word) : magUnits (fneg v) = magUnits v := by
  rw [← natAbs_units, units_fneg, Int.natAbs_neg, natAbs_units]

theorem units_of_not_neg {v : Word} (h : isNeg v = false) : units v = magUnits v := by
  rw [units, h]
  exact if_neg Bool.false_ne_true

/-- `b` is a finite float without a minus sign, and `v`, of either sign, is no larger. -/
structure BoundedBy (v b : Word) : Prop where
  finite_bound : isFiniteF b
  sign_bound : isNeg b = false
  le : magUnits v ≤ magUnits b

theorem BoundedBy.finite {v b : Word} (h : BoundedBy v b) : isFiniteF v := isFiniteF_of_magUnits_le h.finite_bound h.le

theorem BoundedBy.fneg {v b : Word} (h : BoundedBy v b) : BoundedBy (fneg v) b :=
  ⟨h.finite_bound, h.sign_bound, (magUnits_fneg v).trans_le h.le⟩

theorem isNeg_fmul_of_not_neg {a b : Word} (ha : isFiniteF a) (hb : isFiniteF b) (hasign : isNeg a = false) (hbsign : isNeg b = false) :
    isNeg (fmul a b) = false := by
  rw [fmul_finite ha hb, isNeg_mkFloat_roundMag, hasign, hbsign]
  rfl

theorem isNeg_fadd_of_not_neg {a b : Word} (ha : isFiniteF a) (hb : isFiniteF b) (hasign : isNeg a = false) (hbsign : isNeg b = false) :
    isNeg (fadd a b) = false := by
  have hsum : ¬ units a + units b < 0 := by rw [units_of_not_neg hasign, units_of_not_neg hbsign]; omega
  rw [fadd_finite ha hb, isNeg_mkFloat_roundMag, hasign, decide_eq_false hsum, Bool.false_and, ite_self]

/-- The product of the bounds bounds the product, if it does not overflow. -/
theorem BoundedBy.fmul {u v b c : Word} (hu : BoundedBy u b) (hv : BoundedBy v c) (hfin : isFiniteF (fmul b c)) :
    BoundedBy (fmul u v) (fmul b c) := by
  refine ⟨hfin, isNeg_fmul_of_not_neg hu.finite_bound hv.finite_bound hu.sign_bound hv.sign_bound, ?_⟩
  rw [fmul_finite hu.finite hv.finite, fmul_finite hu.finite_bound hv.finite_bound, magUnits_mkFloat_roundMag, magUnits_mkFloat_roundMag]
  exact magOfBits_roundMag_mono oneU_pos oneU_pos (Nat.mul_le_mul_right _ (Nat.mul_le_mul hu.le hv.le))

/-- The sum of the bounds bounds the sum, if it does not overflow. -/
theorem BoundedBy.fadd {u v b c : Word} (hu : BoundedBy u b) (hv : BoundedBy v c) (hfin : isFiniteF (fadd b c)) :
    BoundedBy (fadd u v) (fadd b c) := by
  refine ⟨hfin, isNeg_fadd_of_not_neg hu.finite_bound hv.finite_bound hu.sign_bound hv.sign_bound, ?_⟩
  rw [fadd_finite hu.finite hv.finite, fadd_finite hu.finite_bound hv.finite_bound, magUnits_mkFloat_roundMag, magUnits_mkFloat_roundMag]
  apply magOfBits_roundMag_mono Nat.one_pos Nat.one_pos
  have hule := hu.le
  have hvle := hv.le
  rw [← natAbs_units] at hule hvle
  rw [units_of_not_neg hu.sign_bound, units_of_not_neg hv.sign_bound]
  omega

theorem BoundedBy.fsub {u v b c : Word} (hu : BoundedBy u b) (hv : BoundedBy v c) (hfin : isFiniteF (Machine.fadd b c)) :
    BoundedBy (fsub u v) (Machine.fadd b c) := hu.fadd hv.fneg hfin

/-- A bounded float without a minus sign: its value lies between zero and the bound's. -/
structure UpTo (v b : Word) : Prop extends BoundedBy v b where
  sign : isNeg v = false

theorem upTo_refl {v : Word} (hfin : isFiniteF v) (hsign : isNeg v = false) : UpTo v v := ⟨⟨hfin, hsign, le_rfl⟩, hsign⟩

theorem UpTo.fmul {u v b c : Word} (hu : UpTo u b) (hv : UpTo v c) (hfin : isFiniteF (fmul b c)) : UpTo (fmul u v) (fmul b c) :=
  ⟨hu.toBoundedBy.fmul hv.toBoundedBy hfin, isNeg_fmul_of_not_neg hu.finite hv.finite hu.sign hv.sign⟩

theorem UpTo.fadd {u v b c : Word} (hu : UpTo u b) (hv : UpTo v c) (hfin : isFiniteF (fadd b c)) : UpTo (fadd u v) (fadd b c) :=
  ⟨hu.toBoundedBy.fadd hv.toBoundedBy hfin, isNeg_fadd_of_not_neg hu.finite hv.finite hu.sign hv.sign⟩

theorem UpTo.trans {v b c : Word} (h : UpTo v b) (hb : BoundedBy b c) : UpTo v c :=
  ⟨⟨hb.finite_bound, hb.sign_bound, h.le.trans hb.le⟩, h.sign⟩

theorem units_fc_0 : units fc_0 = 0 := by decide

theorem UpTo.units_bounds {v b : Word} (h : UpTo v b) : 0 ≤ units v ∧ units v ≤ units b := by
  rw [units_of_not_neg h.sign, units_of_not_neg h.sign_bound]
  exact ⟨Int.natCast_nonneg _, Int.ofNat_le.mpr h.le⟩

/-! ### Channels and denominators as floats -/

theorem i2f_natural {n : Nat} (h : n ≤ 255) :
    isFiniteF (i2f n) ∧ units (i2f n) = n * oneU ∧ magUnits (i2f n) = n * oneU ∧ isNeg (i2f n) = false := by
  obtain ⟨hfin, hunits⟩ := i2f_exact (n := n) (by rw [Int.natAbs_natCast]; omega)
  refine ⟨hfin, hunits, ?_, isNeg_mkFloat_roundMag _ _ _⟩
  rw [← natAbs_units, hunits, ← Nat.cast_mul, Int.natAbs_natCast]

end Sys2Proof.Machine

namespace Sys2Proof.Machine

/-!
The ColorTransform (41_colortransform.md) and, after it, what the commands that write computed floats have in common: no NaN is written.
-/

/-! ### Floats of a legal pixel -/

/-- The float 1.0. -/
def fone : Word := 0x3FF0000000000000

theorem isFiniteF_fone : isFiniteF fone := by unfold isFiniteF; decide

theorem magUnits_fone : magUnits fone = oneU := by decide +kernel

theorem boundedBy_fone {v : Word} (h : magUnits v ≤ magUnits fone) : BoundedBy v fone := ⟨isFiniteF_fone, rfl, h⟩

/-- R131: a channel no greater than the denominator is normalised to a float from 0 to 1. -/
theorem normalize_upTo_fone {ch : BitVec 8} {den : Nat} (hden : 1 ≤ den) (hden' : den ≤ 255) (hch : ch.toNat ≤ den) :
    UpTo (normalize ch den) fone := by
  obtain ⟨hcfin, -, hcmag, hcsign⟩ := i2f_natural (hch.trans hden')
  obtain ⟨hdfin, -, hdmag, hdsign⟩ := i2f_natural hden'
  have hpos : 0 < magUnits (i2f den) := by rw [hdmag]; exact Nat.mul_pos hden oneU_pos
  rw [normalize, fdiv_finite hcfin hdfin (by rw [units_of_not_neg hdsign]; omega), hcsign, hdsign]
  refine ⟨boundedBy_fone ?_, isNeg_mkFloat_roundMag _ _ _⟩
  have hone : magOfBits (roundMag oneU 1) = oneU := by
    simpa only [Nat.one_mul] using (roundMag_natural (q := 1) (by decide)).2
  rw [magUnits_mkFloat_roundMag, magUnits_fone]
  refine (magOfBits_roundMag_mono hpos Nat.one_pos ?_).trans_eq hone
  rw [hcmag, hdmag, Nat.mul_one, Nat.mul_comm]
  exact Nat.mul_le_mul_left _ (Nat.mul_le_mul_right _ hch)

/-- A weight of at most 1 times a float of at most 1. -/
theorem boundedBy_fone_fmul {w v : Word} (hw : magUnits w ≤ magUnits fone) (hv : BoundedBy v fone) : BoundedBy (fmul w v) fone :=
  boundedBy_fone (((boundedBy_fone hw).fmul hv (by unfold isFiniteF; decide +kernel)).le.trans (by decide +kernel))

/-- Sums of three floats of at most 1 are at most 3. -/
theorem isFiniteF_fadd_fone : isFiniteF (fadd fone fone) ∧ isFiniteF (fadd (fadd fone fone) fone) := by
  unfold isFiniteF
  decide +kernel

/-- R131: the two chromas of channels from 0 to 1 are finite. -/
theorem isFiniteF_chromas {c : RgbF} (hr : BoundedBy c.r fone) (hg : BoundedBy c.g fone) (hb : BoundedBy c.b fone) :
    isFiniteF (chromaOfRgb c).pb ∧ isFiniteF (chromaOfRgb c).pr := by
  have hpbr := boundedBy_fone_fmul (w := fc_neg_0_168736) (by decide +kernel) hr
  have hpbg := boundedBy_fone_fmul (w := fc_0_331264) (by decide +kernel) hg
  have hpbb := boundedBy_fone_fmul (w := fc_0_5) (by decide +kernel) hb
  have hprr := boundedBy_fone_fmul (w := fc_0_5) (by decide +kernel) hr
  have hprg := boundedBy_fone_fmul (w := fc_0_418688) (by decide +kernel) hg
  have hprb := boundedBy_fone_fmul (w := fc_0_081312) (by decide +kernel) hb
  obtain ⟨htwo, hthree⟩ := isFiniteF_fadd_fone
  exact ⟨((hpbr.fsub hpbg htwo).fadd hpbb hthree).finite, ((hprr.fsub hprg htwo).fsub hprb hthree).finite⟩

/-- The luma of white: the weights, summed in the formula's order. -/
def whiteLuma : Word := fadd (fadd (fmul fc_0_299 fone) (fmul fc_0_587 fone)) (fmul fc_0_114 fone)

theorem isFiniteF_whiteLuma :
    isFiniteF (fmul fc_0_299 fone) ∧ isFiniteF (fmul fc_0_587 fone) ∧ isFiniteF (fmul fc_0_114 fone) ∧
      isFiniteF (fadd (fmul fc_0_299 fone) (fmul fc_0_587 fone)) ∧ isFiniteF whiteLuma := by
  unfold isFiniteF
  decide +kernel

theorem isFiniteF_lumaWeights : isFiniteF fc_0_299 ∧ isFiniteF fc_0_587 ∧ isFiniteF fc_0_114 := by
  unfold isFiniteF
  decide

/-- R131: the luma grows with the channels, up to white's. -/
theorem luma_upTo_whiteLuma {c : RgbF} (hr : UpTo c.r fone) (hg : UpTo c.g fone) (hb : UpTo c.b fone) :
    UpTo (chromaOfRgb c).y whiteLuma := by
  obtain ⟨hfr, hfg, hfb, hfrg, hfy⟩ := isFiniteF_whiteLuma
  obtain ⟨hwr, hwg, hwb⟩ := isFiniteF_lumaWeights
  have hpr := (upTo_refl hwr rfl).fmul hr hfr
  have hpg := (upTo_refl hwg rfl).fmul hg hfg
  have hpb := (upTo_refl hwb rfl).fmul hb hfb
  exact (hpr.fadd hpg hfrg).fadd hpb hfy

/-- The rounded sum of the three weights is no greater than 1 (it is the float just below). -/
theorem whiteLuma_boundedBy_fone : BoundedBy whiteLuma fone := boundedBy_fone (by decide +kernel)

/-- R131, for a pixel with no channel above the denominator. -/
theorem rgbToChroma_bounds {p : Pixel} {den : Nat} (hden : 1 ≤ den) (hden' : den ≤ 255) (hred : p.red.toNat ≤ den)
    (hgreen : p.green.toNat ≤ den) (hblue : p.blue.toNat ≤ den) :
    UpTo (rgbToChroma p den).y fone ∧ isFiniteF (rgbToChroma p den).pb ∧ isFiniteF (rgbToChroma p den).pr := by
  have hr := normalize_upTo_fone hden hden' hred
  have hg := normalize_upTo_fone hden hden' hgreen
  have hb := normalize_upTo_fone hden hden' hblue
  have hy : UpTo (rgbToChroma p den).y whiteLuma := luma_upTo_whiteLuma (c := ⟨_, _, _⟩) hr hg hb
  exact ⟨hy.trans whiteLuma_boundedBy_fone, isFiniteF_chromas (c := ⟨_, _, _⟩) hr.toBoundedBy hg.toBoundedBy hb.toBoundedBy⟩

/-- Settles O33: the three floats are sums of three products of at most 1, and the luma is no greater than white's. -/
theorem chromaOfLegalPixelInRange : Obligations.ChromaOfLegalPixelInRange := by
  intro p den hden hden' hred hgreen hblue
  obtain ⟨hy, hpb, hpr⟩ := rgbToChroma_bounds hden hden' hred hgreen hblue
  have hnan := isNaN_of_finite hy.finite
  obtain ⟨h0, h1⟩ := hy.units_bounds
  refine ⟨hy.finite, hpb, hpr, ?_, ?_⟩
  · exact (flt_eq_false_iff hnan rfl).mpr (units_fc_0.trans_le h0)
  · exact (flt_eq_false_iff rfl hnan).mpr h1

/-! ### Register groups of a command -/

theorem complete_group_fits {i : Instr} {s : State} {r : Reg} {k : Nat} {f : Unit → Except Cause State} (h : r.val + k ≤ 16) :
    complete i s (requireGroup r k >>= f) = complete i s (f ()) :=
  complete_require_of_true (decide_eq_true h)

theorem readReg_writeGroup_head {s : State} {r : Reg} {v : Word} {vs : List Word} (h : r.val + (v :: vs).length ≤ 16) :
    (s.writeGroup r (v :: vs)).readReg r = v := by
  simpa using readReg_writeGroup_member (s := s) h (k := 0) (Nat.succ_pos _)

theorem writeGroup_frame {s : State} {r : Reg} {vs : List Word} {k : Nat} (hk : vs.length = k) (h : r.val + k ≤ 16) :
    (∀ q, ¬ inGroup r k q → (s.writeGroup r vs).readReg q = s.readReg q) ∧ sameButRegs s (s.writeGroup r vs) := by
  subst hk
  refine ⟨fun q hq => readReg_writeGroup_outside h ?_, writeGroup_eq s r vs⟩
  rw [inGroup] at hq
  omega

/-! ### Pixels -/

/-- R34: bits 63:24 are zero exactly below 2^24. -/
theorem pixelLegal_iff {r : Word} {den : Nat} : pixelLegal r den = true ↔ r.toNat < 2 ^ 24 ∧
    (pixelFields r).red.toNat ≤ den ∧ (pixelFields r).green.toNat ≤ den ∧ (pixelFields r).blue.toNat ≤ den := by
  have hhigh : r.extractLsb' 24 40 = 0 ↔ r.toNat < 2 ^ 24 := by
    have hval : (r.extractLsb' 24 40).toNat = r.toNat / 2 ^ 24 % 2 ^ 40 := by
      rw [BitVec.extractLsb'_toNat, Nat.shiftRight_eq_div_pow]
    have hr := r.isLt
    rw [← BitVec.toNat_inj, hval, BitVec.ofNat_eq_ofNat, BitVec.toNat_zero]
    omega
  simp only [pixelLegal, Bool.and_eq_true, beq_iff_eq, decide_eq_true_iff, hhigh, and_assoc]

theorem toNat_pixelWord (p : Pixel) : (pixelWord p).toNat = (p.red.toNat * 2 ^ 8 + p.green.toNat) * 2 ^ 8 + p.blue.toNat := by
  rw [pixelWord, BitVec.toNat_setWidth_of_le (by decide), toNat_append_eq_add, toNat_append_eq_add]

theorem pixelFields_pixelWord (p : Pixel) : pixelFields (pixelWord p) = p := by
  obtain ⟨r, g, b⟩ := p
  have := r.isLt
  have := g.isLt
  have := b.isLt
  simp only [pixelFields, Pixel.mk.injEq, ← BitVec.toNat_inj, BitVec.extractLsb'_toNat, Nat.shiftRight_eq_div_pow, toNat_pixelWord]
  omega

/-- R34: a pixel's register is legal when its channels are. -/
theorem pixelLegal_pixelWord {p : Pixel} {den : Nat} (hr : p.red.toNat ≤ den) (hg : p.green.toNat ≤ den) (hb : p.blue.toNat ≤ den) :
    pixelLegal (pixelWord p) den = true := by
  rw [pixelLegal_iff, pixelFields_pixelWord, toNat_pixelWord]
  omega

/-! ### RGB2YPP -/

section
variable {rd rs1 : Reg} {s : State}

theorem rgb2ypp_of_legal (hfit : rd.val + 3 ≤ 16) (h : pixelLegal (s.readReg rs1) s.den = true) :
    exec (.rgb2ypp rd rs1) s =
      let t := rgbToChroma (pixelFields (s.readReg rs1)) s.den
      .next (s.writeGroup rd [t.y, t.pb, t.pr]) := by
  refine (complete_group_fits hfit).trans ?_
  rw [pixelOf_legal h]
  rfl

theorem rgb2ypp_of_illegal (hfit : rd.val + 3 ≤ 16) (h : pixelLegal (s.readReg rs1) s.den = false) :
    exec (.rgb2ypp rd rs1) s = .next (s.faultEntry .opr (encode (.rgb2ypp rd rs1))) := by
  refine (complete_group_fits hfit).trans ?_
  rw [pixelOf_illegal h]
  rfl

end

/-- The three registers of a triple just written. -/
theorem readReg_writeTriple {s : State} {r : Reg} (h : r.val + 3 ≤ 16) (a b c : Word) :
    (s.writeGroup r [a, b, c]).readReg r = a ∧ (s.writeGroup r [a, b, c]).readReg (r.plus 1) = b ∧
      (s.writeGroup r [a, b, c]).readReg (r.plus 2) = c :=
  ⟨readReg_writeGroup_head h, readReg_writeGroup_member (vs := [a, b, c]) h (k := 1) (by simp),
    readReg_writeGroup_member (vs := [a, b, c]) h (k := 2) (by simp)⟩

/-- Settles O32, by whether the operand is a legal pixel. -/
theorem rgb2yppConverts : Obligations.Rgb2yppConverts := by
  refine ⟨decodesAs_formatR (extra := rdAtMost 13) (fun c h => by rw [decodePattern, h]; rfl) (rdAtMost_iff rfl), fun rd rs1 s hrd => ?_⟩
  have hfit : rd.val + 3 ≤ 16 := by omega
  refine ⟨rfl, fun hp hR hG hB => ?_, fun hbad => ?_⟩
  · obtain ⟨hy, hpb, hpr⟩ := readReg_writeTriple (s := s) hfit _ _ _
    exact ⟨_, rgb2ypp_of_legal hfit (pixelLegal_iff.mpr ⟨hp, hR, hG, hB⟩), hy, hpb, hpr, writeGroup_frame rfl hfit⟩
  · refine rgb2ypp_of_illegal hfit (Bool.eq_false_iff.mpr fun hlegal => ?_)
    obtain ⟨hp, hR, hG, hB⟩ := pixelLegal_iff.mp hlegal
    rcases hbad with h | h | h | h
    · exact absurd hp (Nat.not_lt_of_le h)
    · exact absurd hR (Nat.not_le_of_lt h)
    · exact absurd hG (Nat.not_le_of_lt h)
    · exact absurd hB (Nat.not_le_of_lt h)

/-! ### YPP2RGB -/

/-- The pixel of three linear channels (R134). -/
def channelPixel (c : RgbF) (den : Nat) : Pixel :=
  ⟨BitVec.ofInt 8 (channelOf c.r den), BitVec.ofInt 8 (channelOf c.g den), BitVec.ofInt 8 (channelOf c.b den)⟩

theorem chromaToRgb_eq (t : Ypp) (den : Nat) : chromaToRgb t den =
    if isNaN (chromaToRgbLinear t).r || isNaN (chromaToRgbLinear t).g || isNaN (chromaToRgbLinear t).b then .error .num
    else .ok (channelPixel (chromaToRgbLinear t) den) := rfl

theorem chromaToRgb_eq_ok {t : Ypp} {den : Nat} {p : Pixel} : chromaToRgb t den = .ok p ↔
    (isNaN (chromaToRgbLinear t).r = false ∧ isNaN (chromaToRgbLinear t).g = false ∧ isNaN (chromaToRgbLinear t).b = false) ∧
      p = channelPixel (chromaToRgbLinear t) den := by
  rw [chromaToRgb_eq]
  split
  next h =>
    simp only [reduceCtorEq, false_iff, not_and]
    rintro ⟨hr, hg, hb⟩
    simp [hr, hg, hb] at h
  next h =>
    simp only [Bool.not_eq_true, Bool.or_eq_false_iff, and_assoc] at h
    simp [h, eq_comm]

theorem chromaToRgb_of_nan {t : Ypp} {den : Nat} (h : isNaN (chromaToRgbLinear t).r = true ∨ isNaN (chromaToRgbLinear t).g = true ∨
    isNaN (chromaToRgbLinear t).b = true) : chromaToRgb t den = .error .num := by
  rw [chromaToRgb_eq, if_pos (by simpa only [Bool.or_eq_true, or_assoc] using h)]

section
variable {rd rs1 : Reg} {s : State}

theorem ypp2rgb_of_operands (hfit : rs1.val + 3 ≤ 16)
    (h : isNaN (s.readReg rs1) = false ∧ isNaN (s.readReg (rs1.plus 1)) = false ∧ isNaN (s.readReg (rs1.plus 2)) = false) :
    exec (.ypp2rgb rd rs1) s =
      complete (.ypp2rgb rd rs1) s ((chromaToRgb (s.readTriple rs1) s.den).map fun p => s.writeReg rd (pixelWord p)) := by
  have hop : floatTriple (s.readTriple rs1) = .ok (s.readTriple rs1) := floatTriple_eq_ok.mpr ⟨h, rfl⟩
  refine (complete_group_fits hfit).trans ?_
  rw [hop, bind_ok]
  cases chromaToRgb (s.readTriple rs1) s.den <;> rfl

theorem ypp2rgb_of_nan_operand (hfit : rs1.val + 3 ≤ 16)
    (h : isNaN (s.readReg rs1) = true ∨ isNaN (s.readReg (rs1.plus 1)) = true ∨ isNaN (s.readReg (rs1.plus 2)) = true) :
    exec (.ypp2rgb rd rs1) s = .next (s.faultEntry .num (encode (.ypp2rgb rd rs1))) := by
  have hop : floatTriple (s.readTriple rs1) = .error .num := floatTriple_eq_error.mpr ⟨h, rfl⟩
  refine (complete_group_fits hfit).trans ?_
  rw [hop]
  rfl

end

/-- Settles O34: the operands are checked first, then the three linear channels. -/
theorem ypp2rgbConverts : Obligations.Ypp2rgbConverts := by
  refine ⟨decodesAs_formatR (extra := rs1AtMost 13) (fun c h => by rw [decodePattern, h]; rfl) (rs1AtMost_iff rfl), fun rd rs1 s hrs1 => ?_⟩
  have hfit : rs1.val + 3 ≤ 16 := by omega
  refine ⟨rfl, fun hy hpb hpr hr hg hb => ?_, fun hnan => ?_⟩
  · have hpixel := (chromaToRgb_eq_ok (t := s.readTriple rs1) (den := s.den)).mpr ⟨⟨hr, hg, hb⟩, rfl⟩
    refine ⟨_, (ypp2rgb_of_operands hfit ⟨hy, hpb, hpr⟩).trans (by rw [hpixel]; rfl), readReg_writeReg_same _ _ _, writeReg_frame _ _ _⟩
  · by_cases hop : isNaN (s.readReg rs1) = true ∨ isNaN (s.readReg (rs1.plus 1)) = true ∨ isNaN (s.readReg (rs1.plus 2)) = true
    · exact ypp2rgb_of_nan_operand hfit hop
    · have hchan := chromaToRgb_of_nan (t := s.readTriple rs1) (den := s.den) (by tauto)
      simp only [not_or, Bool.not_eq_true] at hop
      exact (ypp2rgb_of_operands hfit hop).trans (by rw [hchan]; rfl)

/-! ### Legal pixels -/

theorem channelOf_bounds {v : Word} {den : Nat} (hv : isNaN v = false) (hden : 1 ≤ den) (hden' : den ≤ 255) :
    0 ≤ channelOf v den ∧ channelOf v den ≤ den := by
  obtain ⟨hfin, hunits, -, -⟩ := i2f_natural hden'
  have hpos : 0 < units (i2f den) := by rw [hunits]; exact Int.mul_pos (by omega) (Int.natCast_pos.mpr oneU_pos)
  have hround := isNaN_fround (isNaN_fmul_of_nonzero hv hfin hpos.ne')
  obtain ⟨-, h0, hle⟩ := fclamp_bounds (lo := fc_0) hround rfl (isNaN_i2f den) (by rw [units_fc_0]; exact hpos.le)
  rw [units_fc_0] at h0
  exact f2i_bounds h0 (hle.trans_eq hunits)

theorem toNat_ofInt_le {n : Int} {den : Nat} (h : 0 ≤ n ∧ n ≤ den) : (BitVec.ofInt 8 n).toNat ≤ den := by
  rw [BitVec.toNat_ofInt]
  omega

/-- R34, R135: the pixel of a triple is legal for the denominator. -/
theorem pixelLegal_of_chromaToRgb {t : Ypp} {den : Nat} {p : Pixel} (hden : 1 ≤ den) (hden' : den ≤ 255)
    (h : chromaToRgb t den = .ok p) : pixelLegal (pixelWord p) den = true := by
  obtain ⟨⟨hr, hg, hb⟩, rfl⟩ := chromaToRgb_eq_ok.mp h
  exact pixelLegal_pixelWord (toNat_ofInt_le (channelOf_bounds hr hden hden')) (toNat_ofInt_le (channelOf_bounds hg hden hden'))
    (toNat_ofInt_le (channelOf_bounds hb hden hden'))

/-! ### Commands that leave the block running -/

/-- A command that leaves the block running has not raised. -/
theorem ok_of_running {i : Instr} {s t : State} {r : Except Cause State} (h : complete i s r = .next t) (ht : t.status = 0) :
    r = .ok t := by
  rcases complete_cases h with hok | ⟨k, -, rfl⟩
  · exact hok
  · exact absurd ht (by simp)

theorem den_le (s : State) : s.den ≤ 255 := Nat.le_of_lt_succ s.denom.isLt

theorem requireGroup_eq_ok {r : Reg} {k : Nat} {u : Unit} : requireGroup r k = .ok u ↔ r.val + k ≤ 16 :=
  require_eq_ok.trans decide_eq_true_iff

/-- Settles O35: a clamped channel lies in 0..DENOM, and a command that leaves the block running has written such channels. -/
theorem ypp2rgbPixelIsLegal : Obligations.Ypp2rgbPixelIsLegal := by
  refine ⟨fun v den => channelOf_bounds, fun rd rs1 s t hden _ h ht => ?_⟩
  obtain ⟨_, -, hrest⟩ := bind_eq_ok.mp (ok_of_running h ht)
  obtain ⟨_, -, hrest⟩ := bind_eq_ok.mp hrest
  obtain ⟨p, hp, hrest⟩ := bind_eq_ok.mp hrest
  cases hrest
  rw [readReg_writeReg_same]
  exact pixelLegal_of_chromaToRgb hden (den_le s) hp

/-! ### No computed NaN is written -/

theorem isNaN_dequantA (q : Nat) : isNaN (dequantA q) = false :=
  isNaN_fdiv_of_nonzero (isNaN_i2f q) (by unfold isFiniteF; decide) (by decide +kernel)

theorem isNaN_dequantBcd (q : Int) : isNaN (dequantBcd q) = false :=
  isNaN_fdiv_of_nonzero (isNaN_fmul_of_nonzero (isNaN_i2f q) (by unfold isFiniteF; decide) (by decide +kernel))
    (by unfold isFiniteF; decide) (by decide +kernel)

theorem isNaN_chromaOfIndex (i : BitVec 8) : isNaN (chromaOfIndex i) = false := isNaN_tableBits _

/-- A group written with floats that are not NaNs holds none. -/
theorem isNaN_writeGroup {s : State} {r : Reg} {vs : List Word} (h : r.val + vs.length ≤ 16) (hvs : ∀ v ∈ vs, isNaN v = false)
    {k : Nat} (hk : k < vs.length) : isNaN ((s.writeGroup r vs).readReg (r.plus k)) = false := by
  rw [readReg_writeGroup_member h hk]
  exact hvs _ (List.getElem_mem hk)

/-- A quad that passed the float view, written to a group. -/
theorem isNaN_writeQuad {s : State} {rd : Reg} {q r : Quad Word} (h : floatQuad q = .ok r) (hfit : rd.val + 4 ≤ 16) {k : Nat} (hk : k < 4) :
    isNaN ((s.writeGroup rd r.toList).readReg (rd.plus k)) = false := by
  obtain ⟨⟨h1, h2, h3, h4⟩, rfl⟩ := floatQuad_eq_ok.mp h
  exact isNaN_writeGroup (vs := r.toList) hfit (by simp [Quad.toList, h1, h2, h3, h4]) hk

section
variable {rd rs1 : Reg} {s t : State}

/-- Both block transforms end by writing a quad that passed the float view. -/
theorem isNaN_quad_of_running {f : Quad Word → Quad Word} {i : Instr} (ht : t.status = 0) (h : complete i s (do
      requireGroup rd 4
      requireGroup rs1 4
      let q ← floatQuad (s.readQuad rs1)
      let r ← floatQuad (f q)
      return s.writeGroup rd r.toList) = .next t) {k : Nat} (hk : k < 4) : isNaN (t.readReg (rd.plus k)) = false := by
  obtain ⟨_, hfit, hrest⟩ := bind_eq_ok.mp (ok_of_running h ht)
  obtain ⟨_, -, hrest⟩ := bind_eq_ok.mp hrest
  obtain ⟨_, -, hrest⟩ := bind_eq_ok.mp hrest
  obtain ⟨r, hr, hrest⟩ := bind_eq_ok.mp hrest
  cases hrest
  exact isNaN_writeQuad hr (requireGroup_eq_ok.mp hfit) hk

theorem isNaN_avg4 (h : exec (.avg4 rd rs1) s = .next t) (ht : t.status = 0) : isNaN (t.readReg rd) = false := by
  obtain ⟨_, -, hrest⟩ := bind_eq_ok.mp (ok_of_running h ht)
  obtain ⟨_, -, hrest⟩ := bind_eq_ok.mp hrest
  obtain ⟨m, hm, hrest⟩ := bind_eq_ok.mp hrest
  cases hrest
  obtain ⟨hnan, rfl⟩ := floatView_eq_ok.mp hm
  rwa [readReg_writeReg_same]

theorem isNaN_dqa (h : exec (.dqa rd rs1) s = .next t) : isNaN (t.readReg rd) = false := by
  cases h
  rw [readReg_writeReg_same, isNaN_dequantA]

theorem isNaN_dqbcd (h : exec (.dqbcd rd rs1) s = .next t) : isNaN (t.readReg rd) = false := by
  cases h
  rw [readReg_writeReg_same, isNaN_dequantBcd]

theorem isNaN_dqch (h : exec (.dqch rd rs1) s = .next t) (ht : t.status = 0) : isNaN (t.readReg rd) = false := by
  obtain ⟨_, -, hrest⟩ := bind_eq_ok.mp (ok_of_running h ht)
  cases hrest
  rw [readReg_writeReg_same, isNaN_chromaOfIndex]

theorem isNaN_rgb2ypp (hden : 1 ≤ s.den) (h : exec (.rgb2ypp rd rs1) s = .next t) (ht : t.status = 0) {k : Nat} (hk : k < 3) :
    isNaN (t.readReg (rd.plus k)) = false := by
  obtain ⟨_, hfit, hrest⟩ := bind_eq_ok.mp (ok_of_running h ht)
  obtain ⟨p, hp, hrest⟩ := bind_eq_ok.mp hrest
  obtain ⟨hlegal, rfl⟩ := pixelOf_eq_ok.mp hp
  obtain ⟨-, hR, hG, hB⟩ := pixelLegal_iff.mp hlegal
  obtain ⟨hy, hpb, hpr⟩ := rgbToChroma_bounds hden (den_le s) hR hG hB
  cases hrest
  exact isNaN_writeGroup (vs := [_, _, _]) (requireGroup_eq_ok.mp hfit)
    (by simp [isNaN_of_finite hy.finite, isNaN_of_finite hpb, isNaN_of_finite hpr]) hk

end

/-- Settles O37, command by command: a check before the write, or no operation that can give a NaN. -/
theorem noComputedNaNIsWritten : Obligations.NoComputedNaNIsWritten := by
  intro rd rs1 s t _ ht
  refine ⟨fun h => ?_, fun h => ?_, fun hden h => ?_⟩
  · have hquad {k : Nat} (hk : k < 4) : isNaN (t.readReg (rd.plus k)) = false := by
      rcases h with h | h
      · exact isNaN_quad_of_running (f := fun q => ⟨(blockForward q).a, (blockForward q).b, (blockForward q).c, (blockForward q).d⟩) ht h hk
      · exact isNaN_quad_of_running (f := fun q => blockInverse ⟨q.e1, q.e2, q.e3, q.e4⟩) ht h hk
    exact ⟨plus_zero rd ▸ hquad (k := 0) (by decide), hquad (by decide), hquad (by decide), hquad (by decide)⟩
  · rcases h with h | h | h | h
    · exact isNaN_avg4 h ht
    · exact isNaN_dqa h
    · exact isNaN_dqbcd h
    · exact isNaN_dqch h ht
  · have htriple {k : Nat} (hk : k < 3) := isNaN_rgb2ypp hden h ht hk
    exact ⟨plus_zero rd ▸ htriple (k := 0) (by decide), htriple (by decide), htriple (by decide)⟩

end Sys2Proof.Machine

namespace Sys2Proof.Machine

/-!
The BlockTransform (42_blocktransform.md): what `BTF` and `BTI` have in common, a function from a quad of floats to a quad of floats.
-/

/-! ### Quads of floats -/

/-- A float of the quad is a NaN. -/
def HasNaN (q : Quad Word) : Prop := isNaN q.e1 = true ∨ isNaN q.e2 = true ∨ isNaN q.e3 = true ∨ isNaN q.e4 = true

theorem not_hasNaN_iff {q : Quad Word} :
    ¬ HasNaN q ↔ isNaN q.e1 = false ∧ isNaN q.e2 = false ∧ isNaN q.e3 = false ∧ isNaN q.e4 = false := by
  simp only [HasNaN, not_or, Bool.not_eq_true]

theorem floatQuad_of_not_hasNaN {q : Quad Word} (h : ¬ HasNaN q) : floatQuad q = .ok q :=
  floatQuad_eq_ok.mpr ⟨not_hasNaN_iff.mp h, rfl⟩

theorem floatQuad_of_hasNaN {q : Quad Word} (h : HasNaN q) : floatQuad q = .error .num := floatQuad_eq_error.mpr ⟨h, rfl⟩

/-- `t` is `s` with the quad `r` written from `rd` on (R33). -/
def WritesQuad (rd : Reg) (r : Quad Word) (s t : State) : Prop :=
  t.readReg rd = r.e1 ∧ t.readReg (rd.plus 1) = r.e2 ∧ t.readReg (rd.plus 2) = r.e3 ∧ t.readReg (rd.plus 3) = r.e4 ∧
    (∀ q, ¬ inGroup rd 4 q → t.readReg q = s.readReg q) ∧ sameButRegs s t

theorem writesQuad_writeGroup {rd : Reg} (h : rd.val + 4 ≤ 16) (r : Quad Word) (s : State) :
    WritesQuad rd r s (s.writeGroup rd r.toList) := by
  have hmember {k : Nat} (hk : k < 4) : (s.writeGroup rd r.toList).readReg (rd.plus k) = r.toList[k]'hk :=
    readReg_writeGroup_member (vs := r.toList) h hk
  exact ⟨readReg_writeGroup_head (vs := [_, _, _]) h, hmember (k := 1) (by decide), hmember (k := 2) (by decide),
    hmember (k := 3) (by decide), writeGroup_frame rfl h⟩

/-! ### A command that transforms a quad -/

/-- R142, R143: the computation of a block transform, for the function `f`. -/
def transformQuad (f : Quad Word → Quad Word) (rd rs1 : Reg) (s : State) : Except Cause State := do
  requireGroup rd 4
  requireGroup rs1 4
  let q ← floatQuad (s.readQuad rs1)
  let r ← floatQuad (f q)
  return s.writeGroup rd r.toList

/-- `block_forward` (R140), its coefficients as a quad. -/
def forwardQuad (q : Quad Word) : Quad Word := ⟨(blockForward q).a, (blockForward q).b, (blockForward q).c, (blockForward q).d⟩

/-- `block_inverse` (R141) of the coefficients in a quad. -/
def inverseQuad (q : Quad Word) : Quad Word := blockInverse ⟨q.e1, q.e2, q.e3, q.e4⟩

theorem exec_btf (rd rs1 : Reg) (s : State) :
    exec (.btf rd rs1) s = complete (.btf rd rs1) s (transformQuad forwardQuad rd rs1 s) := rfl

theorem exec_bti (rd rs1 : Reg) (s : State) :
    exec (.bti rd rs1) s = complete (.bti rd rs1) s (transformQuad inverseQuad rd rs1 s) := rfl

section
variable {f : Quad Word → Quad Word} {rd rs1 : Reg} {s : State}

theorem transformQuad_of_floats (hrd : rd.val + 4 ≤ 16) (hrs1 : rs1.val + 4 ≤ 16) (hq : ¬ HasNaN (s.readQuad rs1))
    (hr : ¬ HasNaN (f (s.readQuad rs1))) : transformQuad f rd rs1 s = .ok (s.writeGroup rd (f (s.readQuad rs1)).toList) := by
  simp only [transformQuad, requireGroup_fits hrd, requireGroup_fits hrs1, floatQuad_of_not_hasNaN hq, floatQuad_of_not_hasNaN hr, bind_ok]
  rfl

theorem transformQuad_of_nan (hrd : rd.val + 4 ≤ 16) (hrs1 : rs1.val + 4 ≤ 16)
    (h : HasNaN (s.readQuad rs1) ∨ HasNaN (f (s.readQuad rs1))) : transformQuad f rd rs1 s = .error .num := by
  simp only [transformQuad, requireGroup_fits hrd, requireGroup_fits hrs1, bind_ok]
  by_cases hq : HasNaN (s.readQuad rs1)
  · rw [floatQuad_of_hasNaN hq, bind_error]
  · rw [floatQuad_of_not_hasNaN hq, bind_ok, floatQuad_of_hasNaN (h.resolve_left hq), bind_error]

/-- A command that transforms a quad writes the results, or raises `NUM` when an operand or a result is a NaN. -/
theorem complete_transformQuad (i : Instr) (hrd : rd.val + 4 ≤ 16) (hrs1 : rs1.val + 4 ≤ 16) :
    (¬ HasNaN (s.readQuad rs1) → ¬ HasNaN (f (s.readQuad rs1)) →
      ∃ t, complete i s (transformQuad f rd rs1 s) = .next t ∧ WritesQuad rd (f (s.readQuad rs1)) s t) ∧
    (HasNaN (s.readQuad rs1) ∨ HasNaN (f (s.readQuad rs1)) →
      complete i s (transformQuad f rd rs1 s) = .next (s.faultEntry .num (encode i))) := by
  refine ⟨fun hq hr => ⟨_, ?_, writesQuad_writeGroup hrd _ _⟩, fun h => ?_⟩
  · rw [transformQuad_of_floats hrd hrs1 hq hr, complete_ok]
  · rw [transformQuad_of_nan hrd hrs1 h, complete_error]

end

/-! ### BTF and BTI -/

/-- The words of an opcode whose two registers name quads (R83, R88). -/
theorem decodesAs_quads {op : BitVec 8} {mk : Reg → Reg → Instr} (hpat : ∀ c, opField c = op → decodePattern c = formatR c mk)
    (hreject : ∀ rd rs1, (mk rd rs1).reject = (groupReject rd 4 <|> groupReject rs1 4)) :
    decodesAs op (fun c => c.extractLsb' 0 16 == 0 && rdAtMost 12 c && rs1AtMost 12 c) (fun c => mk (rdField c) (rs1Field c)) := by
  have hextra (c : CmdWord) : (rdAtMost 12 c && rs1AtMost 12 c) = true ↔ (mk (rdField c) (rs1Field c)).WellFormed := by
    rw [quadsAtMost_iff, Instr.WellFormed, hreject]
  simpa only [Bool.and_assoc] using decodesAs_formatR hpat hextra

/-- Settles O36: both commands transform a quad, each by its own function. -/
theorem blockTransformCommands : Obligations.BlockTransformCommands := by
  refine ⟨decodesAs_quads (fun c h => by rw [decodePattern, h]; rfl) (fun _ _ => rfl),
    decodesAs_quads (fun c h => by rw [decodePattern, h]; rfl) (fun _ _ => rfl), fun rd rs1 s hrd hrs1 => ?_⟩
  have hfit : rd.val + 4 ≤ 16 := by omega
  have hfit1 : rs1.val + 4 ≤ 16 := by omega
  have hforward := complete_transformQuad (s := s) (f := forwardQuad) (.btf rd rs1) hfit hfit1
  have hinverse := complete_transformQuad (s := s) (f := inverseQuad) (.bti rd rs1) hfit hfit1
  rw [← exec_btf] at hforward
  rw [← exec_bti] at hinverse
  obtain ⟨hbtf, hbtfNaN⟩ := hforward
  obtain ⟨hbti, hbtiNaN⟩ := hinverse
  exact ⟨rfl, rfl,
    fun hq ha hb hc hd => hbtf hq (not_hasNaN_iff.mpr ⟨ha, hb, hc, hd⟩), hbtfNaN,
    fun hq h1 h2 h3 h4 => hbti hq (not_hasNaN_iff.mpr ⟨h1, h2, h3, h4⟩), hbtiNaN⟩

end Sys2Proof.Machine

namespace Sys2Proof

/-- An opcode of two registers that may be any (R83). -/
theorem decodesAs_formatR_all {op : BitVec 8} {mk : Reg → Reg → Instr} (hpat : ∀ c, opField c = op → decodePattern c = formatR c mk)
    (hwf : ∀ rd rs1, (mk rd rs1).WellFormed) :
    Machine.decodesAs op (fun c => c.extractLsb' 0 16 == 0) (fun c => mk (rdField c) (rs1Field c)) :=
  decodesAs_of_pattern hpat fun _ => ⟨fun h => ⟨h, hwf _ _⟩, fun h => h.1⟩

end Sys2Proof

namespace Sys2Proof.Machine

/-!
The Quantizer (43_quantizer.md). `quant_bcd` is a chain of operations that commute with the sign change, between two clamps; `quant_a` from 0 to 1
rounds an exact product to the nearest integer.
-/

/-! ### One float operand -/

theorem complete_of_float {i : Instr} {s : State} {v : Word} {f : Word → Except Cause State} (h : isNaN v = false) :
    complete i s (floatView v >>= f) = complete i s (f v) := by
  rw [floatView_ok h, bind_ok]

theorem complete_of_nan {i : Instr} {s : State} {v : Word} {f : Word → Except Cause State} (h : isNaN v = true) :
    complete i s (floatView v >>= f) = .next (s.faultEntry .num (encode i)) := by
  rw [floatView_nan h, bind_error, complete_error]

/-! ### AVG4 -/

section
variable {rd rs1 : Reg} {s : State}

theorem avg4_of_floats (hfit : rs1.val + 4 ≤ 16) (hq : ¬ HasNaN (s.readQuad rs1)) (hm : isNaN (mean4 (s.readQuad rs1)) = false) :
    exec (.avg4 rd rs1) s = .next (s.writeReg rd (mean4 (s.readQuad rs1))) := by
  refine (complete_group_fits hfit).trans ?_
  rw [floatQuad_of_not_hasNaN hq, bind_ok]
  exact complete_of_float hm

theorem avg4_of_nan (hfit : rs1.val + 4 ≤ 16) (h : HasNaN (s.readQuad rs1) ∨ isNaN (mean4 (s.readQuad rs1)) = true) :
    exec (.avg4 rd rs1) s = .next (s.faultEntry .num (encode (.avg4 rd rs1))) := by
  refine (complete_group_fits hfit).trans ?_
  by_cases hq : HasNaN (s.readQuad rs1)
  · rw [floatQuad_of_hasNaN hq, bind_error, complete_error]
  · rw [floatQuad_of_not_hasNaN hq, bind_ok]
    exact complete_of_nan (h.resolve_left hq)

end

theorem hasNaN_or_iff {q : Quad Word} {p : Prop} :
    HasNaN q ∨ p ↔ isNaN q.e1 = true ∨ isNaN q.e2 = true ∨ isNaN q.e3 = true ∨ isNaN q.e4 = true ∨ p := by
  simp only [HasNaN, or_assoc]

/-- Settles O38, by whether a NaN is among the operands and the mean. -/
theorem avg4Means : Obligations.Avg4Means := by
  refine ⟨decodesAs_formatR (extra := rs1AtMost 12) (fun c h => by rw [decodePattern, h]; rfl) (rs1AtMost_iff rfl), fun rd rs1 s hrs1 => ?_⟩
  have hfit : rs1.val + 4 ≤ 16 := by omega
  have hiff := hasNaN_or_iff (q := s.readQuad rs1) (p := isNaN (mean4 (s.readQuad rs1)) = true)
  refine ⟨rfl, fun h => ?_, fun h => avg4_of_nan hfit (hiff.mpr h)⟩
  obtain ⟨hq, hm⟩ := not_or.mp (mt hiff.mp h)
  exact ⟨_, avg4_of_floats hfit hq (Bool.eq_false_iff.mpr hm), readReg_writeReg_same _ _ _, writeReg_frame _ _ _⟩

/-! ### QA -/

/-- The rounded product of R152. -/
def scaledA (a : Word) : Word := fround (fmul a fc_512)

theorem quantA_eq (a : Word) : quantA a = if isInf (scaledA a) then .error .ovf
    else if f2i (scaledA a) < 0 ∨ 2 ^ 64 - 1 < f2i (scaledA a) then .error .ovf else .ok (f2i (scaledA a)).toNat := rfl

section
variable {a : Word}

theorem quantA_of_u64 (hinf : isInf (scaledA a) = false) (h0 : 0 ≤ f2i (scaledA a)) (h64 : f2i (scaledA a) < 2 ^ 64) :
    quantA a = .ok (f2i (scaledA a)).toNat := by
  rw [quantA_eq, hinf, if_neg Bool.false_ne_true, if_neg (by omega)]

theorem quantA_of_overflow (h : isInf (scaledA a) = true ∨ f2i (scaledA a) < 0 ∨ 2 ^ 64 ≤ f2i (scaledA a)) :
    quantA a = .error .ovf := by
  rw [quantA_eq]
  split
  · rfl
  next hinf => exact if_pos ((h.resolve_left hinf).imp_right fun h64 => by omega)

end

theorem toNat_to64 {n : Nat} (h : n < 2 ^ 64) : (to64 n).toNat = n := by
  rw [to64, BitVec.ofInt_natCast, BitVec.toNat_ofNat, Nat.mod_eq_of_lt h]

/-- Settles O39: a NaN is refused before the product, whose rounded value then decides. -/
theorem qaScales : Obligations.QaScales := by
  refine ⟨decodesAs_formatR_all (fun c h => by rw [decodePattern, h]; rfl) fun _ _ => rfl, fun rd rs1 s => ?_⟩
  refine ⟨rfl, fun hnan hinf h0 h64 => ?_, fun hnan h => ?_, complete_of_nan⟩
  · have hq := quantA_of_u64 hinf h0 h64
    refine ⟨_, (complete_of_float hnan).trans (by rw [hq, bind_ok]; rfl), ?_, writeReg_frame _ _ _⟩
    have hlt : (f2i (scaledA (s.readReg rs1))).toNat < 2 ^ 64 := (Int.toNat_lt h0).mpr h64
    rw [readReg_writeReg_same, toNat_to64 hlt]
    exact Int.toNat_of_nonneg h0
  · exact (complete_of_float hnan).trans (by rw [quantA_of_overflow h]; rfl)

/-! ### The range of `quant_bcd` -/

theorem f2i_mono {u v : Word} (h : units u ≤ units v) : f2i u ≤ f2i v := by
  rw [f2i_eq_tdiv, f2i_eq_tdiv]
  exact Int.tdiv_le_tdiv (Int.natCast_pos.mpr oneU_pos) h

theorem isFiniteF_fc_0_3 : isFiniteF fc_0_3 := by unfold isFiniteF; decide

theorem isFiniteF_fc_15 : isFiniteF fc_15 := by unfold isFiniteF; decide

theorem units_fc_0_3_ne_zero : units fc_0_3 ≠ 0 := by decide +kernel

theorem units_fc_15_ne_zero : units fc_15 ≠ 0 := by decide +kernel

theorem isNaN_fclamp_0_3 {v : Word} (hv : isNaN v = false) : isNaN (fclamp v fc_neg_0_3 fc_0_3) = false := by
  obtain ⟨h, -, -⟩ := fclamp_bounds (lo := fc_neg_0_3) (hi := fc_0_3) hv rfl rfl (by decide +kernel)
  exact h

theorem isNaN_fdiv_fc_0_3 {v : Word} (hv : isNaN v = false) : isNaN (fdiv v fc_0_3) = false :=
  isNaN_fdiv_of_nonzero hv isFiniteF_fc_0_3 units_fc_0_3_ne_zero

/-- R153: the last clamp bounds the result. -/
theorem quantBcd_bounds {v : Word} (hv : isNaN v = false) : -15 ≤ quantBcd v ∧ quantBcd v ≤ 15 := by
  have hp := isNaN_fmul_of_nonzero (isNaN_fdiv_fc_0_3 (isNaN_fclamp_0_3 hv)) isFiniteF_fc_15 units_fc_15_ne_zero
  obtain ⟨-, hlo, hhi⟩ := fclamp_bounds (lo := fc_neg_15) (hi := fc_15) (isNaN_fround hp) rfl rfl (by decide +kernel)
  have hleast : f2i fc_neg_15 = -15 := by decide +kernel
  have hgreatest : f2i fc_15 = 15 := by decide +kernel
  exact ⟨hleast.symm.trans_le (f2i_mono hlo), (f2i_mono hhi).trans_eq hgreatest⟩

/-! ### QBCD and QCH -/

theorem toInt_to64 {n : Int} (hlo : -2 ^ 63 ≤ n) (hhi : n < 2 ^ 63) : (to64 n).toInt = n :=
  BitVec.toInt_ofInt_eq_self (by decide) hlo hhi

section
variable {rd rs1 : Reg} {s : State}

theorem qbcd_of_float (h : isNaN (s.readReg rs1) = false) :
    exec (.qbcd rd rs1) s = .next (s.writeReg rd (to64 (quantBcd (s.readReg rs1)))) := complete_of_float h

theorem qch_of_float (h : isNaN (s.readReg rs1) = false) :
    exec (.qch rd rs1) s = .next (s.writeReg rd ((chromaIndexOf (s.readReg rs1)).setWidth 64)) := complete_of_float h

end

/-- Settles O40, by whether the operand is a NaN. -/
theorem qbcdAndQchQuantize : Obligations.QbcdAndQchQuantize := by
  refine ⟨decodesAs_formatR_all (fun c h => by rw [decodePattern, h]; rfl) fun _ _ => rfl,
    decodesAs_formatR_all (fun c h => by rw [decodePattern, h]; rfl) fun _ _ => rfl, fun rd rs1 s => ?_⟩
  refine ⟨rfl, rfl, fun hv => ⟨⟨_, qbcd_of_float hv, ?_, writeReg_frame _ _ _⟩, ⟨_, qch_of_float hv, ?_, writeReg_frame _ _ _⟩⟩,
    fun hv => ⟨complete_of_nan hv, complete_of_nan hv⟩⟩
  · obtain ⟨hlo, hhi⟩ := quantBcd_bounds hv
    rw [readReg_writeReg_same, toInt_to64 (by omega) (by omega)]
    rfl
  · rw [readReg_writeReg_same, BitVec.toNat_setWidth_of_le (by decide)]
    rfl

/-! ### DQA, DQBCD and DQCH -/

section
variable {rd rs1 : Reg} {s : State}

theorem dqch_of_index {i : BitVec 8} (h : (s.readReg rs1).toNat = i.toNat) :
    exec (.dqch rd rs1) s = .next (s.writeReg rd (chromaOfIndex i)) := by
  have hi : i = (s.readReg rs1).extractLsb' 0 8 := by
    apply BitVec.eq_of_toNat_eq
    rw [BitVec.extractLsb'_toNat, h, Nat.shiftRight_zero, Nat.mod_eq_of_lt i.isLt]
  have hop : indexOf (s.readReg rs1) = .ok i := indexOf_eq_ok.mpr ⟨by omega, hi⟩
  rw [exec, execDqch, hop]
  rfl

theorem dqch_past_255 (h : 255 < (s.readReg rs1).toNat) :
    exec (.dqch rd rs1) s = .next (s.faultEntry .opr (encode (.dqch rd rs1))) := by
  rw [exec, execDqch, indexOf_eq_error.mpr ⟨h, rfl⟩]
  rfl

end

/-- Settles O41: DQA and DQBCD have no check, DQCH one. -/
theorem dequantizeCommands : Obligations.DequantizeCommands := by
  refine ⟨decodesAs_formatR_all (fun c h => by rw [decodePattern, h]; rfl) fun _ _ => rfl,
    decodesAs_formatR_all (fun c h => by rw [decodePattern, h]; rfl) fun _ _ => rfl,
    decodesAs_formatR_all (fun c h => by rw [decodePattern, h]; rfl) fun _ _ => rfl, fun rd rs1 s => ?_⟩
  refine ⟨rfl, rfl, rfl, ⟨_, rfl, readReg_writeReg_same _ _ _, writeReg_frame _ _ _⟩,
    ⟨_, rfl, readReg_writeReg_same _ _ _, writeReg_frame _ _ _⟩, fun i hi => ?_, dqch_past_255⟩
  refine ⟨_, dqch_of_index hi, readReg_writeReg_same _ _ _, ?_, writeReg_frame _ _ _⟩
  rw [readReg_writeReg_same, isNaN_chromaOfIndex]

/-! ### A float and its negative -/

theorem fneg_mkFloat {m : Nat} (h : m < 2 ^ 63) (neg : Bool) : fneg (mkFloat neg m) = mkFloat (!neg) m := by
  rw [← mkFloat_fields (fneg _), isNeg_fneg, expBits_fneg, fracBits_fneg, isNeg_mkFloat h, expBits_mkFloat h, fracBits_mkFloat h,
    Nat.div_add_mod']

theorem fneg_mkFloat_roundMag (neg : Bool) (n d : Nat) : fneg (mkFloat neg (roundMag n d)) = mkFloat (!neg) (roundMag n d) :=
  fneg_mkFloat ((roundMag_le n d).trans_lt infMag_lt) neg

theorem orderKey_fneg (v : Word) : orderKey (fneg v) = -orderKey v := by
  rw [orderKey, orderKey, isNeg_fneg, expBits_fneg, fracBits_fneg]
  cases isNeg v <;> simp

theorem flt_fneg (a b : Word) : flt (fneg a) (fneg b) = flt b a := by
  rw [flt, flt, isNaN_fneg, isNaN_fneg, orderKey_fneg, orderKey_fneg, Bool.and_comm (!isNaN a)]
  simp only [Int.neg_lt_neg_iff]

/-- Clamping between a limit and its negative commutes with the sign change. -/
theorem fclamp_fneg (v : Word) {lo hi : Word} (hlo : lo = fneg hi) (hhi : hi = fneg lo) (h : orderKey lo ≤ orderKey hi) :
    fclamp (fneg v) lo hi = fneg (fclamp v lo hi) := by
  have hboth : flt v lo = true → flt hi v = false := by
    simp only [flt, Bool.and_eq_true, decide_eq_true_eq, Bool.and_eq_false_iff, decide_eq_false_iff_not]
    omega
  have hbelow : flt (fneg v) lo = flt hi v := (congrArg (flt (fneg v)) hlo).trans (flt_fneg v hi)
  have habove : flt hi (fneg v) = flt v lo := (congrArg (flt · (fneg v)) hhi).trans (flt_fneg lo v)
  rw [fclamp, fclamp, hbelow, habove]
  cases hl : flt v lo with
  | true =>
    rw [hboth hl]
    exact hhi
  | false =>
    cases flt hi v with
    | true => exact hlo
    | false => rfl

theorem fmul_fneg {a b : Word} (ha : isNaN a = false) (hb : isFiniteF b) (h0 : units b ≠ 0) : fmul (fneg a) b = fneg (fmul a b) := by
  rcases isInf_or_finite ha with hinf | hfin
  · have hmul {c : Word} (hc : isInf c = true) : fmul c b = mkFloat (isNeg c != isNeg b) infMag := by
      simp [fmul_inf, isNaN_of_isInf, isNaN_of_finite, isZeroF_of_isInf, isZeroF_eq b, hc, hb, h0]
    rw [hmul ((isInf_fneg a).trans hinf), hmul hinf, isNeg_fneg, Bool.not_bne, fneg_mkFloat infMag_lt]
  · rw [fmul_finite (isFiniteF_fneg hfin) hb, fmul_finite hfin hb, isNeg_fneg, magUnits_fneg, Bool.not_bne, fneg_mkFloat_roundMag]

theorem fdiv_fneg {a b : Word} (ha : isNaN a = false) (hb : isFiniteF b) (h0 : units b ≠ 0) : fdiv (fneg a) b = fneg (fdiv a b) := by
  rcases isInf_or_finite ha with hinf | hfin
  · rw [fdiv_inf_finite ((isInf_fneg a).trans hinf) hb, fdiv_inf_finite hinf hb, isNeg_fneg, Bool.not_bne, fneg_mkFloat infMag_lt]
  · rw [fdiv_finite (isFiniteF_fneg hfin) hb h0, fdiv_finite hfin hb h0, isNeg_fneg, magUnits_fneg, Bool.not_bne, fneg_mkFloat_roundMag]

theorem fround_fneg (v : Word) : fround (fneg v) = fneg (fround v) := by
  rw [fround, fround, expBits_fneg, isNeg_fneg, magUnits_fneg]
  split
  · rfl
  · rw [fneg_mkFloat_roundMag]

theorem f2i_fneg (v : Word) : f2i (fneg v) = -f2i v := by
  rw [f2i_eq_tdiv, f2i_eq_tdiv, units_fneg, Int.neg_tdiv]

/-- R153: `quant_bcd` changes sign with its operand, as each of its operations does. -/
theorem quantBcd_fneg {v : Word} (hv : isNaN v = false) : quantBcd (fneg v) = -quantBcd v := by
  have hw := isNaN_fclamp_0_3 hv
  have hd := isNaN_fdiv_fc_0_3 hw
  have hclamp3 : fclamp (fneg v) fc_neg_0_3 fc_0_3 = fneg (fclamp v fc_neg_0_3 fc_0_3) := fclamp_fneg v (by decide) (by decide) (by decide)
  have hclamp15 (p : Word) : fclamp (fneg p) fc_neg_15 fc_15 = fneg (fclamp p fc_neg_15 fc_15) := fclamp_fneg p (by decide) (by decide) (by decide)
  simp only [quantBcd]
  rw [hclamp3, fdiv_fneg hw isFiniteF_fc_0_3 units_fc_0_3_ne_zero, fmul_fneg hd isFiniteF_fc_15 units_fc_15_ne_zero, fround_fneg,
    hclamp15, f2i_fneg]

/-! ### The saturation of `quant_bcd` -/

theorem eq_of_orderKey_eq {a b : Word} (h : orderKey a = orderKey b) (h0 : orderKey b ≠ 0) : a = b := by
  rw [← mkFloat_fields a, ← mkFloat_fields b]
  rw [orderKey, orderKey] at h
  rw [orderKey] at h0
  cases ha : isNeg a <;> cases hb : isNeg b <;> simp only [ha, hb, if_true, Bool.false_eq_true, if_false] at h h0
  · rw [Int.ofNat_inj.mp h]
  · omega
  · omega
  · rw [Int.ofNat_inj.mp (Int.neg_inj.mp h)]

theorem fclamp_of_not_flt_hi {v lo hi : Word} (hv : isNaN v = false) (hhi : isNaN hi = false) (hle : orderKey lo ≤ orderKey hi)
    (h0 : orderKey hi ≠ 0) (h : flt v hi = false) : fclamp v lo hi = hi := by
  have hkey : orderKey hi ≤ orderKey v := by simpa [flt, hv, hhi] using h
  have hlo : flt v lo = false := by
    rw [flt, Bool.and_eq_false_iff]
    exact .inr (decide_eq_false (by omega))
  rw [fclamp, hlo, if_neg Bool.false_ne_true]
  split
  · rfl
  next hgt =>
    have hgt' : ¬ orderKey hi < orderKey v := by simpa [flt, hv, hhi] using hgt
    exact eq_of_orderKey_eq (by omega) h0

theorem quantBcd_of_ge {v : Word} (hv : isNaN v = false) (h : flt v fc_0_3 = false) : quantBcd v = 15 := by
  have hclamp : fclamp v fc_neg_0_3 fc_0_3 = fc_0_3 := fclamp_of_not_flt_hi hv rfl (by decide) (by decide) h
  have h15 : f2i (fclamp (fround (fmul (fdiv fc_0_3 fc_0_3) fc_15)) fc_neg_15 fc_15) = 15 := by decide +kernel
  simp only [quantBcd]
  rw [hclamp, h15]

/-- Settles O42: the lower end is the upper one under the sign change. -/
theorem quantBcdSaturates : Obligations.QuantBcdSaturates := by
  intro v hv
  obtain ⟨hlo, hhi⟩ := quantBcd_bounds hv
  have hodd := quantBcd_fneg hv
  refine ⟨hlo, hhi, quantBcd_of_ge hv, fun h => ?_, hodd⟩
  have hneg : flt (fneg v) fc_0_3 = false := (flt_fneg v fc_neg_0_3).trans h
  rw [quantBcd_of_ge ((isNaN_fneg v).trans hv) hneg] at hodd
  omega

/-! ### The nearest integer -/

theorem le_nearestInt_iff {v : Word} {k : Nat} : k ≤ nearestInt v ↔ 2 * (k * oneU) ≤ 2 * magUnits v + oneU := by
  rw [nearestInt, Nat.le_div_iff_mul_le (Nat.mul_pos Nat.two_pos oneU_pos), Nat.mul_left_comm]

theorem nearestInt_natural {v : Word} {q : Nat} (h : magUnits v = q * oneU) : nearestInt v = q := by
  have hpos := oneU_pos
  have hle : q ≤ nearestInt v := le_nearestInt_iff.mpr (by omega)
  have hlt : ¬ q + 1 ≤ nearestInt v := by
    rw [le_nearestInt_iff, Nat.succ_mul q]
    omega
  omega

theorem f2i_fround {v : Word} (h : isFiniteF v) : f2i (fround v) = if isNeg v then -(nearestInt v : Int) else nearestInt v := by
  rw [f2i, isNeg_fround h, magUnits_fround h, Nat.mul_div_cancel _ oneU_pos]

theorem isInf_fround {v : Word} (h : isFiniteF v) : isInf (fround v) = false := by
  rw [fround_finite h]
  exact isInf_of_finite (isFiniteF_mkFloat (roundMag_nearestInt h).1)

/-! ### Scaling by a power of two is exact -/

/-- A quotient equal to a significand times a power of two, below the overflow, is not changed by rounding. -/
theorem roundMag_of_significand {q e n d : Nat} (hq : q ≤ 2 ^ 53) (he : e < 2045) (hd : 0 < d) (hn : n = q * 2 ^ e * d) :
    roundMag n d < infMag ∧ magOfBits (roundMag n d) = q * 2 ^ e := by
  obtain ⟨m, hm, hv⟩ := exists_magOfBits_eq e hq
  have hlt : m < infMag := by unfold infMag; omega
  have hr : roundMag n d = m := by rw [hn, ← hv, roundMag_exact hlt hd]
  exact hr ▸ ⟨hlt, hv⟩

theorem isFiniteF_fc_512 : isFiniteF fc_512 := by unfold isFiniteF; decide

theorem magUnits_fc_512 : magUnits fc_512 = 512 * oneU := by decide +kernel

/-- The product of a float from 0 to 1 with 512. -/
theorem fmul_fc_512_exact {a : Word} (h : BoundedBy a fone) :
    isFiniteF (fmul a fc_512) ∧ isNeg (fmul a fc_512) = isNeg a ∧ magUnits (fmul a fc_512) = 512 * magUnits a := by
  have hbits : expBits a * 2 ^ 52 + fracBits a ≤ expBits fone * 2 ^ 52 + fracBits fone := by
    have hle := h.le
    rwa [magUnits_eq_magOfBits, magUnits_eq_magOfBits, magOfBits_strictMono.le_iff_le] at hle
  have hfone : expBits fone * 2 ^ 52 + fracBits fone = 1023 * 2 ^ 52 := by decide
  obtain ⟨sh, q, hm, hq, hn⟩ := exists_significand (expBits a * 2 ^ 52 + fracBits a)
  have hmag : magUnits a = q * 2 ^ sh := by rw [magUnits_eq_magOfBits, hm, magOfBits_of_significand hq.le hn]
  have hprod : magUnits a * magUnits fc_512 = q * 2 ^ (sh + 9) * oneU := by rw [hmag, magUnits_fc_512, Nat.pow_add]; ring
  obtain ⟨hlt, hv⟩ := roundMag_of_significand hq.le (by omega) oneU_pos hprod
  rw [fmul_finite h.finite isFiniteF_fc_512, isNeg_mkFloat_roundMag, magUnits_mkFloat_roundMag]
  refine ⟨isFiniteF_mkFloat hlt, Bool.bne_false (isNeg a), ?_⟩
  rw [hv, hmag, Nat.pow_add]
  ring

/-! ### `quant_a` on floats from 0 to 1 -/

theorem boundedBy_fone_of_units {a : Word} (h0 : 0 ≤ units a) (h1 : units a ≤ oneU) : BoundedBy a fone :=
  boundedBy_fone (by rw [magUnits_fone, ← natAbs_units]; omega)

theorem nearestInt_fmul_le {a : Word} (h : BoundedBy a fone) : nearestInt (fmul a fc_512) ≤ 512 := by
  obtain ⟨-, -, hmag⟩ := fmul_fc_512_exact h
  have hle := h.le
  have hpos := oneU_pos
  rw [magUnits_fone] at hle
  have hlt : ¬ 513 ≤ nearestInt (fmul a fc_512) := mt le_nearestInt_iff.mp (by omega)
  omega

/-- The negative zero is the only float with a minus sign whose value is not negative. -/
theorem magUnits_of_neg {v : Word} (h0 : 0 ≤ units v) (hneg : isNeg v = true) : magUnits v = 0 := by
  rw [units, if_pos hneg] at h0
  omega

/-- R152, R176: from 0 to 1 the result is the integer nearest to the exact product with 512. -/
theorem quantA_of_unit {a : Word} (h0 : 0 ≤ units a) (h1 : BoundedBy a fone) :
    quantA a = .ok (nearestInt (fmul a fc_512)) := by
  obtain ⟨hfin, hsign, hmag⟩ := fmul_fc_512_exact h1
  have hle := nearestInt_fmul_le h1
  have hf : f2i (scaledA a) = nearestInt (fmul a fc_512) := by
    rw [scaledA, f2i_fround hfin, hsign]
    split
    next hneg =>
      have hzero : nearestInt (fmul a fc_512) = 0 := nearestInt_natural (by rw [hmag, magUnits_of_neg h0 hneg, Nat.mul_zero, Nat.zero_mul])
      rw [hzero, Int.natCast_zero, Int.neg_zero]
    next => rfl
  rw [quantA_of_u64 (isInf_fround hfin) (by omega) (by omega), hf, Int.toNat_natCast]

/-- 511.5/512 is 1023/1024. -/
theorem units_511_5 : 1024 * units 0x3FEFF80000000000 = 1023 * oneU := by decide +kernel

/-- Settles O43: the nearest integer is 512 when twice the product is at least 1023. -/
theorem quantAOnUnitInterval : Obligations.QuantAOnUnitInterval := by
  intro a ha h0 h1
  have hpos : 0 ≤ units a := units_fc_0.symm.trans_le ((flt_eq_false_iff ha rfl).mp h0)
  have hone : units a ≤ oneU := ((flt_eq_false_iff rfl ha).mp h1).trans_eq (by decide +kernel)
  have hbound := boundedBy_fone_of_units hpos hone
  obtain ⟨-, -, hmag⟩ := fmul_fc_512_exact hbound
  have hle := nearestInt_fmul_le hbound
  refine ⟨_, quantA_of_unit hpos hbound, hle, ?_⟩
  have hthreshold := units_511_5
  have habs := natAbs_units a
  calc nearestInt (fmul a fc_512) = 512
      ↔ 512 ≤ nearestInt (fmul a fc_512) := ⟨fun h => h.ge, fun h => Nat.le_antisymm hle h⟩
    _ ↔ 2 * (512 * oneU) ≤ 2 * magUnits (fmul a fc_512) + oneU := le_nearestInt_iff
    _ ↔ units 0x3FEFF80000000000 ≤ units a := by omega
    _ ↔ flt a 0x3FEFF80000000000 = false := (flt_eq_false_iff ha rfl).symm

/-! ### Quantising what was dequantised -/

/-- The value of `dequant_a(1)`, 1/512, is a power of two units. -/
theorem oneU_eq_mul_512 : ∃ e, e < 2045 ∧ oneU = 2 ^ e * 512 := ⟨1065, by decide, by decide +kernel⟩

theorem magUnits_fc_512_pos : 0 < magUnits fc_512 := by decide +kernel

theorem units_fc_512_ne_zero : units fc_512 ≠ 0 := by decide +kernel

/-- R159: a 9-bit value divided by 512 is exact. -/
theorem dequantA_exact {q : Nat} (hq : q ≤ 511) :
    isNeg (dequantA q) = false ∧ 512 * magUnits (dequantA q) = q * oneU := by
  obtain ⟨hfin, hunits⟩ := i2f_exact (n := q) (by rw [Int.natAbs_natCast]; omega)
  have hmag : magUnits (i2f q) = q * oneU := by rw [← natAbs_units, hunits, ← Nat.cast_mul, Int.natAbs_natCast]
  obtain ⟨e, he, hone⟩ := oneU_eq_mul_512
  have hquot : magUnits (i2f q) * oneU = q * 2 ^ e * magUnits fc_512 := by
    rw [hmag, magUnits_fc_512, hone]
    ring
  obtain ⟨-, hv⟩ := roundMag_of_significand (hq.trans (by decide)) he magUnits_fc_512_pos hquot
  have hsign : isNeg (i2f q) = false := isNeg_mkFloat_roundMag _ _ _
  rw [dequantA, fdiv_finite hfin isFiniteF_fc_512 units_fc_512_ne_zero, isNeg_mkFloat_roundMag, magUnits_mkFloat_roundMag, hsign]
  refine ⟨rfl, ?_⟩
  rw [hv, hone]
  ring

theorem quantA_dequantA {q : Nat} (hq : q ≤ 511) : quantA (dequantA q) = .ok q := by
  obtain ⟨hsign, hexact⟩ := dequantA_exact hq
  have hle : 512 * magUnits (dequantA q) ≤ 511 * oneU := hexact.trans_le (Nat.mul_le_mul_right _ hq)
  have hunits := units_of_not_neg hsign
  have hpos : 0 ≤ units (dequantA q) := by omega
  have hbound := boundedBy_fone_of_units hpos (by omega)
  obtain ⟨-, -, hmag⟩ := fmul_fc_512_exact hbound
  rw [quantA_of_unit hpos hbound, nearestInt_natural (hmag.trans hexact)]

/-- R154: the 31 values of a signed field, evaluated. -/
theorem quantBcd_dequantBcd : ∀ q : Int, -15 ≤ q → q ≤ 15 → quantBcd (dequantBcd q) = q := by decide +kernel

/-- Settles O44: dividing by 512 and multiplying by it are both exact, and the signed field has few values. -/
theorem quantizeOfDequantize : Obligations.QuantizeOfDequantize := ⟨fun _ => quantA_dequantA, quantBcd_dequantBcd⟩

end Sys2Proof.Machine

namespace Sys2Proof

/-!
The words of EMIT and TAKE (30_encoding.md R83): one register, the other register field zero.
-/

/-- An opcode whose one register is `rs1`. -/
theorem decodesAs_formatRS {op : BitVec 8} {mk : Reg → Instr} (hpat : ∀ c, opField c = op → decodePattern c = formatRS c mk)
    (hwf : ∀ rs1, (mk rs1).WellFormed) :
    Machine.decodesAs op (fun c => c.extractLsb' 20 4 == 0 && c.extractLsb' 0 16 == 0) (fun c => mk (rs1Field c)) :=
  decodesAs_of_pattern hpat fun _ => ⟨fun h => ⟨h, hwf _⟩, fun h => h.1⟩

theorem rs1Bits_immField_eq_zero (c : CmdWord) :
    (c.extractLsb' 0 20 == 0) = true ↔ (rs1Bits c == 0 && immField c == 0) = true := by
  have happ : c.extractLsb' 0 20 = rs1Bits c ++ immField c :=
    (BitVec.extractLsb'_append_extractLsb'_eq_extractLsb' (start₂ := 16) (start₁ := 0) (len₁ := 16) (len₂ := 4) rfl).symm
  rw [happ, Bool.and_eq_true]
  simp only [beq_iff_eq, ← BitVec.toNat_inj, Machine.toNat_append_eq_add, BitVec.ofNat_eq_ofNat, BitVec.toNat_zero]
  omega

/-- An opcode whose one register is `rd`. -/
theorem decodesAs_formatRD {op : BitVec 8} {mk : Reg → Instr} (hpat : ∀ c, opField c = op → decodePattern c = formatRD c mk)
    (hwf : ∀ rd, (mk rd).WellFormed) : Machine.decodesAs op (fun c => c.extractLsb' 0 20 == 0) (fun c => mk (rdField c)) :=
  decodesAs_of_pattern hpat fun c =>
    ⟨fun h => ⟨(rs1Bits_immField_eq_zero c).mp h, hwf _⟩, fun h => (rs1Bits_immField_eq_zero c).mpr h.1⟩

end Sys2Proof

namespace Sys2Proof.Machine

/-!
The Codec (44_codec.md): the codeword and its register view, packing and unpacking, the two streams.
-/

/-! ### The codeword view -/

theorem extractLsb'_high_eq_zero_iff {r : Word} : r.extractLsb' 32 32 = 0 ↔ r.toNat < 2 ^ 32 := by
  have hval : (r.extractLsb' 32 32).toNat = r.toNat / 2 ^ 32 % 2 ^ 32 := by rw [BitVec.extractLsb'_toNat, Nat.shiftRight_eq_div_pow]
  have hr := r.isLt
  rw [← BitVec.toNat_inj, hval, BitVec.ofNat_eq_ofNat, BitVec.toNat_zero]
  omega

/-- R35: below 2^32 a register is a codeword's, its low 32 bits. -/
theorem codewordOf_of_lt {r : Word} (h : r.toNat < 2 ^ 32) : codewordOf r = .ok (r.extractLsb' 0 32) :=
  codewordOf_eq_ok.mpr ⟨extractLsb'_high_eq_zero_iff.mpr h, rfl⟩

theorem codewordOf_of_ge {r : Word} (h : 2 ^ 32 ≤ r.toNat) : codewordOf r = .error .opr :=
  codewordOf_eq_error.mpr ⟨fun h0 => absurd (extractLsb'_high_eq_zero_iff.mp h0) (Nat.not_lt_of_le h), rfl⟩

section
variable {i : Instr} {s : State} {r : Word} {f : BitVec 32 → Except Cause State}

theorem complete_of_codeword (h : r.toNat < 2 ^ 32) :
    complete i s (codewordOf r >>= f) = complete i s (f (r.extractLsb' 0 32)) := by
  rw [codewordOf_of_lt h, bind_ok]

theorem complete_of_wide (h : 2 ^ 32 ≤ r.toNat) : complete i s (codewordOf r >>= f) = .next (s.faultEntry .opr (encode i)) := by
  rw [codewordOf_of_ge h, bind_error, complete_error]

end

theorem toNat_codewordWord (w : BitVec 32) : (codewordWord w).toNat = w.toNat := BitVec.toNat_setWidth_of_le (by decide)

/-! ### EMIT and TAKE -/

/-- The low 32 bits of a register have its bits. -/
theorem codewordBytes_extractLsb' (r : Word) : codewordBytes (r.extractLsb' 0 32) =
    [r.extractLsb' 24 8, r.extractLsb' 16 8, r.extractLsb' 8 8, r.extractLsb' 0 8] := by
  have hbyte {k : Nat} (hk : k + 8 ≤ 32) : (r.extractLsb' 0 32).extractLsb' k 8 = r.extractLsb' k 8 := by
    rw [BitVec.extractLsb'_extractLsb'_of_le hk]
  rw [codewordBytes, hbyte (by decide), hbyte (by decide), hbyte (by decide), hbyte (by decide)]

/-- Settles O52, by the codeword view of the register. -/
theorem emitAppendsBigEndian : Obligations.EmitAppendsBigEndian := by
  refine ⟨decodesAs_formatRS (fun c h => by rw [decodePattern, h]; rfl) fun _ => rfl, fun rs1 s => ⟨rfl, fun h => ?_, complete_of_wide⟩⟩
  refine (complete_of_codeword h).trans ?_
  rw [codewordBytes_extractLsb']
  rfl

theorem take_of_bytes (rd : Reg) {s : State} {b0 b1 b2 b3 : Byte} {rest : List Byte} (h : s.sin = b0 :: b1 :: b2 :: b3 :: rest) :
    exec (.take rd) s = .next (({ s with sin := rest } : State).writeReg rd (codewordWord (b0 ++ b1 ++ b2 ++ b3))) := by
  rw [exec, execTake, takeSin_eq_some.mpr ⟨b0, b1, b2, b3, rest, h, rfl, rfl⟩]
  rfl

theorem take_of_short (rd : Reg) {s : State} (h : s.sin.length < 4) :
    exec (.take rd) s = .next (s.faultEntry .dim (encode (.take rd))) := by
  rw [exec, execTake, takeSin_eq_none.mpr h]
  rfl

/-- The number of four bytes, the first the most significant (R63). -/
theorem toNat_codewordWord_append (b0 b1 b2 b3 : Byte) : (codewordWord (b0 ++ b1 ++ b2 ++ b3)).toNat =
    b0.toNat * 2 ^ 24 + b1.toNat * 2 ^ 16 + b2.toNat * 2 ^ 8 + b3.toNat := by
  rw [toNat_codewordWord]
  simp only [toNat_append_eq_add]
  omega

/-- Settles O53, by whether four bytes are present. -/
theorem takeRemovesFour : Obligations.TakeRemovesFour := by
  refine ⟨decodesAs_formatRD (fun c h => by rw [decodePattern, h]; rfl) fun _ => rfl, fun rd s => ⟨rfl, ?_, take_of_short rd⟩⟩
  intro b0 b1 b2 b3 rest h
  refine ⟨_, take_of_bytes rd h, ?_, fun q hq => ?_, rfl⟩
  · rw [readReg_writeReg_same, toNat_codewordWord_append]
  · rw [readReg_writeReg_other hq.symm]
    rfl

/-! ### The layout of a codeword -/

/-- A field set in a word with nothing at or below its top bit is added to the word. -/
theorem toNat_putField {word : Word} {w l n m : Nat} (hm : word.toNat = m) (h : l + w ≤ 64) (hn : n < 2 ^ w) (hz : 2 ^ (l + w) ∣ m) :
    (putField word w l n).toNat = m + n * 2 ^ l := by
  obtain ⟨k, rfl⟩ := hz
  have hlow : n * 2 ^ l < 2 ^ (l + w) := by
    rw [Nat.pow_add, Nat.mul_comm]
    exact Nat.mul_lt_mul_of_pos_left hn (Nat.two_pow_pos l)
  apply Nat.eq_of_testBit_eq
  intro j
  have hword : word.getLsbD j = (2 ^ (l + w) * k).testBit j := by rw [← BitVec.testBit_toNat, hm]
  rw [BitVec.testBit_toNat, putField_getLsbD h hn, hword, Nat.testBit_two_pow_mul_add _ hlow, Nat.testBit_mul_two_pow,
    Nat.testBit_two_pow_mul]
  by_cases hj : j < l + w
  · simp [hj, Nat.not_le_of_lt hj]
  · simp [hj, Nat.le_of_not_lt hj]

theorem toNat_setSigned {word : Word} {w l m : Nat} (hm : word.toNat = m) (h : l + w ≤ 64) (v : Int) (hz : 2 ^ (l + w) ∣ m) :
    (setSigned word w l v).toNat = m + (BitVec.ofInt w v).toNat * 2 ^ l := by
  rw [setSigned, toNat_ofInt_two_pow]
  exact toNat_putField hm h (BitVec.isLt _) hz

/-- R171: the six fits-checks as bounds. -/
theorem fitsCodeword_iff {q : QVals} : fitsCodeword q = true ↔
    q.qa ≤ 511 ∧ (-16 ≤ q.qb ∧ q.qb ≤ 15) ∧ (-16 ≤ q.qc ∧ q.qc ≤ 15) ∧ (-16 ≤ q.qd ∧ q.qd ≤ 15) ∧ q.qpb ≤ 15 ∧ q.qpr ≤ 15 := by
  simp only [fitsCodeword, Bool.and_eq_true, fitsUnsigned_iff, fitsSigned_iff]
  omega

/-- The number of a codeword with the given fields, the signed ones in two's complement (R170). -/
def fieldSum (q : QVals) : Nat :=
  q.qa * 2 ^ 23 + (BitVec.ofInt 5 q.qb).toNat * 2 ^ 18 + (BitVec.ofInt 5 q.qc).toNat * 2 ^ 13 + (BitVec.ofInt 5 q.qd).toNat * 2 ^ 8 +
    q.qpb * 2 ^ 4 + q.qpr

/-- R170, R171: the fields are set from the top down, each below the ones before it. -/
theorem toNat_packFields {q : QVals} (h : fitsCodeword q = true) : (packFields q).toNat = fieldSum q := by
  obtain ⟨ha, -, -, -, hpb, hpr⟩ := fitsCodeword_iff.mp h
  have hqa := toNat_putField (word := 0) (m := 0) (w := 9) (l := 23) (n := q.qa) rfl (by decide) (by omega) (dvd_zero _)
  have hqb := toNat_setSigned (w := 5) (l := 18) hqa (by decide) q.qb (by omega)
  have hqc := toNat_setSigned (w := 5) (l := 13) hqb (by decide) q.qc (by omega)
  have hqd := toNat_setSigned (w := 5) (l := 8) hqc (by decide) q.qd (by omega)
  have hqpb := toNat_putField (w := 4) (l := 4) (n := q.qpb) hqd (by decide) (by omega) (by omega)
  have hqpr := toNat_putField (w := 4) (l := 0) (n := q.qpr) hqpb (by decide) (by omega) (by omega)
  rw [fieldSum]
  exact hqpr.trans (by omega)

theorem toNat_of_packCw {q : QVals} {w : BitVec 32} (h : packCw q = .ok w) : w.toNat = fieldSum q := by
  obtain ⟨hfits, rfl⟩ := packCw_eq_ok.mp h
  obtain ⟨ha, -, -, -, hpb, hpr⟩ := fitsCodeword_iff.mp hfits
  rw [BitVec.extractLsb'_toNat, toNat_packFields hfits, Nat.shiftRight_zero, fieldSum]
  omega

theorem packCw_of_fits {q : QVals} (h : fitsCodeword q = true) : ∃ w, packCw q = .ok w ∧ w.toNat = fieldSum q :=
  have hpack := packCw_eq_ok.mpr ⟨h, rfl⟩
  ⟨_, hpack, toNat_of_packCw hpack⟩

theorem packCw_of_not_fits {q : QVals} (h : fitsCodeword q = false) : packCw q = .error .ovf := by
  rw [packCw, h]
  rfl

/-- The same number with the two's complement fields as remainders. -/
theorem fieldSum_eq (q : QVals) : (fieldSum q : Int) =
    q.qa * 2 ^ 23 + (q.qb % 32) * 2 ^ 18 + (q.qc % 32) * 2 ^ 13 + (q.qd % 32) * 2 ^ 8 + q.qpb * 2 ^ 4 + q.qpr := by
  simp only [fieldSum, BitVec.toNat_ofInt]
  omega

/-! ### PACKCW -/

section
variable {rd rs1 : Reg} {s : State}

theorem packcw_of_fits (hfit : rs1.val + 6 ≤ 16) (h : fitsCodeword (s.readHex rs1) = true) :
    ∃ w, exec (.packcw rd rs1) s = .next (s.writeReg rd (codewordWord w)) ∧ w.toNat = fieldSum (s.readHex rs1) := by
  obtain ⟨w, hpack, hw⟩ := packCw_of_fits h
  refine ⟨w, (complete_group_fits hfit).trans ?_, hw⟩
  rw [hpack]
  rfl

theorem packcw_of_not_fits (hfit : rs1.val + 6 ≤ 16) (h : fitsCodeword (s.readHex rs1) = false) :
    exec (.packcw rd rs1) s = .next (s.faultEntry .ovf (encode (.packcw rd rs1))) := by
  refine (complete_group_fits hfit).trans ?_
  rw [packCw_of_not_fits h]
  rfl

end

/-- Settles O45, by whether the six values fit. -/
theorem packcwBuildsCodeword : Obligations.PackcwBuildsCodeword := by
  refine ⟨decodesAs_formatR (extra := rs1AtMost 10) (fun c h => by rw [decodePattern, h]; rfl) (rs1AtMost_iff rfl), fun rd rs1 s hrs1 => ?_⟩
  have hfit : rs1.val + 6 ≤ 16 := by omega
  refine ⟨rfl, fun h => ?_, fun h => packcw_of_not_fits hfit (Bool.eq_false_iff.mpr (mt fitsCodeword_iff.mp h))⟩
  obtain ⟨w, hexec, hw⟩ := packcw_of_fits (rd := rd) hfit (fitsCodeword_iff.mpr h)
  refine ⟨_, hexec, ?_, writeReg_frame _ _ _⟩
  rw [readReg_writeReg_same, toNat_codewordWord, hw, fieldSum_eq]
  rfl

/-! ### The fields of a codeword -/

/-- R113: a field as the bits of the word. -/
theorem getUnsigned_eq_toNat (word : Word) (w l : Nat) : getUnsigned word w l = (word.extractLsb' l w).toNat := by
  rw [getUnsigned, BitVec.extractLsb'_toNat, Nat.shiftRight_eq_div_pow]

theorem getSigned_eq_toInt_extractLsb' (word : Word) {w : Nat} (hw : 1 ≤ w) (l : Nat) :
    getSigned word w l = (word.extractLsb' l w).toInt := by
  rw [getSigned_eq_toInt word hw, getUnsigned_eq_toNat, BitVec.ofNat_toNat, BitVec.setWidth_eq]

/-- R172, on the bits of the codeword. -/
theorem unpackCw_eq (w : BitVec 32) : unpackCw w = ⟨(w.extractLsb' 23 9).toNat, (w.extractLsb' 18 5).toInt, (w.extractLsb' 13 5).toInt,
    (w.extractLsb' 8 5).toInt, (w.extractLsb' 4 4).toNat, (w.extractLsb' 0 4).toNat⟩ := by
  have hfield {l n : Nat} (h : l + n ≤ 64) : (w.setWidth 64).extractLsb' l n = w.extractLsb' l n := BitVec.extractLsb'_setWidth_of_le h
  simp only [unpackCw, getUnsigned_eq_toNat, getSigned_eq_toInt_extractLsb' _ (show 1 ≤ 5 by decide)]
  rw [hfield (by decide), hfield (by decide), hfield (by decide), hfield (by decide), hfield (by decide), hfield (by decide)]

/-! ### Packing and unpacking -/

theorem toInt_bounds_five (x : BitVec 5) : -16 ≤ x.toInt ∧ x.toInt ≤ 15 := ⟨x.le_toInt, Int.le_of_lt_add_one x.toInt_lt⟩

theorem fitsCodeword_unpackCw (w : BitVec 32) : fitsCodeword (unpackCw w) = true := by
  rw [fitsCodeword_iff, unpackCw_eq]
  exact ⟨Nat.le_of_lt_succ (BitVec.isLt _), toInt_bounds_five _, toInt_bounds_five _, toInt_bounds_five _,
    Nat.le_of_lt_succ (BitVec.isLt _), Nat.le_of_lt_succ (BitVec.isLt _)⟩

/-- A codeword is made of its fields. -/
theorem fieldSum_unpackCw (w : BitVec 32) : fieldSum (unpackCw w) = w.toNat := by
  have hw := w.isLt
  simp only [fieldSum, unpackCw_eq, BitVec.ofInt_toInt, BitVec.extractLsb'_toNat, Nat.shiftRight_eq_div_pow]
  omega

theorem packCw_unpackCw (w : BitVec 32) : packCw (unpackCw w) = .ok w := by
  obtain ⟨u, hpack, hu⟩ := packCw_of_fits (fitsCodeword_unpackCw w)
  rw [hpack, BitVec.eq_of_toNat_eq (hu.trans (fieldSum_unpackCw w))]

/-- A signed field that holds a value's two's complement is read as the value. -/
theorem toInt_of_toNat_eq {x : BitVec 5} {v : Int} (h : x.toNat = (BitVec.ofInt 5 v).toNat) (hv : -16 ≤ v ∧ v ≤ 15) : x.toInt = v := by
  rw [BitVec.eq_of_toNat_eq h]
  exact BitVec.toInt_ofInt_eq_self (by decide) hv.1 (Int.lt_add_one_of_le hv.2)

theorem unpackCw_of_packCw {q : QVals} {w : BitVec 32} (h : packCw q = .ok w) : unpackCw w = q := by
  have hw := toNat_of_packCw h
  obtain ⟨ha, hb, hc, hd, hpb, hpr⟩ := fitsCodeword_iff.mp (packCw_eq_ok.mp h).1
  have hbf := (BitVec.ofInt 5 q.qb).isLt
  have hcf := (BitVec.ofInt 5 q.qc).isLt
  have hdf := (BitVec.ofInt 5 q.qd).isLt
  rw [fieldSum] at hw
  have hfield (l n : Nat) : (w.extractLsb' l n).toNat = w.toNat / 2 ^ l % 2 ^ n := by
    rw [BitVec.extractLsb'_toNat, Nat.shiftRight_eq_div_pow]
  rw [unpackCw_eq, toInt_of_toNat_eq (v := q.qb) (by rw [hfield]; omega) hb, toInt_of_toNat_eq (v := q.qc) (by rw [hfield]; omega) hc,
    toInt_of_toNat_eq (v := q.qd) (by rw [hfield]; omega) hd]
  simp only [hfield]
  congr 1 <;> omega

/-- Settles O47: a codeword and its six fields have one number, `fieldSum`, in either direction. -/
theorem packUnpackInverse : Obligations.PackUnpackInverse := ⟨packCw_unpackCw, fun _ _ => unpackCw_of_packCw⟩

/-! ### UNPKCW -/

/-- R174: the unsigned fields zero-extended, the signed ones sign-extended. -/
theorem hexWords_unpackCw (r : Word) : hexWords (unpackCw (r.extractLsb' 0 32)) =
    [(r.extractLsb' 23 9).setWidth 64, (r.extractLsb' 18 5).signExtend 64, (r.extractLsb' 13 5).signExtend 64,
      (r.extractLsb' 8 5).signExtend 64, (r.extractLsb' 4 4).setWidth 64, (r.extractLsb' 0 4).setWidth 64] := by
  have hunsigned {n : Nat} (x : BitVec n) : to64 x.toNat = x.setWidth 64 := by rw [to64, BitVec.ofInt_natCast, BitVec.ofNat_toNat]
  have hfield {l n : Nat} (h : l + n ≤ 32) : (r.extractLsb' 0 32).extractLsb' l n = r.extractLsb' l n :=
    BitVec.extractLsb'_extractLsb'_of_le h
  rw [unpackCw_eq, hfield (by decide), hfield (by decide), hfield (by decide), hfield (by decide), hfield (by decide), hfield (by decide)]
  simp only [hexWords, hunsigned]
  rfl

theorem unpkcw_of_narrow {rd rs1 : Reg} {s : State} (hfit : rd.val + 6 ≤ 16) (h : (s.readReg rs1).toNat < 2 ^ 32) :
    exec (.unpkcw rd rs1) s = .next (s.writeGroup rd (hexWords (unpackCw ((s.readReg rs1).extractLsb' 0 32)))) :=
  (complete_group_fits hfit).trans (complete_of_codeword h)

/-- Settles O46, by the codeword view of the register. -/
theorem unpkcwSplitsCodeword : Obligations.UnpkcwSplitsCodeword := by
  refine ⟨decodesAs_formatR (extra := rdAtMost 10) (fun c h => by rw [decodePattern, h]; rfl) (rdAtMost_iff rfl), fun rd rs1 s hrd => ?_⟩
  have hfit : rd.val + 6 ≤ 16 := by omega
  refine ⟨rfl, fun h => ?_, fun h => (complete_group_fits hfit).trans (complete_of_wide h)⟩
  have hmember {vs : List Word} (hlen : vs.length = 6) {k : Nat} (hk : k < 6) :
      (s.writeGroup rd vs).readReg (rd.plus k) = vs[k] := readReg_writeGroup_member (by omega) _
  refine ⟨_, unpkcw_of_narrow hfit h, ?_⟩
  rw [hexWords_unpackCw]
  exact ⟨readReg_writeGroup_head hfit, hmember rfl (k := 1) (by decide), hmember rfl (k := 2) (by decide), hmember rfl (k := 3) (by decide),
    hmember rfl (k := 4) (by decide), hmember rfl (k := 5) (by decide), writeGroup_frame rfl hfit⟩

end Sys2Proof.Machine

namespace Sys2Proof.Machine

/-!
Compressing a block (44_codec.md R175, R176). The lumas of legal pixels are from 0 to 1, so the mean quantises to at most 512 and the differences
are no NaNs: the six values fit but for a luma of 512 or a table index above 15.
-/

/-! ### The six values of a block -/

/-- R175: the chroma samples of four pixels. -/
def blockSamples (p : Quad Pixel) (den : Nat) : Quad Ypp := p.map (rgbToChroma · den)

/-- R175: the coefficients of the four lumas. -/
def blockCoeffs (p : Quad Pixel) (den : Nat) : Coeffs := blockForward ((blockSamples p den).map Ypp.y)

/-- R175: the six quantised values, `qa` that of the mean luma. -/
def blockValues (indexOf : Word → BitVec 8) (p : Quad Pixel) (den qa : Nat) : QVals :=
  ⟨qa, quantBcd (blockCoeffs p den).b, quantBcd (blockCoeffs p den).c, quantBcd (blockCoeffs p den).d,
    (indexOf (mean4 ((blockSamples p den).map Ypp.pb))).toNat, (indexOf (mean4 ((blockSamples p den).map Ypp.pr))).toNat⟩

theorem quantizeBlock_eq (indexOf : Word → BitVec 8) (p : Quad Pixel) (den : Nat) : quantizeBlock indexOf p den =
    quantA (blockCoeffs p den).a >>= fun qa => .ok (blockValues indexOf p den qa) := rfl

theorem compressBlock_of_luma {indexOf : Word → BitVec 8} {p : Quad Pixel} {den qa : Nat} (h : quantA (blockCoeffs p den).a = .ok qa) :
    compressBlock indexOf p den = packCw (blockValues indexOf p den qa) := by
  rw [compressBlock, quantizeBlock_eq, h]
  rfl

/-- R175: a block that has no six values which fit overflows. -/
theorem compressBlock_of_overflow {indexOf : Word → BitVec 8} {p : Quad Pixel} {den : Nat}
    (h : ∀ qa, quantA (blockCoeffs p den).a = .ok qa → fitsCodeword (blockValues indexOf p den qa) = false) :
    compressBlock indexOf p den = .error .ovf := by
  cases hqa : quantA (blockCoeffs p den).a with
  | ok qa => rw [compressBlock_of_luma hqa, packCw_of_not_fits (h qa hqa)]
  | error k =>
    rw [compressBlock, quantizeBlock_eq, hqa, quantA_eq_error hqa]
    rfl

/-! ### Lumas from 0 to 1 -/

/-- Each of the four floats is from 0 to 1. -/
def UnitQuad (y : Quad Word) : Prop := UpTo y.e1 fone ∧ UpTo y.e2 fone ∧ UpTo y.e3 fone ∧ UpTo y.e4 fone

/-- Sums of up to four floats of at most 1 do not overflow. -/
theorem isFiniteF_fadd_four : isFiniteF (fadd (fadd (fadd fone fone) fone) fone) := by
  unfold isFiniteF
  decide +kernel

theorem isFiniteF_fc_4 : isFiniteF fc_4 := by unfold isFiniteF; decide

theorem units_fc_4_ne_zero : units fc_4 ≠ 0 := by decide +kernel

/-- A quotient by a positive float grows with the dividend. -/
theorem UpTo.fdiv {v b c : Word} (h : UpTo v b) (hc : isFiniteF c) (hsign : isNeg c = false) (h0 : units c ≠ 0)
    (hfin : isFiniteF (fdiv b c)) : UpTo (fdiv v c) (fdiv b c) := by
  have hpos : 0 < magUnits c := by rw [← natAbs_units]; omega
  have hv := fdiv_finite h.finite hc h0
  have hb := fdiv_finite h.finite_bound hc h0
  have hle : magUnits (Machine.fdiv v c) ≤ magUnits (Machine.fdiv b c) := by
    rw [hv, hb, magUnits_mkFloat_roundMag, magUnits_mkFloat_roundMag]
    exact magOfBits_roundMag_mono hpos hpos (Nat.mul_le_mul_right _ (Nat.mul_le_mul_right _ h.le))
  refine ⟨⟨hfin, ?_, hle⟩, ?_⟩
  · rw [hb, isNeg_mkFloat_roundMag, h.sign_bound, hsign]
    rfl
  · rw [hv, isNeg_mkFloat_roundMag, h.sign, hsign]
    rfl

/-- The mean of four floats from 0 to 1 is from 0 to 1. -/
theorem mean4_upTo_fone {y : Quad Word} (h : UnitQuad y) : UpTo (mean4 y) fone := by
  obtain ⟨h1, h2, h3, h4⟩ := h
  obtain ⟨htwo, hthree⟩ := isFiniteF_fadd_fone
  have hsum := ((h1.fadd h2 htwo).fadd h3 hthree).fadd h4 isFiniteF_fadd_four
  have hone : fdiv (fadd (fadd (fadd fone fone) fone) fone) fc_4 = fone := by decide +kernel
  have hmean := hsum.fdiv isFiniteF_fc_4 rfl units_fc_4_ne_zero (by rw [hone]; exact isFiniteF_fone)
  rwa [hone] at hmean

/-- R140: the differences of lumas from 0 to 1 are finite. -/
theorem isNaN_blockForward {y : Quad Word} (h : UnitQuad y) :
    isNaN (blockForward y).b = false ∧ isNaN (blockForward y).c = false ∧ isNaN (blockForward y).d = false := by
  obtain ⟨h1, h2, h3, h4⟩ := h
  obtain ⟨htwo, hthree⟩ := isFiniteF_fadd_fone
  have hquot {v b : Word} (hv : BoundedBy v b) : isNaN (fdiv v fc_4) = false :=
    isNaN_fdiv_of_nonzero (isNaN_of_finite hv.finite) isFiniteF_fc_4 units_fc_4_ne_zero
  have hadd := h4.toBoundedBy.fadd h3.toBoundedBy htwo
  have hsub := h4.toBoundedBy.fsub h3.toBoundedBy htwo
  exact ⟨hquot ((hadd.fsub h2.toBoundedBy hthree).fsub h1.toBoundedBy isFiniteF_fadd_four),
    hquot ((hsub.fadd h2.toBoundedBy hthree).fsub h1.toBoundedBy isFiniteF_fadd_four),
    hquot ((hsub.fsub h2.toBoundedBy hthree).fadd h1.toBoundedBy isFiniteF_fadd_four)⟩

/-! ### Four legal pixels -/

/-- Each of the four registers is a legal pixel (R176). -/
def LegalQuad (q : Quad Word) (den : Nat) : Prop :=
  pixelLegal q.e1 den = true ∧ pixelLegal q.e2 den = true ∧ pixelLegal q.e3 den = true ∧ pixelLegal q.e4 den = true

theorem pixelQuad_of_legal {q : Quad Word} {den : Nat} (h : LegalQuad q den) : pixelQuad q den = .ok (q.map pixelFields) :=
  pixelQuad_eq_ok.mpr ⟨h, rfl⟩

theorem pixelQuad_of_not_legal {q : Quad Word} {den : Nat} (h : ¬ LegalQuad q den) : pixelQuad q den = .error .opr := by
  cases hp : pixelQuad q den with
  | ok p => exact absurd (pixelQuad_eq_ok.mp hp).1 h
  | error k => rw [(pixelQuad_eq_error.mp hp).2]

/-- The lumas of legal pixels are from 0 to 1. -/
theorem unitQuad_of_legal {q : Quad Word} {den : Nat} (h : LegalQuad q den) (hden : 1 ≤ den) (hden' : den ≤ 255) :
    UnitQuad ((blockSamples (q.map pixelFields) den).map Ypp.y) := by
  have hluma {r : Word} (hr : pixelLegal r den = true) : UpTo (rgbToChroma (pixelFields r) den).y fone := by
    obtain ⟨-, hred, hgreen, hblue⟩ := pixelLegal_iff.mp hr
    exact (rgbToChroma_bounds hden hden' hred hgreen hblue).1
  obtain ⟨h1, h2, h3, h4⟩ := h
  exact ⟨hluma h1, hluma h2, hluma h3, hluma h4⟩

/-- With the denominator 0 the only legal pixel is black, and its luma is a NaN, which does not quantise. -/
theorem quantA_of_den_zero {q : Quad Word} (h : LegalQuad q 0) : quantA (blockCoeffs (q.map pixelFields) 0).a = .error .ovf := by
  have hblack {r : Word} (hr : pixelLegal r 0 = true) : pixelFields r = ⟨0, 0, 0⟩ := by
    obtain ⟨-, hred, hgreen, hblue⟩ := pixelLegal_iff.mp hr
    have hzero {x : BitVec 8} (hx : x.toNat ≤ 0) : x = 0 := BitVec.eq_of_toNat_eq (Nat.le_zero.mp hx)
    calc pixelFields r = ⟨(pixelFields r).red, (pixelFields r).green, (pixelFields r).blue⟩ := rfl
      _ = ⟨0, 0, 0⟩ := by rw [hzero hred, hzero hgreen, hzero hblue]
  obtain ⟨h1, h2, h3, h4⟩ := h
  rw [Quad.map, hblack h1, hblack h2, hblack h3, hblack h4]
  decide +kernel

/-- R155, R176: the six values of legal pixels fit but for a mean luma that quantises to 512 or a table index above 15. -/
theorem fitsCodeword_blockValues_iff {q : Quad Word} {den qa : Nat} {indexOf : Word → BitVec 8} (h : LegalQuad q den) (hden' : den ≤ 255)
    (hqa : quantA (blockCoeffs (q.map pixelFields) den).a = .ok qa) :
    fitsCodeword (blockValues indexOf (q.map pixelFields) den qa) = true ↔
      qa ≤ 511 ∧ (indexOf (mean4 ((blockSamples (q.map pixelFields) den).map Ypp.pb))).toNat ≤ 15 ∧
        (indexOf (mean4 ((blockSamples (q.map pixelFields) den).map Ypp.pr))).toNat ≤ 15 := by
  have hden : 1 ≤ den := by
    rcases Nat.eq_zero_or_pos den with rfl | hpos
    · rw [quantA_of_den_zero h] at hqa
      cases hqa
    · exact hpos
  obtain ⟨hb, hc, hd⟩ := isNaN_blockForward (unitQuad_of_legal h hden hden')
  have hqb := quantBcd_bounds hb
  have hqc := quantBcd_bounds hc
  have hqd := quantBcd_bounds hd
  rw [fitsCodeword_iff]
  simp only [blockValues, blockCoeffs]
  omega

/-- R176: the mean luma of legal pixels quantises, to 512 at most. -/
theorem quantA_of_legal {q : Quad Word} {den : Nat} (h : LegalQuad q den) (hden : 1 ≤ den) (hden' : den ≤ 255) :
    ∃ qa, quantA (blockCoeffs (q.map pixelFields) den).a = .ok qa ∧ qa ≤ 512 := by
  have hmean : UpTo (blockCoeffs (q.map pixelFields) den).a fone := mean4_upTo_fone (unitQuad_of_legal h hden hden')
  exact ⟨_, quantA_of_unit hmean.units_bounds.1 hmean.toBoundedBy, nearestInt_fmul_le hmean.toBoundedBy⟩

/-! ### CBLK -/

section
variable {rd rs1 : Reg} {s : State}

/-- The four pixels at `rs1`. -/
def State.pixelsAt (s : State) (rs1 : Reg) : Quad Pixel := (s.readQuad rs1).map pixelFields

theorem cblk_of_not_legal (hfit : rs1.val + 4 ≤ 16) (h : ¬ LegalQuad (s.readQuad rs1) s.den) :
    exec (.cblk rd rs1) s = .next (s.faultEntry .opr (encode (.cblk rd rs1))) := by
  refine (complete_group_fits hfit).trans ?_
  rw [pixelQuad_of_not_legal h]
  rfl

theorem cblk_of_fits (hfit : rs1.val + 4 ≤ 16) (h : LegalQuad (s.readQuad rs1) s.den) {qa : Nat}
    (hqa : quantA (blockCoeffs (s.pixelsAt rs1) s.den).a = .ok qa)
    (hfits : fitsCodeword (blockValues chromaIndexOf (s.pixelsAt rs1) s.den qa) = true) :
    ∃ w, exec (.cblk rd rs1) s = .next (s.writeReg rd (codewordWord w)) ∧
      w.toNat = fieldSum (blockValues chromaIndexOf (s.pixelsAt rs1) s.den qa) := by
  obtain ⟨w, hpack, hw⟩ := packCw_of_fits hfits
  have hcompress := (compressBlock_of_luma hqa).trans hpack
  refine ⟨w, (complete_group_fits hfit).trans ?_, hw⟩
  rw [pixelQuad_of_legal h, bind_ok, ← State.pixelsAt, hcompress]
  rfl

theorem cblk_of_overflow (hfit : rs1.val + 4 ≤ 16) (h : LegalQuad (s.readQuad rs1) s.den)
    (hover : ∀ qa, quantA (blockCoeffs (s.pixelsAt rs1) s.den).a = .ok qa →
      fitsCodeword (blockValues chromaIndexOf (s.pixelsAt rs1) s.den qa) = false) :
    exec (.cblk rd rs1) s = .next (s.faultEntry .ovf (encode (.cblk rd rs1))) := by
  refine (complete_group_fits hfit).trans ?_
  rw [pixelQuad_of_legal h, bind_ok, ← State.pixelsAt, compressBlock_of_overflow hover]
  rfl

theorem cblk_of_not_fits (hfit : rs1.val + 4 ≤ 16) (h : LegalQuad (s.readQuad rs1) s.den) {qa : Nat}
    (hqa : quantA (blockCoeffs (s.pixelsAt rs1) s.den).a = .ok qa)
    (hfits : fitsCodeword (blockValues chromaIndexOf (s.pixelsAt rs1) s.den qa) = false) :
    exec (.cblk rd rs1) s = .next (s.faultEntry .ovf (encode (.cblk rd rs1))) :=
  cblk_of_overflow hfit h fun qa' hqa' => by rwa [Except.ok.inj (hqa'.symm.trans hqa)]

end

/-- A luma above 511 overflows whatever the other five values are. -/
theorem fitsCodeword_of_large {q : QVals} (h : 511 < q.qa) : fitsCodeword q = false :=
  Bool.eq_false_iff.mpr fun hfits => absurd (fitsCodeword_iff.mp hfits).1 (Nat.not_le_of_lt h)

/-- Settles O48, by the pixels, the luma and the two table indices. -/
theorem cblkCompresses : Obligations.CblkCompresses := by
  refine ⟨decodesAs_formatR (extra := rs1AtMost 12) (fun c h => by rw [decodePattern, h]; rfl) (rs1AtMost_iff rfl), fun rd rs1 s hrs1 => ?_⟩
  have hfit : rs1.val + 4 ≤ 16 := by omega
  refine ⟨rfl, cblk_of_not_legal hfit, fun hlegal qa hqa hle => ?_, fun hlegal hlarge => ?_⟩
  · have hiff := fitsCodeword_blockValues_iff (indexOf := chromaIndexOf) (q := s.readQuad rs1) hlegal (den_le s) hqa
    cases hfits : fitsCodeword (blockValues chromaIndexOf (s.pixelsAt rs1) s.den qa) with
    | true =>
      obtain ⟨-, hpb, hpr⟩ := hiff.mp hfits
      obtain ⟨w, hexec, hw⟩ := cblk_of_fits (rd := rd) hfit hlegal hqa hfits
      refine ⟨_, hexec, fun _ => ⟨?_, writeReg_frame _ _ _⟩, fun hbig => ?_⟩
      · rw [readReg_writeReg_same, toNat_codewordWord, hw, fieldSum_eq]
        rfl
      · exact absurd hbig (not_or.mpr ⟨Nat.not_lt_of_le hpb, Nat.not_lt_of_le hpr⟩)
    | false =>
      refine ⟨_, cblk_of_not_fits hfit hlegal hqa hfits, fun hsmall => ?_, fun _ => rfl⟩
      exact absurd (hiff.mpr ⟨hle, hsmall⟩) (Bool.eq_false_iff.mp hfits)
  · exact cblk_of_overflow hfit hlegal fun qa hqa => fitsCodeword_of_large (hlarge qa hqa)

/-- Settles O49: the luma of legal pixels quantises, so a CBLK that faults has six values that do not fit. -/
theorem cblkFaultsOnlyByOverflow : Obligations.CblkFaultsOnlyByOverflow := by
  intro rd rs1 s t hrs1 hden hs h1 h2 h3 h4 hexec ht
  have hfit : rs1.val + 4 ≤ 16 := by omega
  have hlegal : LegalQuad (s.readQuad rs1) s.den := ⟨h1, h2, h3, h4⟩
  obtain ⟨qa, hqa, hmax⟩ := quantA_of_legal hlegal hden (den_le s)
  have hiff := fitsCodeword_blockValues_iff (indexOf := chromaIndexOf) hlegal (den_le s) hqa
  cases hfits : fitsCodeword (blockValues chromaIndexOf (s.pixelsAt rs1) s.den qa) with
  | true =>
    obtain ⟨w, hnext, -⟩ := cblk_of_fits (rd := rd) hfit hlegal hqa hfits
    cases hexec.symm.trans hnext
    exact absurd (ht.symm.trans hs) (by decide)
  | false =>
    cases hexec.symm.trans (cblk_of_not_fits hfit hlegal hqa hfits)
    have hnot := mt hiff.mpr (Bool.eq_false_iff.mp hfits)
    simp only [not_and_or, Nat.not_le] at hnot
    exact ⟨rfl, hnot.imp_left fun hluma => Nat.le_antisymm hmax hluma ▸ hqa⟩

/-! ### White -/

/-- Four times the same value. -/
def quadOf {α : Type} (a : α) : Quad α := ⟨a, a, a, a⟩

/-- A channel equal to the denominator is normalised to 1.0. -/
theorem normalize_self {d : BitVec 8} (h : 1 ≤ d.toNat) : normalize d d.toNat = fone := by
  obtain ⟨hfin, -, hmag, -⟩ := i2f_natural (Nat.le_of_lt_succ d.isLt)
  have hpos : 0 < magUnits (i2f d.toNat) := by rw [hmag]; exact Nat.mul_pos h oneU_pos
  have hquot := roundMag_scale oneU 1 hpos
  rw [Nat.one_mul, Nat.mul_comm] at hquot
  rw [normalize, fdiv_finite hfin hfin (by rw [← Int.natAbs_ne_zero, natAbs_units]; exact hpos.ne'), hquot, bne_self_eq_false]
  decide +kernel

theorem rgbToChroma_white {d : BitVec 8} (h : 1 ≤ d.toNat) : rgbToChroma ⟨d, d, d⟩ d.toNat = chromaOfRgb ⟨fone, fone, fone⟩ := by
  rw [rgbToChroma, normalize_self h]

/-- R176: the rounded luma of white, just below 1, still quantises to 512. -/
theorem quantA_white {d : BitVec 8} (h : 1 ≤ d.toNat) : quantA (blockCoeffs (quadOf ⟨d, d, d⟩) d.toNat).a = .ok 512 := by
  have hcoeffs : blockCoeffs (quadOf ⟨d, d, d⟩) d.toNat = blockForward (quadOf (rgbToChroma ⟨d, d, d⟩ d.toNat).y) := rfl
  rw [hcoeffs, rgbToChroma_white h]
  decide +kernel

/-- Settles O50: the luma alone overflows. -/
theorem whiteBlockOverflows : Obligations.WhiteBlockOverflows := by
  intro rd rs1 s hrs1 hden hwhite
  have hfirst := hwhite 0 (by decide)
  rw [plus_zero] at hfirst
  have hquad : s.readQuad rs1 = quadOf (pixelWord ⟨s.denom, s.denom, s.denom⟩) := by
    rw [State.readQuad, hfirst, hwhite 1 (by decide), hwhite 2 (by decide), hwhite 3 (by decide)]
    rfl
  have hpixels : s.pixelsAt rs1 = quadOf ⟨s.denom, s.denom, s.denom⟩ := by
    rw [State.pixelsAt, hquad, quadOf, Quad.map, pixelFields_pixelWord]
    rfl
  have hlegal : pixelLegal (pixelWord ⟨s.denom, s.denom, s.denom⟩) s.den = true := pixelLegal_pixelWord le_rfl le_rfl le_rfl
  refine cblk_of_overflow (by omega) (hquad ▸ ⟨hlegal, hlegal, hlegal, hlegal⟩) fun qa hqa => ?_
  rw [hpixels] at hqa
  have h512 : qa = 512 := Except.ok.inj (hqa.symm.trans (quantA_white hden))
  exact fitsCodeword_of_large (Nat.lt_of_lt_of_eq (by decide) h512.symm)

end Sys2Proof.Machine

namespace Sys2Proof.Machine

/-!
Decompressing a block (44_codec.md R177, R178): the four pixels of a codeword share one chroma pair, and only a NaN among their channels raises.
-/

/-! ### DBLK -/

/-- No channel of the linear map is a NaN (R135, R177). -/
def NoNaNChannel (c : RgbF) : Prop := isNaN c.r = false ∧ isNaN c.g = false ∧ isNaN c.b = false

/-- R177: the linear channels of the four pixels of a codeword, one chroma pair for all. -/
def blockChannels (ofIndex : BitVec 8 → Word) (w : BitVec 32) : Quad RgbF :=
  (lumasOf (unpackCw w)).map fun luma =>
    chromaToRgbLinear ⟨luma, ofIndex (BitVec.ofNat 8 (unpackCw w).qpb), ofIndex (BitVec.ofNat 8 (unpackCw w).qpr)⟩

/-- No channel of the four pixels is a NaN. -/
def BlockNumeric (c : Quad RgbF) : Prop := NoNaNChannel c.e1 ∧ NoNaNChannel c.e2 ∧ NoNaNChannel c.e3 ∧ NoNaNChannel c.e4

theorem decompressBlock_eq_ok {f : BitVec 8 → Word} {w : BitVec 32} {den : Nat} {p : Quad Pixel} :
    decompressBlock f w den = .ok p ↔
      BlockNumeric (blockChannels f w) ∧ p = (blockChannels f w).map (channelPixel · den) := by
  simp only [decompressBlock, bind_eq_ok, chromaToRgb_eq_ok]
  constructor
  · rintro ⟨_, ⟨h1, rfl⟩, _, ⟨h2, rfl⟩, _, ⟨h3, rfl⟩, _, ⟨h4, rfl⟩, hp⟩
    cases hp
    exact ⟨⟨h1, h2, h3, h4⟩, rfl⟩
  · rintro ⟨⟨h1, h2, h3, h4⟩, rfl⟩
    exact ⟨_, ⟨h1, rfl⟩, _, ⟨h2, rfl⟩, _, ⟨h3, rfl⟩, _, ⟨h4, rfl⟩, rfl⟩

/-- R177: a NaN among the channels is the only thing that stops a decompression. -/
theorem decompressBlock_of_nan {f : BitVec 8 → Word} {w : BitVec 32} {den : Nat} (h : ¬ BlockNumeric (blockChannels f w)) :
    decompressBlock f w den = .error .num := by
  cases hd : decompressBlock f w den with
  | ok p => exact absurd (decompressBlock_eq_ok.mp hd).1 h
  | error k => rw [decompressBlock_eq_error hd]

section
variable {rd rs1 : Reg} {s : State}

theorem dblk_of_numeric (hfit : rd.val + 4 ≤ 16) (h : (s.readReg rs1).toNat < 2 ^ 32)
    (hnum : BlockNumeric (blockChannels chromaOfIndex ((s.readReg rs1).extractLsb' 0 32))) :
    exec (.dblk rd rs1) s = .next (s.writeGroup rd ((blockChannels chromaOfIndex ((s.readReg rs1).extractLsb' 0 32)).map
      fun c => pixelWord (channelPixel c s.den)).toList) := by
  refine (complete_group_fits hfit).trans ((complete_of_codeword h).trans ?_)
  rw [decompressBlock_eq_ok.mpr ⟨hnum, rfl⟩]
  rfl

theorem dblk_of_nan (hfit : rd.val + 4 ≤ 16) (h : (s.readReg rs1).toNat < 2 ^ 32)
    (hnan : ¬ BlockNumeric (blockChannels chromaOfIndex ((s.readReg rs1).extractLsb' 0 32))) :
    exec (.dblk rd rs1) s = .next (s.faultEntry .num (encode (.dblk rd rs1))) := by
  refine (complete_group_fits hfit).trans ((complete_of_codeword h).trans ?_)
  rw [decompressBlock_of_nan hnan]
  rfl

end

/-- The table indices are the codeword's two lowest fields. -/
theorem blockChannels_extractLsb' (f : BitVec 8 → Word) (r : Word) : blockChannels f (r.extractLsb' 0 32) =
    (lumasOf (unpackCw (r.extractLsb' 0 32))).map fun luma =>
      chromaToRgbLinear ⟨luma, f ((r.extractLsb' 4 4).setWidth 8), f ((r.extractLsb' 0 4).setWidth 8)⟩ := by
  have hpb : BitVec.ofNat 8 (unpackCw (r.extractLsb' 0 32)).qpb = (r.extractLsb' 4 4).setWidth 8 := by
    rw [unpackCw_eq, BitVec.ofNat_toNat, BitVec.extractLsb'_extractLsb'_of_le (by decide)]
  have hpr : BitVec.ofNat 8 (unpackCw (r.extractLsb' 0 32)).qpr = (r.extractLsb' 0 4).setWidth 8 := by
    rw [unpackCw_eq, BitVec.ofNat_toNat, BitVec.extractLsb'_extractLsb'_of_le (by decide)]
  rw [blockChannels, hpb, hpr]

/-- Settles O51, by the codeword view of the register and then by whether a channel is a NaN. -/
theorem dblkDecompresses : Obligations.DblkDecompresses := by
  refine ⟨decodesAs_formatR (extra := rdAtMost 12) (fun c h => by rw [decodePattern, h]; rfl) (rdAtMost_iff rfl), fun rd rs1 s hrd => ?_⟩
  have hfit : rd.val + 4 ≤ 16 := by omega
  refine ⟨rfl, fun h => ?_, fun h => (complete_group_fits hfit).trans (complete_of_wide h)⟩
  have hc := blockChannels_extractLsb' chromaOfIndex (s.readReg rs1)
  by_cases hnum : BlockNumeric (blockChannels chromaOfIndex ((s.readReg rs1).extractLsb' 0 32))
  · have hexec := dblk_of_numeric hfit h hnum
    rw [hc] at hexec hnum
    exact ⟨_, hexec, fun _ => writesQuad_writeGroup hfit _ s, fun hnot => absurd hnum hnot⟩
  · refine ⟨_, dblk_of_nan hfit h hnum, fun hall => absurd ?_ hnum, fun _ => rfl⟩
    rw [hc]
    exact hall

end Sys2Proof.Machine

namespace Sys2Proof.Machine

/-!
The raster of the host's image (44_codec.md R185): a position lies in the block named by the halves of its row and column.
-/

/-! ### The block of a position -/

/-- A block's positions are those whose halves are its row and column of blocks. -/
theorem mem_blockPositions_iff {width k row col : Nat} :
    (row, col) ∈ (blockPositions width k).toList ↔ row / 2 = k / (width / 2) ∧ col / 2 = k % (width / 2) := by
  simp only [blockPositions, Quad.toList, List.mem_cons, Prod.mk.injEq, List.not_mem_nil, or_false]
  omega

/-- Settles O60: the halves of row and column are the quotient and the remainder of the block number. -/
theorem blockRasterCoversImage : Obligations.BlockRasterCoversImage := by
  intro width height row col hw hh hrow hcol
  simp only [mem_blockPositions_iff]
  have hc : col / 2 < width / 2 := by omega
  have hr : row / 2 < height / 2 := by omega
  refine ⟨⟨row / 2 * (width / 2) + col / 2, ?_, ?_, ?_⟩, ?_⟩
  · calc row / 2 * (width / 2) + col / 2 < (row / 2 + 1) * (width / 2) := by rw [Nat.succ_mul]; omega
      _ ≤ height / 2 * (width / 2) := Nat.mul_le_mul_right _ hr
      _ = blockCount width height := Nat.mul_comm _ _
  · rw [Nat.mul_comm, Nat.mul_add_div (Nat.zero_lt_of_lt hc), Nat.div_eq_of_lt hc, Nat.add_zero]
  · rw [Nat.mul_add_mod_of_lt hc]
  · rintro j k - - ⟨hjr, hjc⟩ ⟨hkr, hkc⟩
    rw [← Nat.div_add_mod j (width / 2), ← Nat.div_add_mod k (width / 2), ← hjr, ← hjc, ← hkr, ← hkc]

end Sys2Proof.Machine

namespace Sys2Proof

/-!
The words of the system and data-movement commands (30_encoding.md R82, R84, R85): no operand, one register and 16 bits, one CSR number
and one register.
-/

theorem operandFields_eq_zero (c : CmdWord) :
    (c.extractLsb' 0 24 == 0) = true ↔ (rdBits c == 0 && rs1Bits c == 0 && immField c == 0) = true := by
  have happ : c.extractLsb' 0 24 = rdBits c ++ c.extractLsb' 0 20 :=
    (BitVec.extractLsb'_append_extractLsb'_eq_extractLsb' (start₂ := 20) (start₁ := 0) (len₁ := 20) (len₂ := 4) rfl).symm
  rw [Bool.and_assoc, Bool.and_eq_true, ← rs1Bits_immField_eq_zero, happ]
  simp only [beq_iff_eq, ← BitVec.toNat_inj, Machine.toNat_append_eq_add, BitVec.ofNat_eq_ofNat, BitVec.toNat_zero]
  omega

/-- An opcode without operands. -/
theorem decodesAs_formatN {op : BitVec 8} {i : Instr} (hpat : ∀ c, opField c = op → decodePattern c = formatN c i) (hwf : i.WellFormed) :
    Machine.decodesAs op (fun c => c.extractLsb' 0 24 == 0) (fun _ => i) :=
  decodesAs_of_pattern hpat fun c => ⟨fun h => ⟨(operandFields_eq_zero c).mp h, hwf⟩, fun h => (operandFields_eq_zero c).mpr h.1⟩

/-- An opcode of one register and 16 bits whose extra check is the one that makes its instruction exist. -/
theorem decodesAs_formatI {op : BitVec 8} {mk : Reg → BitVec 16 → Instr} {extra : CmdWord → Bool}
    (hpat : ∀ c, opField c = op → decodePattern c = formatI c mk)
    (hextra : ∀ c, extra c = true ↔ (mk (rdField c) (immField c)).WellFormed) :
    Machine.decodesAs op (fun c => c.extractLsb' 16 4 == 0 && extra c) (fun c => mk (rdField c) (c.extractLsb' 0 16)) :=
  decodesAs_of_pattern hpat fun c => by rw [Bool.and_eq_true, hextra c]; rfl

/-- An opcode of one register and 16 bits that may be any. -/
theorem decodesAs_formatI_all {op : BitVec 8} {mk : Reg → BitVec 16 → Instr}
    (hpat : ∀ c, opField c = op → decodePattern c = formatI c mk) (hwf : ∀ rd imm, (mk rd imm).WellFormed) :
    Machine.decodesAs op (fun c => c.extractLsb' 16 4 == 0) (fun c => mk (rdField c) (c.extractLsb' 0 16)) :=
  decodesAs_of_pattern hpat fun _ => ⟨fun h => ⟨h, hwf _ _⟩, fun h => h.1⟩

/-- The words of WRC: the register field of `rd` and, since DENOM alone can be written, the CSR number are zero. -/
theorem decodesAs_wrc : Machine.decodesAs 0x07 (fun c => c.extractLsb' 20 4 == 0 && c.extractLsb' 0 16 == 0)
    (fun c => .wrc (c.extractLsb' 0 16) (rs1Field c)) :=
  decodesAs_of_pattern (zero := fun c => rdBits c == 0) (fun c h => by rw [decodePattern, h]; rfl) fun c => by
    rw [wrc_wellFormed_iff, Bool.and_eq_true, beq_iff_eq (a := c.extractLsb' 0 16)]
    rfl

end Sys2Proof

namespace Sys2Proof.Machine

/-!
The system and data-movement commands (45_system.md R200 to R206).
-/

/-! ### NOP and CLRF -/

/-- Settles O21. -/
theorem nopChangesNothing : Obligations.NopChangesNothing :=
  ⟨decodesAs_formatN (fun c h => by rw [decodePattern, h]; rfl) rfl, fun _ => ⟨rfl, rfl⟩⟩

/-- A legal running block holds zeros in the registers that CLRF zeroes (R42). -/
theorem clearFault_of_running {s : State} (h : s.Legal) (hs : s.status = 0) : s.clearFault = s := by
  obtain ⟨-, hrun, -, -⟩ := h
  obtain ⟨hcause, hfcmd⟩ := hrun hs
  rw [State.clearFault, ← hs, ← hcause, ← hfcmd]

/-- R233. -/
theorem step_discard {s : State} {c : CmdWord} {rest : List HostMove} (hs : s.status = 1) (hp : s.port = .cmd c :: rest)
    (hc : c ≠ clrfWord) : step s = .next { s with port := rest } := by
  rw [step_cmd hp, runCommand, if_pos hs, if_neg hc]

/-- Settles O22. -/
theorem clrfReturnsToRunning : Obligations.ClrfReturnsToRunning :=
  ⟨decodesAs_formatN (fun c h => by rw [decodePattern, h]; rfl) rfl, rfl, fun _ => rfl,
    fun _ h hs => congrArg Host.Outcome.next (clearFault_of_running h hs), fun _ _ _ hs hp hc => step_discard hs hp hc⟩

/-! ### LI, LIH and MV -/

/-- Settles O23: sign extension keeps the signed number. -/
theorem liLoadsSignExtended : Obligations.LiLoadsSignExtended := by
  refine ⟨decodesAs_formatI_all (fun c h => by rw [decodePattern, h]; rfl) fun _ _ => rfl, fun rd imm s => ⟨rfl, ?_⟩⟩
  refine ⟨_, rfl, ?_, writeReg_frame _ _ _⟩
  rw [readReg_writeReg_same, BitVec.toInt_signExtend_of_le (by decide)]

/-- Settles O24. -/
theorem lihShiftsIn : Obligations.LihShiftsIn := by
  refine ⟨decodesAs_formatI_all (fun c h => by rw [decodePattern, h]; rfl) fun _ _ => rfl, fun rd imm s => ⟨rfl, ?_⟩⟩
  refine ⟨_, rfl, ?_, writeReg_frame _ _ _⟩
  rw [readReg_writeReg_same, toNat_shiftIn]

/-- Settles O25. -/
theorem mvCopiesPattern : Obligations.MvCopiesPattern :=
  ⟨decodesAs_formatR_all (fun c h => by rw [decodePattern, h]; rfl) fun _ _ => rfl,
    fun _ _ _ => ⟨rfl, _, rfl, readReg_writeReg_same _ _ _, writeReg_frame _ _ _⟩⟩

/-! ### RDC -/

theorem toNat_readCsr_denom (s : State) : (s.readCsr 0).toNat = s.denom.toNat := BitVec.toNat_setWidth_of_le (by decide)

theorem toNat_readCsr_status (s : State) : (s.readCsr 1).toNat = s.status.toNat := BitVec.toNat_setWidth_of_le (by decide)

theorem toNat_readCsr_cause (s : State) : (s.readCsr 2).toNat = s.cause.toNat := BitVec.toNat_setWidth_of_le (by decide)

theorem toNat_readCsr_fcmd (s : State) : (s.readCsr 3).toNat = s.fcmd.toNat := BitVec.toNat_setWidth_of_le (by decide)

/-- Every CSR but DENOM is a fault register, which is zero in a legal running block (R42, R205). -/
theorem readCsr_of_running {s : State} (h : s.Legal) (hs : s.status = 0) {csr : BitVec 16} (hcsr : csr ≠ 0) : s.readCsr csr = 0 := by
  obtain ⟨-, hrun, -, -⟩ := h
  obtain ⟨hcause, hfcmd⟩ := hrun hs
  unfold State.readCsr
  split
  · next h0 => exact absurd (BitVec.eq_of_toNat_eq h0) hcsr
  · rw [hs]; rfl
  · rw [hcause]; rfl
  · rw [hfcmd]; rfl

theorem rdc_of_assigned (rd : Reg) {csr : BitVec 16} (s : State) (h : csr.toNat ≤ 3) :
    exec (.rdc rd csr) s = .next (s.writeReg rd (s.readCsr csr)) := complete_require_of_true (decide_eq_true h)

theorem rdc_of_unassigned (rd : Reg) {csr : BitVec 16} (s : State) (h : 3 < csr.toNat) :
    exec (.rdc rd csr) s = .next (s.faultEntry .ill (encode (.rdc rd csr))) :=
  complete_require_of_false (decide_eq_false (Nat.not_le_of_lt h))

/-- Settles O26, by whether the CSR number is assigned. -/
theorem rdcReadsCsr : Obligations.RdcReadsCsr := by
  refine ⟨decodesAs_formatI (fun c h => by rw [decodePattern, h]; rfl) csrAtMost_rdc_iff, fun rd csr s => ⟨rfl, fun h => ?_,
    rdc_of_unassigned rd s⟩⟩
  refine ⟨_, rdc_of_assigned rd s h, ?_⟩
  rw [readReg_writeReg_same]
  refine ⟨?_, ?_, ?_, ?_, fun hl hs hcsr => readCsr_of_running hl hs hcsr, writeReg_frame _ _ _⟩
  · rintro rfl; exact toNat_readCsr_denom s
  · rintro rfl; exact toNat_readCsr_status s
  · rintro rfl; exact toNat_readCsr_cause s
  · rintro rfl; exact toNat_readCsr_fcmd s

/-! ### WRC -/

section
variable (rs1 : Reg) (s : State)

theorem wrc_of_denominator (hlo : 1 ≤ (s.readReg rs1).toNat) (hhi : (s.readReg rs1).toNat ≤ 255) :
    exec (.wrc 0 rs1) s = .next (s.writeDenom ((s.readReg rs1).extractLsb' 0 8)) :=
  (complete_require_of_true rfl).trans (complete_require_of_true (Bool.and_eq_true_iff.mpr ⟨decide_eq_true hlo, decide_eq_true hhi⟩))

theorem wrc_of_no_denominator (h : (s.readReg rs1).toNat = 0 ∨ 255 < (s.readReg rs1).toNat) :
    exec (.wrc 0 rs1) s = .next (s.faultEntry .opr (encode (.wrc 0 rs1))) := by
  refine (complete_require_of_true rfl).trans (complete_require_of_false ?_)
  rw [← Bool.decide_and, decide_eq_false_iff_not, u64]
  omega

end

/-- Settles O27: only DENOM can be written, and only by a value of its range. -/
theorem wrcWritesDenom : Obligations.WrcWritesDenom := by
  refine ⟨decodesAs_wrc, fun csr rs1 s => ⟨rfl, ?_, ?_, fun hcsr => exec_of_not_wellFormed (mt wrc_wellFormed_iff.mp hcsr)⟩⟩
  · rintro rfl hlo hhi
    refine ⟨_, wrc_of_denominator rs1 s hlo hhi, ?_, rfl⟩
    rw [writeDenom_denom, BitVec.extractLsb'_toNat, Nat.shiftRight_zero, Nat.mod_eq_of_lt (by omega)]
  · rintro rfl h
    exact wrc_of_no_denominator rs1 s h

/-! ### The four commands that reach beyond the registers -/

/-- Settles O19: each command takes the fault entry, or has the effect that is stated of it. -/
theorem controlAndStreamCommandsFrame : Obligations.ControlAndStreamCommandsFrame := by
  refine fun s t => ⟨fun csr rs1 h => ?_, fun rs1 h => ?_, fun rd h => ?_, fun h => ?_⟩
  · rcases exec_eq_next h with ⟨k, rfl, -⟩ | ⟨-, v, -, rfl⟩
    · exact ⟨rfl, rfl, rfl, rfl, .inr ⟨k, rfl⟩⟩
    · exact ⟨rfl, rfl, rfl, rfl, .inl ⟨rfl, rfl, rfl⟩⟩
  · rcases exec_eq_next h with ⟨k, rfl, -⟩ | ⟨-, w, -, rfl⟩
    · exact ⟨rfl, rfl, rfl, rfl, List.take_length, .inr ⟨k, rfl⟩⟩
    · exact ⟨rfl, rfl, rfl, rfl, List.take_left, .inl ⟨rfl, rfl, rfl⟩⟩
  · rcases exec_eq_next h with ⟨k, rfl, -⟩ | ⟨-, b0, b1, b2, b3, rest, -, rfl⟩
    · exact ⟨fun _ _ => rfl, rfl, rfl, rfl, .inr ⟨k, rfl⟩⟩
    · exact ⟨fun q hq => readReg_writeReg_other hq.symm _ _, rfl, rfl, rfl, .inl ⟨rfl, rfl, rfl⟩⟩
  · cases h
    exact ⟨rfl, rfl, rfl, rfl, rfl⟩

end Sys2Proof.Machine

namespace Sys2Proof.Machine

/-!
Faults (60_exceptions.md R232 to R235), by the ends of a step: the fault entry and its record, the two ways out of FAULTED, and what a FAULTED
block does with each move.
-/

theorem status_ne_zero {s : State} (h : s.status = 1) : s.status ≠ 0 := by
  rw [h]
  decide

/-! ### The record of a fault -/

theorem faultEntry_faultRecorded (s : State) {k : Cause} {c : CmdWord} (hk : canRaise c k) : (s.faultEntry k c).FaultRecorded :=
  fun _ => ⟨k, rfl, hk⟩

/-- A running block records no fault. -/
theorem faultRecorded_of_running {s : State} (h : s.status = 0) : s.FaultRecorded :=
  fun h1 => absurd h (status_ne_zero h1)

theorem Effect.keeps_running {i : Instr} {s t : State} (he : Effect i s t) (h : s.status = 0) : t.status = 0 :=
  he.frame.2 h

/-- Settles O14: a fault's cause is one its word can raise; every other end keeps the fault registers or leaves the block running. -/
theorem stepKeepsFaultRecord : Obligations.StepKeepsFaultRecord := by
  intro s t h hstep
  cases step_ends hstep with
  | wait => exact h
  | push => exact h
  | observe => exact h
  | reset => exact faultRecorded_of_running rfl
  | discard => exact h
  | leave => exact faultRecorded_of_running rfl
  | fault _ _ hk => exact faultEntry_faultRecorded _ hk
  | effect _ hs _ he => exact faultRecorded_of_running (he.keeps_running hs)

/-! ### Into FAULTED -/

/-- Settles O10: at a command word, only the fault entry ends a running block's step FAULTED. -/
theorem faultEntryChangesNothingElse : Obligations.FaultEntryChangesNothingElse := by
  intro s t c rest hs hport hstep ht
  cases step_ends hstep with
  | wait hp => cases hport.symm.trans hp
  | push hp => cases hport.symm.trans hp
  | observe hp => cases hport.symm.trans hp
  | reset hp => cases hport.symm.trans hp
  | discard _ h1 => exact absurd hs (status_ne_zero h1)
  | leave _ h1 => exact absurd hs (status_ne_zero h1)
  | fault hp _ hk =>
    cases hport.symm.trans hp
    exact ⟨_, hk, rfl⟩
  | effect _ _ _ he => exact absurd (he.keeps_running hs) (status_ne_zero ht)

/-! ### Out of FAULTED -/

/-- Settles O15: every end but the return by `CLRF` and the reset keeps STATUS, or begins in a running block. -/
theorem faultedLeftOnlyByClrfOrReset : Obligations.FaultedLeftOnlyByClrfOrReset := by
  intro s t hs hstep ht
  cases step_ends hstep with
  | wait => exact absurd ht (status_ne_zero hs)
  | push => exact absurd ht (status_ne_zero hs)
  | observe => exact absurd ht (status_ne_zero hs)
  | reset hp => exact ⟨_, .inr hp⟩
  | discard => exact absurd ht (status_ne_zero hs)
  | leave hp => exact ⟨_, .inl ⟨hp, rfl⟩⟩
  | fault _ h0 => exact absurd h0 (status_ne_zero hs)
  | effect _ h0 => exact absurd h0 (status_ne_zero hs)

/-! ### While FAULTED -/

/-- The return from FAULTED by `CLRF` (R233, R234). -/
theorem step_clrf_faulted {s : State} {rest : List HostMove} (hs : s.status = 1) (hp : s.port = .cmd clrfWord :: rest) :
    step s = .next ({ s with port := rest } : State).clearFault := by
  rw [step_cmd hp, runCommand, if_pos hs, if_pos rfl]
  rfl

/-- Settles O7, move by move. -/
theorem faultedDiscardsAllButClrf : Obligations.FaultedDiscardsAllButClrf :=
  fun _ _ hs => ⟨fun hp => step_clrf_faulted hs hp, fun _ hc hp => step_discard hs hp hc, fun _ hp => step_cons hp, fun hp => step_cons hp,
    fun hp => ⟨_, step_reset hp, readReg_reset, rfl, rfl, rfl, rfl, rfl, rfl⟩⟩

end Sys2Proof.Machine

namespace Sys2Proof

/-!
Which words are rejected, and for which reason (30_encoding.md R91, R92): those whose pattern is no row's, and those that encode an instruction
which fails the extra check.
-/

/-! ### The two ways to be rejected -/

/-- R92 (a), (b): a word without a row's pattern is rejected for what its pattern lacks. -/
theorem decode_eq_error_of_decodePattern {c : CmdWord} {r : Reject} (h : decodePattern c = .error r) : decode c = .error r := by
  rw [decode, h]

/-- R92 (c) to (e): the word of an instruction that is not well formed is rejected for the check that the instruction fails. -/
theorem decode_encode_of_reject {i : Instr} {r : Reject} (h : i.reject = some r) : decode (encode i) = .error r := by
  simp only [decode, decodePattern_encode, checkExtra, h]

/-! ### The sample words -/

/-- Settles O1: a legal word is the encoding of its well-formed command; an illegal one fails in its pattern, or is the encoding of a command that
fails the extra check. -/
theorem sampleWordsDecode : Obligations.SampleWordsDecode := by
  have hlegal {c : CmdWord} {i : Instr} (henc : encode i = c) (hwf : i.WellFormed) : decode c = .ok i :=
    decode_eq_ok_iff_encode.mpr ⟨henc, hwf⟩
  refine ⟨hlegal rfl rfl, hlegal rfl rfl, hlegal rfl rfl, hlegal rfl rfl, hlegal rfl rfl, hlegal rfl rfl, hlegal rfl rfl, hlegal rfl rfl,
    hlegal rfl rfl, hlegal rfl rfl, hlegal rfl rfl, ?unassignedOp, ?fieldNotZero, ?groupPastX15, ?csrUnassigned, ?csrReadOnly⟩
  case unassignedOp => exact decode_eq_error_of_decodePattern rfl
  case fieldNotZero => exact decode_eq_error_of_decodePattern rfl
  case groupPastX15 => exact decode_encode_of_reject (i := .rgb2ypp 14 1) rfl
  case csrUnassigned => exact decode_encode_of_reject (i := .rdc 1 4) rfl
  case csrReadOnly => exact decode_encode_of_reject (i := .wrc 1 1) rfl

end Sys2Proof
